-- ==== Sys2Proof/Word.lean ====
section
/-! DEFINITION. The word types whose widths the spec fixes (00_scope.md R9, R10). -/

namespace Sys2Proof

/-- One element of a buffer or of a byte sequence, and one Hamming code word (R9). -/
abbrev Byte := BitVec 8

/-- A Hamming data value (R9). -/
abbrev Nibble := BitVec 4

/-- The CRC and its register (R9). -/
abbrev Word32 := BitVec 32

/-- A virtual-UTC second count or a millisecond tick count (R9, R37). -/
abbrev Word64 := BitVec 64

end Sys2Proof
end

