-- ==== Sys2Proof/Request.lean ====
section
/-! DEFINITION. What an agent presents to the block: an operation code and the operand inputs (30_encoding.md R69). -/

namespace Sys2Proof

/-- The agents that issue operations (00_scope.md R4). The tick counter issues none: it is the operand `rtc_now`. -/
inductive Agent where
  /-- The serial receive path, R4 (a). -/
  | byteSource
  /-- The dispatcher and all other software, R4 (b). -/
  | client
  deriving DecidableEq, Repr

/-- The operand formats of R69. -/
inductive Format where
  /-- No operand. -/
  | N
  /-- One byte. -/
  | B
  /-- One nibble. -/
  | H
  /-- An index. -/
  | I
  /-- A byte sequence with its length. -/
  | S
  /-- One bit, `clear_overrun`. -/
  | T
  /-- `t` and `rtc_now`. -/
  | Q
  /-- `rtc_now`. -/
  | R
  deriving DecidableEq, Repr

/-- The separate named operand inputs of R69. An operation reads those of its format and no other. -/
structure Operands where
  /-- Format B. -/
  byte : Byte := 0
  /-- Format H. -/
  nibble : Nibble := 0
  /-- Format I. -/
  idx : Nat := 0
  /-- Format S. -/
  bytes : List Byte := []
  /-- Format T. -/
  clearOverrun : Bool := false
  /-- Format Q. -/
  t : Word64 := 0
  /-- Formats Q and R. -/
  rtcNow : Word64 := 0
  deriving DecidableEq, Repr

/-- One issued operation: who issues it, its 8-bit code and its operand inputs (R69). The block never tests the
agent (60_exceptions.md R216). -/
structure Request where
  agent : Agent
  op : Byte
  inputs : Operands
  deriving DecidableEq, Repr

end Sys2Proof
end

