-- ==== Sys2Proof/Syntax.lean ====
section
/-! DEFINITION. The operations of the block, one constructor per row of spec/opcode_table.json, with the operands
of the row's format (30_encoding.md R69, R70). -/

namespace Sys2Proof

/-- What the format of the spec calls an instruction is an operation an agent issues (00_scope.md R3). -/
inductive Instr where
  /-- `CRC.INIT` (R87). -/
  | crcInit
  /-- `CRC.UPDATE b` (R89). -/
  | crcUpdate (b : Byte)
  /-- `CRC.FINAL` (R90). -/
  | crcFinal
  /-- `CRC.BLOCK s` (R91). -/
  | crcBlock (s : List Byte)
  /-- `COBS.ENC p` (R102). -/
  | cobsEnc (p : List Byte)
  /-- `COBS.DEC e` (R105). -/
  | cobsDec (e : List Byte)
  /-- `HAM.ENC v` (R120). -/
  | hamEnc (v : Nibble)
  /-- `HAM.DEC h` (R122). -/
  | hamDec (h : Byte)
  /-- `FEC.EXPAND s` (R126). -/
  | fecExpand (s : List Byte)
  /-- `FEC.COMPRESS w` (R128). -/
  | fecCompress (w : List Byte)
  /-- `FRAME.ENC p` (R141). -/
  | frameEnc (p : List Byte)
  /-- `FRAME.DEC w` (R145). -/
  | frameDec (w : List Byte)
  /-- `FRAME.CHK` (R149). -/
  | frameChk
  /-- `AGG.PUSH b` (R161). -/
  | aggPush (b : Byte)
  /-- `AGG.TAKE clear_overrun` (R172). -/
  | aggTake (clearOverrun : Bool)
  /-- `AGG.RDBUF idx` (R175); `idx` is an unsigned integer of no fixed width. -/
  | aggRdbuf (idx : Nat)
  /-- `TREF.REBASE t, rtc_now` (R187). -/
  | trefRebase (t rtcNow : Word64)
  /-- `TREF.GET rtc_now` (R189). -/
  | trefGet (rtcNow : Word64)
  /-- `TREF.ISSET` (R193). -/
  | trefIsset
  deriving DecidableEq, Repr

end Sys2Proof
end

