-- ==== Sys2Proof/Decode.lean ====
section
/-! DEFINITION. The operation encoding (30_encoding.md Part B): the code map, the total decoder, and the encoder. -/

namespace Sys2Proof

/-- One row of the operation code map (R70). -/
structure OpRow where
  code : Byte
  mnemonic : String
  format : Format
  deriving DecidableEq, Repr

/-- The complete operation code map of R70, row for row. -/
def opTable : List OpRow :=
  [⟨0x10, "CRC.INIT", .N⟩, ⟨0x11, "CRC.UPDATE", .B⟩, ⟨0x12, "CRC.FINAL", .N⟩, ⟨0x13, "CRC.BLOCK", .S⟩] ++
  [⟨0x20, "COBS.ENC", .S⟩, ⟨0x21, "COBS.DEC", .S⟩] ++
  [⟨0x30, "HAM.ENC", .H⟩, ⟨0x31, "HAM.DEC", .B⟩, ⟨0x32, "FEC.EXPAND", .S⟩, ⟨0x33, "FEC.COMPRESS", .S⟩] ++
  [⟨0x40, "FRAME.ENC", .S⟩, ⟨0x41, "FRAME.DEC", .S⟩, ⟨0x42, "FRAME.CHK", .N⟩] ++
  [⟨0x50, "AGG.PUSH", .B⟩, ⟨0x51, "AGG.TAKE", .T⟩, ⟨0x52, "AGG.RDBUF", .I⟩] ++
  [⟨0x60, "TREF.REBASE", .Q⟩, ⟨0x61, "TREF.GET", .R⟩, ⟨0x62, "TREF.ISSET", .N⟩]

/-- The format of an operation code, none for a reserved one (R70, R71). -/
def formatOf (op : Byte) : Option Format :=
  (opTable.find? fun row => row.code == op).map (·.format)

/-- The inputs a format reads, every other input at 0 or empty (R69). -/
def Operands.restrict (x : Operands) : Format → Operands
  | .N => {}
  | .B => { byte := x.byte }
  | .H => { nibble := x.nibble }
  | .I => { idx := x.idx }
  | .S => { bytes := x.bytes }
  | .T => { clearOverrun := x.clearOverrun }
  | .Q => { t := x.t, rtcNow := x.rtcNow }
  | .R => { rtcNow := x.rtcNow }

/-- What the decoder answers: one of the nineteen operations, or `illegal` (R71). -/
inductive Decoded where
  | operation (i : Instr)
  /-- A reserved operation code. -/
  | illegal (op : Byte)
  deriving DecidableEq, Repr

/-- The decoder of R70 and R71, total on every request. -/
def decode (r : Request) : Decoded :=
  match r.op.toNat with
  | 0x10 => .operation .crcInit
  | 0x11 => .operation (.crcUpdate r.inputs.byte)
  | 0x12 => .operation .crcFinal
  | 0x13 => .operation (.crcBlock r.inputs.bytes)
  | 0x20 => .operation (.cobsEnc r.inputs.bytes)
  | 0x21 => .operation (.cobsDec r.inputs.bytes)
  | 0x30 => .operation (.hamEnc r.inputs.nibble)
  | 0x31 => .operation (.hamDec r.inputs.byte)
  | 0x32 => .operation (.fecExpand r.inputs.bytes)
  | 0x33 => .operation (.fecCompress r.inputs.bytes)
  | 0x40 => .operation (.frameEnc r.inputs.bytes)
  | 0x41 => .operation (.frameDec r.inputs.bytes)
  | 0x42 => .operation .frameChk
  | 0x50 => .operation (.aggPush r.inputs.byte)
  | 0x51 => .operation (.aggTake r.inputs.clearOverrun)
  | 0x52 => .operation (.aggRdbuf r.inputs.idx)
  | 0x60 => .operation (.trefRebase r.inputs.t r.inputs.rtcNow)
  | 0x61 => .operation (.trefGet r.inputs.rtcNow)
  | 0x62 => .operation .trefIsset
  | _ => .illegal r.op

/-- The code of an operation (R70). -/
def Instr.code : Instr → Byte
  | .crcInit => 0x10
  | .crcUpdate _ => 0x11
  | .crcFinal => 0x12
  | .crcBlock _ => 0x13
  | .cobsEnc _ => 0x20
  | .cobsDec _ => 0x21
  | .hamEnc _ => 0x30
  | .hamDec _ => 0x31
  | .fecExpand _ => 0x32
  | .fecCompress _ => 0x33
  | .frameEnc _ => 0x40
  | .frameDec _ => 0x41
  | .frameChk => 0x42
  | .aggPush _ => 0x50
  | .aggTake _ => 0x51
  | .aggRdbuf _ => 0x52
  | .trefRebase _ _ => 0x60
  | .trefGet _ => 0x61
  | .trefIsset => 0x62

/-- The operand inputs of an operation, those its format does not name at 0 or empty (R69). -/
def Instr.operands : Instr → Operands
  | .crcInit => {}
  | .crcUpdate b => { byte := b }
  | .crcFinal => {}
  | .crcBlock s => { bytes := s }
  | .cobsEnc p => { bytes := p }
  | .cobsDec e => { bytes := e }
  | .hamEnc v => { nibble := v }
  | .hamDec h => { byte := h }
  | .fecExpand s => { bytes := s }
  | .fecCompress w => { bytes := w }
  | .frameEnc p => { bytes := p }
  | .frameDec w => { bytes := w }
  | .frameChk => {}
  | .aggPush b => { byte := b }
  | .aggTake c => { clearOverrun := c }
  | .aggRdbuf idx => { idx := idx }
  | .trefRebase t rtcNow => { t := t, rtcNow := rtcNow }
  | .trefGet rtcNow => { rtcNow := rtcNow }
  | .trefIsset => {}

/-- The encoder: the request by which `agent` issues `i` (R69). -/
def encode (agent : Agent) (i : Instr) : Request :=
  { agent := agent, op := i.code, inputs := i.operands }

/-- The agent that issues an operation code by the convention of 00_scope.md R4: `AGG.PUSH` is the byte source's. -/
def conventionalAgent (op : Byte) : Agent :=
  if op = 0x50 then .byteSource else .client

/-- The request that a row of spec/opcode_table.json stands for: its 8-bit code, all operand inputs at 0 or empty
(the operands of R69 are inputs of their own and have no bits in the word; log 15). -/
def requestOfWord (w : Nat) : Request :=
  { agent := conventionalAgent (BitVec.ofNat 8 w), op := BitVec.ofNat 8 w, inputs := {} }

/-- What the decoder reads from a table word of `nbits` bits: every code of R70 is one 8-bit word (R72). -/
def decodeTableWord (nbits w : Nat) : Option Instr :=
  if nbits = 8 ∧ w < 256 then
    match decode (requestOfWord w) with
    | .operation i => some i
    | .illegal _ => none
  else none

/-- `AGG.PUSHSEQ s` (R74): the bytes of `s` pushed in order by the byte source. -/
def pushSeq (s : List Byte) : List Request :=
  s.map fun b => encode .byteSource (.aggPush b)

/-- `CRC.STREAM s` (R74). -/
def crcStream (s : List Byte) : List Request :=
  encode .client .crcInit :: (s.map fun b => encode .client (.crcUpdate b)) ++ [encode .client .crcFinal]

/-- `DISPATCH` (R74): `FRAME.CHK`, then `AGG.TAKE clear_overrun=0`. -/
def dispatch : List Request :=
  [encode .client .frameChk, encode .client (.aggTake false)]

end Sys2Proof
end

