-- ==== Sys2Proof/Config.lean ====
section
/-! DEFINITION. The build parameters of the block (00_scope.md R8). Their numeric formulas (`CAP` and the like)
and the values of the reset machine stand in Machine/Capacity.lean. -/

namespace Sys2Proof

/-- `CRC_TRAILER_ORDER` (R8, 20_memory.md R43). -/
inductive TrailerOrder where
  | little
  | big
  deriving DecidableEq, Repr

/-- The parameters of R8 that an instance of the block can differ in. They are fixed when the block is built and
never change while it runs (R8, 10_state.md R38). `CRC_REFIN` and `CRC_REFOUT` are 0 in every instance: the spec
defines the CRC for no other value (40_crc32.md R86; log 6). -/
structure Params where
  /-- `FEC_EN`, OPEN. -/
  fecEn : Bool
  /-- `PAYLOAD_MAX`, OPEN. -/
  payloadMax : Nat
  /-- `CRC_POLY`. -/
  crcPoly : Word32
  /-- `CRC_INIT`. -/
  crcInit : Word32
  /-- `CRC_XOROUT`. -/
  crcXorout : Word32
  /-- `CRC_TRAILER_ORDER`. -/
  trailerOrder : TrailerOrder
  deriving DecidableEq, Repr

end Sys2Proof
end

