-- ==== Sys2Proof/Machine/Capacity.lean ====
section
/-! DEFINITION. The formulas and constants of the parameter table (00_scope.md R8), and the parameters of the
reset machine. -/

namespace Sys2Proof

/-- `TICKS_PER_SECOND` (R8). -/
def ticksPerSecond : Nat := 1000

/-- `CRC_BYTES`, the length of the CRC trailer (R8). -/
def crcBytes : Nat := 4

/-- `COBS_MAXLEN(n)`: the longest encoding of `n` bytes, terminator included (41_cobs.md R112). -/
def cobsMaxlen (n : Nat) : Nat :=
  if n = 0 then 2 else n + (n + 253) / 254 + 1

/-- `FEC_EXPANSION` (R8). -/
def Params.fecExpansion (p : Params) : Nat :=
  if p.fecEn then 2 else 1

/-- `OUT_SIZE(n)`: room for the frame of a payload of `n` bytes (R8, 20_memory.md R52). -/
def Params.outSize (p : Params) (n : Nat) : Nat :=
  cobsMaxlen (n + crcBytes) * p.fecExpansion

/-- `CAP`, the size of the command buffer (R8, 20_memory.md R51). -/
def Params.cap (p : Params) : Nat :=
  p.outSize p.payloadMax

/-- The parameters with the CRC and trailer values of R8 and the two OPEN ones as arguments. -/
def Params.ofSpec (fecEn : Bool) (payloadMax : Nat) : Params where
  fecEn := fecEn
  payloadMax := payloadMax
  crcPoly := 0x04C11DB7
  crcInit := 0x00000000
  crcXorout := 0xFFFFFFFF
  trailerOrder := .little

/-- The parameters `State.reset` is built with. DESIGN CHOICE (log 5), unsafe for a statement that rests on them:
`FEC_EN` and `PAYLOAD_MAX` are OPEN, and the values are those of the spec's own FEC programs (95_test_vectors.md P2 to P6). -/
def Params.ofReset : Params := Params.ofSpec true 4

end Sys2Proof
end

