-- ==== Sys2Proof/Machine/State.lean ====
section
/-! DEFINITION. The state of the block (10_state.md), its statuses, results, faults, and the state after reset. -/

namespace Sys2Proof.Machine

/-- The command buffer's written bytes as (index, byte) pairs, indices strictly rising (10_state.md R26). -/
abbrev Memory := List Host.Cell

/-- What an index nothing has stored to reads as: no value (10_state.md R26, 44_frame_aggregator.md R176; log 10). -/
def Memory.unlisted : Option Byte := none

/-- The canonical form: indices strictly rising, and no entry equal to what an unlisted index reads as. -/
abbrev Memory.wf (m : Memory) : Prop :=
  m.Pairwise (fun a b => a.1 < b.1) ∧ ∀ c ∈ m, some c.2 ≠ Memory.unlisted

/-- The statuses of 60_exceptions.md R200. -/
inductive Status where
  | ok
  /-- "COBS structurally invalid". -/
  | decodeError
  /-- Never returned by the block: software only. -/
  | deserializeError
  /-- "checksum mismatch". -/
  | crcError
  /-- "uncorrectable double-bit error in FEC mode". -/
  | hammingError
  /-- Never returned by the block: software only. -/
  | validationError
  /-- An odd number of wire bytes given to the FEC compressor. -/
  | badLength
  deriving DecidableEq, Repr

/-- What `HAM.DEC` returns for a decodable code word (42_hamming.md R122). -/
structure HamDecoded where
  v : Nibble
  corrected : Bool
  deriving DecidableEq, Repr

/-- The five values `AGG.TAKE` returns (44_frame_aggregator.md R172). -/
structure Latch where
  ready : Bool
  len : Nat
  corrected : Bool
  hammingError : Bool
  overrun : Bool
  deriving DecidableEq, Repr

/-- What an operation returns to the agent that issued it (20_memory.md R40 (c), 60_exceptions.md R200, R202). -/
inductive Result where
  /-- The operation returns nothing. -/
  | none
  /-- `CRC.FINAL`: the CRC, without a status. -/
  | crc (c : Word32)
  /-- `CRC.BLOCK`: status `Ok` and the CRC. -/
  | okCrc (c : Word32)
  /-- Status `Ok` and a byte sequence. -/
  | okBytes (s : List Byte)
  /-- Status `Ok`, a byte sequence and the bit `corrected`. -/
  | okCorrected (s : List Byte) (corrected : Bool)
  /-- A status other than `Ok`, and no other result. -/
  | failed (st : Status)
  /-- `HAM.ENC`. -/
  | codeWord (h : Byte)
  /-- `HAM.DEC`. -/
  | decoded (r : Option HamDecoded)
  /-- `AGG.TAKE`. -/
  | latch (l : Latch)
  /-- `AGG.RDBUF`. -/
  | byte (b : Byte)
  /-- `TREF.GET`. -/
  | time (t : Word64)
  /-- `TREF.ISSET`. -/
  | isSet (b : Bool)
  deriving DecidableEq, Repr

/-- A result delivered to the agent that issued the operation (20_memory.md R40 (c); log 4). -/
structure Returned where
  agent : Agent
  result : Result
  deriving DecidableEq, Repr

/-- Why an operation has no result (60_exceptions.md R203, R204), and the model's own two stops. The first seven are
the faults of R204, raised where the spec names them (safe): `exec` answers them, and the step records them and goes on
(log 14). The last two are raised in states no run reaches, and the step ends there (safe). -/
inductive Fault where
  /-- Any request whose code is reserved (30_encoding.md R71). -/
  | illegalOperation (op : Byte)
  /-- `CRC.UPDATE`, `CRC.FINAL` with `crc_valid = 0` (R89, R90). -/
  | crcNotInitialised
  /-- `FRAME.ENC` of a payload longer than `PAYLOAD_MAX` (R143). -/
  | capacityFault (len : Nat)
  /-- `AGG.RDBUF` with `idx >= CAP` (R175). -/
  | bufferIndexFault (idx : Nat)
  /-- `AGG.RDBUF` of a byte nothing has written (R176). -/
  | unwrittenRead (idx : Nat)
  /-- `TREF.GET` with `rtc_now < rtc_reference` (R191). -/
  | timeUnderflow (rtcNow rtcReference : Word64)
  /-- `TREF.GET` whose sum exceeds 64 bits (R192). -/
  | timeOverflow (utcReference : Word64) (q : Nat)
  /-- `FRAME.CHK` or `AGG.RDBUF` reading past the buffer or a byte with no value, where the rules say that none is read
  (20_memory.md R41, 43_frame_codec.md R149; log 11). -/
  | loadOutOfRange (idx : Nat)
  /-- `AGG.PUSH` with `agg_index >= CAP`: no such byte exists (R41; log 12). -/
  | storeOutOfRange (idx : Nat)
  deriving DecidableEq, Repr

/-- Why an operation has no meaning in the model. -/
inductive Refusal where
  /-- Raised by `exec` for an operation without a meaning; every operation of the table has one. Safe. -/
  | notModelled (mnemonic : String)
  deriving DecidableEq, Repr

/-- The whole state of the block (10_state.md R20) and five fields of the model's own: the build parameters (log 5),
the requests not yet performed (log 2), the last operation's result and the results returned so far (log 4), and the
faults raised so far (log 14). -/
structure State where
  /-- The build parameters, 00_scope.md R8; no step writes them (R38). -/
  params : Params
  /-- The operations issued and not yet performed, in the total order of R5 and R54. -/
  requests : List Request
  /-- What the last operation returned. -/
  result : Result
  /-- The results returned so far, oldest first. -/
  returned : List Returned
  /-- The faults raised so far, oldest first, never cleared (60_exceptions.md R203). -/
  faults : List Fault
  /-- `crc_acc`, R24. -/
  crcAcc : Word32
  /-- `crc_valid`, R25. -/
  crcValid : Bool
  /-- `buf`, R26. -/
  buf : Memory
  /-- `buf_written`, R26. -/
  bufWritten : Nat
  /-- `agg_index`, R27. -/
  aggIndex : Nat
  /-- `agg_corrected`, R28, FEC only. -/
  aggCorrected : Bool
  /-- `agg_half_valid`, R29, FEC only. -/
  aggHalfValid : Bool
  /-- `agg_half`, R29, FEC only. -/
  aggHalf : Byte
  /-- `frame_ready`, R31. -/
  frameReady : Bool
  /-- `frame_len`, R32. -/
  frameLen : Nat
  /-- `frame_corrected`, R33, constant 0 when `FEC_EN = 0`. -/
  frameCorrected : Bool
  /-- `frame_hamming_error`, R33, constant 0 when `FEC_EN = 0`. -/
  frameHammingError : Bool
  /-- `frame_overrun`, R34. -/
  frameOverrun : Bool
  /-- `utc_reference`, R35. -/
  utcReference : Word64
  /-- `rtc_reference`, R36. -/
  rtcReference : Word64
  deriving DecidableEq, Repr

/-- The state after power-on of a block built with parameters `p` (70_reset_and_hazards.md R225). `crc_acc` and
`agg_half` are unspecified there: 0 is a DESIGN CHOICE (logs 8 and 9). -/
def State.resetFor (p : Params) : State where
  params := p
  requests := []
  result := .none
  returned := []
  faults := []
  crcAcc := 0
  crcValid := false
  buf := []
  bufWritten := 0
  aggIndex := 0
  aggCorrected := false
  aggHalfValid := false
  aggHalf := 0
  frameReady := false
  frameLen := 0
  frameCorrected := false
  frameHammingError := false
  frameOverrun := false
  utcReference := 0
  rtcReference := 0

/-- The state after reset of the instance named in log 5. -/
def State.reset : State := State.resetFor Params.ofReset

end Sys2Proof.Machine
end

