-- ==== Sys2Proof/Machine/Flags.lean ====
section
/-! DEFINITION. The one-bit flags (10_state.md R23): how each is read, given that some exist only when `FEC_EN = 1`,
and what each computed flag value is. -/

namespace Sys2Proof.Machine

/-- `agg_corrected` as a rule reads it: 0 when `FEC_EN = 0` (R28; log 13). -/
def readAggCorrected (s : State) : Bool := s.params.fecEn && s.aggCorrected

/-- `frame_corrected`, constant 0 when `FEC_EN = 0` (R33; log 13). -/
def readFrameCorrected (s : State) : Bool := s.params.fecEn && s.frameCorrected

/-- `frame_hamming_error`, constant 0 when `FEC_EN = 0` (R33; log 13). -/
def readFrameHammingError (s : State) : Bool := s.params.fecEn && s.frameHammingError

/-- `frame_overrun` after a hand-off: set when a request was still pending, else kept (R34, R168). -/
def overrunAfterHandoff (s : State) : Bool := s.frameReady || s.frameOverrun

/-- `frame_overrun` after `AGG.TAKE clear_overrun` (R172). -/
def overrunAfterTake (clearOverrun : Bool) (s : State) : Bool := !clearOverrun && s.frameOverrun

/-- The completion test after a store: the stored byte is the terminator, or the buffer is full (R163, R165). -/
def frameComplete (b : Byte) (index : Nat) (p : Params) : Bool := b == 0 || index == p.cap

/-- `crc_valid` as `CRC.UPDATE` and `CRC.FINAL` test it (R89, R90). -/
def readCrcValid (s : State) : Bool := s.crcValid

/-- The bit `TREF.ISSET` returns: `utc_reference` is not the sentinel 0 (45_time_reference.md R193). -/
def timeIsSet (s : State) : Bool := s.utcReference != 0

end Sys2Proof.Machine
end

