-- ==== Sys2Proof/Machine/Operands.lean ====
section
/-! DEFINITION. Operand assembly of the data encodings (30_encoding.md R62, R64, R66): nibbles, code words, the CRC
trailer; and the numeric codes of the statuses. -/

namespace Sys2Proof.Machine

/-- The low nibble `b[3:0]` (R66). -/
def lowNibble (b : Byte) : Nibble := b.extractLsb' 0 4

/-- The high nibble `b[7:4]` (R66). -/
def highNibble (b : Byte) : Nibble := b.extractLsb' 4 4

/-- The nibble join `{hi, lo}` (R66). -/
def joinNibbles (lo hi : Nibble) : Byte := hi ++ lo

/-- `{b3, b2, b1, b0}`. -/
def nibbleOfBits (b3 b2 b1 b0 : Bool) : Nibble :=
  BitVec.ofBool b3 ++ BitVec.ofBool b2 ++ BitVec.ofBool b1 ++ BitVec.ofBool b0

/-- A code word from its parity and data bits, in the layout of R64. -/
def codeWordOfBits (p8 d4 d3 d2 p4 d1 p2 p1 : Bool) : Byte :=
  nibbleOfBits p8 d4 d3 d2 ++ nibbleOfBits p4 d1 p2 p1

/-- The data bits of a code word as a nibble, `{h[6], h[5], h[4], h[2]}` (R66). -/
def codeWordData (h : Byte) : Nibble :=
  nibbleOfBits (h.getLsbD 6) (h.getLsbD 5) (h.getLsbD 4) (h.getLsbD 2)

/-- The CRC trailer, least significant byte first under `little`, the reverse under `big` (20_memory.md R43). -/
def crcTrailer (order : TrailerOrder) (c : Word32) : List Byte :=
  let little := [c.extractLsb' 0 8, c.extractLsb' 8 8, c.extractLsb' 16 8, c.extractLsb' 24 8]
  match order with
  | .little => little
  | .big => little.reverse

/-- The CRC a trailer of `CRC_BYTES` bytes stores (R66); none for any other length. Under `big` the bytes stand in
the reverse order (R43; log 7). -/
def storedCrc (order : TrailerOrder) : List Byte → Option Word32
  | [t0, t1, t2, t3] =>
    match order with
    | .little => some (t3 ++ t2 ++ t1 ++ t0)
    | .big => some (t0 ++ t1 ++ t2 ++ t3)
  | _ => none

/-- The numeric code of a status (60_exceptions.md R200). -/
def Status.code : Status → Nat
  | .ok => 0
  | .decodeError => 1
  | .deserializeError => 2
  | .crcError => 3
  | .hammingError => 4
  | .validationError => 5
  | .badLength => 6

/-- The status a result carries; none for an operation that returns no status (R200, R202). -/
def Result.status? : Result → Option Status
  | .none => Option.none
  | .crc _ => Option.none
  | .okCrc _ => some .ok
  | .okBytes _ => some .ok
  | .okCorrected _ _ => some .ok
  | .failed st => some st
  | .codeWord _ => Option.none
  | .decoded _ => Option.none
  | .latch _ => Option.none
  | .byte _ => Option.none
  | .time _ => Option.none
  | .isSet _ => Option.none

/-- The result of an operation that returns a byte sequence or a status. -/
def bytesResult : Except Status (List Byte) → Result
  | .ok s => .okBytes s
  | .error st => .failed st

/-- The result of an operation that returns a byte sequence and `corrected`, or a status. -/
def correctedResult : Except Status (List Byte × Bool) → Result
  | .ok (s, corrected) => .okCorrected s corrected
  | .error st => .failed st

end Sys2Proof.Machine
end

