-- ==== Sys2Proof/Machine/Ops.lean ====
section
/-! DEFINITION. The named operations over the registers, the command buffer and the request queue that the meanings
are built from, how an operation ends, and the hand-off with its counterpart, the take (the spec's trap entry and return). -/

namespace Sys2Proof.Machine

/-! ## Register updates -/

/-- Return `r` to the agent that issued the operation (20_memory.md R40 (c)). -/
def State.deliver (r : Result) (s : State) : State := { s with result := r }

/-- Write `crc_acc`, which then holds a written value (10_state.md R24, R25). -/
def State.setCrc (acc : Word32) (s : State) : State := { s with crcAcc := acc, crcValid := true }

/-- Write `buf` and its bookkeeping count (R26). -/
def State.setBuf (m : Memory) (written : Nat) (s : State) : State := { s with buf := m, bufWritten := written }

/-- Write `agg_index` (R27). -/
def State.setAggIndex (i : Nat) (s : State) : State := { s with aggIndex := i }

/-- Write `agg_corrected`; skipped when `FEC_EN = 0`, where the register does not exist (R28). -/
def State.setAggCorrected (c : Bool) (s : State) : State :=
  { s with aggCorrected := if s.params.fecEn then c else s.aggCorrected }

/-- Hold the first byte of a pair (R29). -/
def State.holdHalf (b : Byte) (s : State) : State := { s with aggHalf := b, aggHalfValid := true }

/-- Release the held byte: it has been consumed (R29). -/
def State.releaseHalf (s : State) : State := { s with aggHalfValid := false }

/-- Write the hand-off latch (R30 to R34). -/
def State.setLatch (l : Latch) (s : State) : State :=
  { s with
    frameReady := l.ready
    frameLen := l.len
    frameCorrected := l.corrected
    frameHammingError := l.hammingError
    frameOverrun := l.overrun }

/-- Write both reference registers in one step (45_time_reference.md R187). -/
def State.setReference (utc rtc : Word64) (s : State) : State :=
  { s with utcReference := utc, rtcReference := rtc }

/-! ## The command buffer -/

/-- The byte listed at an index; an unlisted index has no value (10_state.md R26). -/
def Memory.read : Memory → Nat → Option Byte
  | [], _ => Memory.unlisted
  | (k, v) :: rest, a => if k = a then some v else Memory.read rest a

/-- Store one byte, keeping the indices strictly rising. -/
def Memory.write : Memory → Nat → Byte → Memory
  | [], a, b => [(a, b)]
  | (k, v) :: rest, a, b =>
    if a < k then (a, b) :: (k, v) :: rest
    else if a = k then (a, b) :: rest
    else (k, v) :: Memory.write rest a b

/-- `MemRead(addr, 1)` (20_memory.md R41). No rule issues it outside the buffer or at a byte nothing has written;
such a read stops (log 11). -/
def memRead (addr : Nat) (s : State) : Except Fault Byte :=
  if s.params.cap ≤ addr then .error (.loadOutOfRange addr)
  else
    match s.buf.read addr with
    | some b => .ok b
    | none => .error (.loadOutOfRange addr)

/-- `MemWrite(addr, 1, v)` (R41). No rule issues it outside the buffer; such a store stops (log 12). -/
def memWrite (addr : Nat) (v : Byte) (s : State) : Except Fault State :=
  if s.params.cap ≤ addr then .error (.storeOutOfRange addr)
  else .ok (s.setBuf (s.buf.write addr v) (max s.bufWritten (addr + 1)))

/-- `MemRead(k, 1)` for `count` consecutive indices from `start`, in order (43_frame_codec.md R149). -/
def memReadRange (s : State) : (start count : Nat) → Except Fault (List Byte)
  | _, 0 => .ok []
  | start, count + 1 =>
    match memRead start s with
    | .error f => .error f
    | .ok b =>
      match memReadRange s (start + 1) count with
      | .error f => .error f
      | .ok rest => .ok (b :: rest)

/-! ## The hand-off and the take -/

/-- The latch as `AGG.TAKE` and `FRAME.CHK` read it (R30 to R34). -/
def readLatch (s : State) : Latch where
  ready := s.frameReady
  len := s.frameLen
  corrected := readFrameCorrected s
  hammingError := readFrameHammingError s
  overrun := s.frameOverrun

/-- `handoff(hamming_error)` (44_frame_aggregator.md R168, 60_exceptions.md R213): the latch takes the frame's length
and flags, the request is raised, and the index and the correction flag start the next frame. `buf` is neither
cleared nor copied. -/
def handoff (hammingError : Bool) (s : State) : State :=
  ((s.setLatch
      { ready := true
        len := s.aggIndex
        corrected := readAggCorrected s
        hammingError := hammingError
        overrun := overrunAfterHandoff s }).setAggIndex 0).setAggCorrected false

/-- The counterpart of the hand-off (R172, R214): the request is cleared, and the overrun bit when asked; the rest of
the latch keeps its values. -/
def takeRequest (clearOverrun : Bool) (s : State) : State :=
  { s with frameReady := false, frameOverrun := overrunAfterTake clearOverrun s }

/-! ## Requests -/

/-- The next operation in the total order and the state without it (00_scope.md R5). -/
def nextRequest (s : State) : Option (Request × State) :=
  match s.requests with
  | [] => none
  | r :: rest => some (r, { s with requests := rest })

/-- Issue a request so that it is the next one performed. -/
def issueNext (r : Request) (s : State) : State := { s with requests := r :: s.requests }

/-! ## The end of an operation -/

/-- What an operation with result `r` returns to `agent`: an entry, or nothing where the operation returns nothing. -/
def returnsOf (agent : Agent) (r : Result) : List Returned :=
  if r = .none then [] else [⟨agent, r⟩]

/-- Note what the operation just performed returned to `agent` (R40 (c); log 4). -/
def State.noteReturn (agent : Agent) (s : State) : State :=
  { s with returned := s.returned ++ returnsOf agent s.result }

/-- Record a fault: the operation returns nothing, and every register and the buffer stay as they were (R203). -/
def State.recordFault (f : Fault) (s : State) : State :=
  { s with result := .none, faults := s.faults ++ [f] }

/-- The fault is one of R204, which a run records and goes on after; the model's own stops are not. -/
def Fault.isRaised : Fault → Bool
  | .illegalOperation _ => true
  | .crcNotInitialised => true
  | .capacityFault _ => true
  | .bufferIndexFault _ => true
  | .unwrittenRead _ => true
  | .timeUnderflow _ _ => true
  | .timeOverflow _ _ => true
  | .loadOutOfRange _ => false
  | .storeOutOfRange _ => false

/-- How an operation of `agent`, begun in `before`, ends: a result is returned, and a fault of R204 is recorded, never
cleared and not final (R203; log 14). -/
def endOperation (agent : Agent) (before : State) :
    Host.Outcome State Fault Refusal → Host.Outcome State Fault Refusal
  | .next t => .next (t.noteReturn agent)
  | .fault f => if f.isRaised then .next (before.recordFault f) else .fault f
  | .refused x => .refused x

/-- The result of a `DISPATCH` that has just ended: the pair of the last two results returned to the client software,
`FRAME.CHK`'s and `AGG.TAKE`'s (30_encoding.md R74); operations of the byte source in between do not matter. -/
def State.dispatchResult (s : State) : Option (Result × Result) :=
  match (s.returned.filter (·.agent == .client)).reverse with
  | take :: check :: _ => some (check.result, take.result)
  | _ => none

end Sys2Proof.Machine
end

