-- ==== Sys2Proof/Machine/Hamming.lean ====
section
/-! DEFINITION. The Hamming(8,4) nibble codec and the FEC expander and compressor (42_hamming.md). -/

namespace Sys2Proof.Machine

/-- `HAM.ENC(v)` (R120): `d1` to `d4` are bits 0 to 3 of the nibble. -/
def hamEnc (v : Nibble) : Byte :=
  let d1 := v.getLsbD 0
  let d2 := v.getLsbD 1
  let d3 := v.getLsbD 2
  let d4 := v.getLsbD 3
  let p1 := d1 ^^ d2 ^^ d4
  let p2 := d1 ^^ d3 ^^ d4
  let p4 := d2 ^^ d3 ^^ d4
  let p8 := p1 ^^ p2 ^^ d1 ^^ p4 ^^ d2 ^^ d3 ^^ d4
  codeWordOfBits p8 d4 d3 d2 p4 d1 p2 p1

/-- The syndrome `i = s1 + 2*s2 + 4*s4` (R122). -/
def hamSyndrome (h : Byte) : Nat :=
  let s1 := h.getLsbD 0 ^^ h.getLsbD 2 ^^ h.getLsbD 4 ^^ h.getLsbD 6
  let s2 := h.getLsbD 1 ^^ h.getLsbD 2 ^^ h.getLsbD 5 ^^ h.getLsbD 6
  let s4 := h.getLsbD 3 ^^ h.getLsbD 4 ^^ h.getLsbD 5 ^^ h.getLsbD 6
  s1.toNat + 2 * s2.toNat + 4 * s4.toNat

/-- The overall parity check over all 8 bits (R122). -/
def hamOdd (h : Byte) : Bool :=
  h.getLsbD 0 ^^ h.getLsbD 1 ^^ h.getLsbD 2 ^^ h.getLsbD 3 ^^ h.getLsbD 4 ^^ h.getLsbD 5 ^^ h.getLsbD 6 ^^ h.getLsbD 7

/-- `HAM.DEC(h)` (R122). -/
def hamDec (h : Byte) : Option HamDecoded :=
  let i := hamSyndrome h
  match hamOdd h, decide (i = 0) with
  | false, true => some ⟨codeWordData h, false⟩
  | true, true => some ⟨codeWordData h, true⟩
  | true, false => some ⟨codeWordData (h ^^^ (1 <<< (i - 1))), true⟩
  | false, false => none

/-- `FEC.EXPAND(s)`: the code word of the low nibble, then that of the high nibble, for each byte (R126). -/
def fecExpand (s : List Byte) : List Byte :=
  s.flatMap fun b => [hamEnc (lowNibble b), hamEnc (highNibble b)]

/-- One turn of the loop of `FEC.COMPRESS`: `lo` and `hi` are the decoded code words of a pair, both decoded before
either is judged, and `rest` is what the later pairs give (R128). -/
def joinPair (lo hi : Option HamDecoded) (rest : Except Status (List Byte × Bool)) : Except Status (List Byte × Bool) :=
  match lo, hi with
  | some lo, some hi =>
    match rest with
    | .ok (s, corrected) => .ok (joinNibbles lo.v hi.v :: s, lo.corrected || hi.corrected || corrected)
    | .error st => .error st
  | _, _ => .error .hammingError

/-- The loop of `FEC.COMPRESS` over the pairs of `w`: an undecodable pair fails the whole (R128). -/
def fecCompressPairs : List Byte → Except Status (List Byte × Bool)
  | w0 :: w1 :: rest => joinPair (hamDec w0) (hamDec w1) (fecCompressPairs rest)
  | _ => .ok ([], false)

/-- `FEC.COMPRESS(w)` (R128): an odd length is tested first. -/
def fecCompress (w : List Byte) : Except Status (List Byte × Bool) :=
  if w.length % 2 = 1 then .error .badLength else fecCompressPairs w

/-- `HAM.ENC v` (R120). -/
def execHamEnc (v : Nibble) (s : State) : Host.Outcome State Fault Refusal :=
  .next (s.deliver (.codeWord (hamEnc v)))

/-- `HAM.DEC h` (R122). -/
def execHamDec (h : Byte) (s : State) : Host.Outcome State Fault Refusal :=
  .next (s.deliver (.decoded (hamDec h)))

/-- `FEC.EXPAND m` (R126). -/
def execFecExpand (m : List Byte) (s : State) : Host.Outcome State Fault Refusal :=
  .next (s.deliver (.okBytes (fecExpand m)))

/-- `FEC.COMPRESS w` (R128). -/
def execFecCompress (w : List Byte) (s : State) : Host.Outcome State Fault Refusal :=
  .next (s.deliver (correctedResult (fecCompress w)))

end Sys2Proof.Machine
end

