-- ==== Sys2Proof/Machine/Aggregator.lean ====
section
/-! DEFINITION. The serial frame aggregator (44_frame_aggregator.md). -/

namespace Sys2Proof.Machine

/-- Store a decoded byte at the current index, advance, and hand the frame off when it is complete (R163, R165). -/
def storeAndAdvance (b : Byte) (s : State) : Except Fault State :=
  match memWrite s.aggIndex b s with
  | .error f => .error f
  | .ok stored =>
    let advanced := stored.setAggIndex (s.aggIndex + 1)
    .ok (if frameComplete b advanced.aggIndex advanced.params then handoff false advanced else advanced)

/-- The second byte of a pair (R165): both code words are decoded, and an undecodable one hands the partial frame off
with nothing stored (R166). -/
def pushSecond (b : Byte) (s : State) : Except Fault State :=
  match hamDec s.aggHalf, hamDec b with
  | some lo, some hi =>
    storeAndAdvance (joinNibbles lo.v hi.v)
      (s.releaseHalf.setAggCorrected (readAggCorrected s || lo.corrected || hi.corrected))
  | _, _ => .ok (handoff true s.releaseHalf)

/-- The body of `AGG.PUSH`: R163 when `FEC_EN = 0`, R165 when `FEC_EN = 1`. -/
def pushByte (b : Byte) (s : State) : Except Fault State :=
  if s.params.fecEn then
    if s.aggHalfValid then pushSecond b s else .ok (s.holdHalf b)
  else storeAndAdvance b s

/-- The byte an `AGG.PUSH b` stores, with the index it goes to; none when it stores nothing, that is for the first byte
of a pair and for an undecodable pair (R163, R165, R166). -/
def pushStores (b : Byte) (s : State) : Option (Nat × Byte) :=
  if s.params.fecEn then
    if s.aggHalfValid then
      match hamDec s.aggHalf, hamDec b with
      | some lo, some hi => some (s.aggIndex, joinNibbles lo.v hi.v)
      | _, _ => none
    else none
  else some (s.aggIndex, b)

/-- `AGG.PUSH b` (R161). -/
def execAggPush (b : Byte) (s : State) : Host.Outcome State Fault Refusal :=
  match pushByte b s with
  | .error f => .fault f
  | .ok t => .next (t.deliver .none)

/-- `AGG.TAKE clear_overrun` (R172): the result holds the values from before the writes. -/
def execAggTake (clearOverrun : Bool) (s : State) : Host.Outcome State Fault Refusal :=
  .next ((takeRequest clearOverrun s).deliver (.latch (readLatch s)))

/-- `AGG.RDBUF idx` (R175). -/
def execAggRdbuf (idx : Nat) (s : State) : Host.Outcome State Fault Refusal :=
  if s.params.cap ≤ idx then .fault (.bufferIndexFault idx)
  else if s.bufWritten ≤ idx then .fault (.unwrittenRead idx)
  else
    match memRead idx s with
    | .error f => .fault f
    | .ok b => .next (s.deliver (.byte b))

end Sys2Proof.Machine
end

