-- ==== Sys2Proof/Machine/Cobs.lean ====
section
/-! DEFINITION. The COBS framer and deframer (41_cobs.md). -/

namespace Sys2Proof.Machine

/-- The longest run of data bytes in one block (R103). -/
def cobsBlockMax : Nat := 254

/-- A closed block: its code byte, then its data bytes (30_encoding.md R63). -/
def cobsBlock (block : List Byte) : List Byte :=
  BitVec.ofNat 8 (block.length + 1) :: block

/-- The loop of `cobs_encode` from the point where `block` has been collected and a code byte is owed when `isOpen`;
it gives what the loop and the lines after it append to `out` (R103). -/
def cobsEncodeFrom : (p block : List Byte) → (isOpen : Bool) → List Byte
  | [], block, isOpen => (if isOpen then cobsBlock block else []) ++ [0x00]
  | b :: rest, block, isOpen =>
    if b = 0x00 then cobsBlock block ++ cobsEncodeFrom rest [] true
    else if (block ++ [b]).length = cobsBlockMax then
      cobsBlock (block ++ [b]) ++ cobsEncodeFrom rest [] (!rest.isEmpty)
    else cobsEncodeFrom rest (block ++ [b]) isOpen

/-- `cobs_encode(p)` (R103). -/
def cobsEncode (p : List Byte) : List Byte := cobsEncodeFrom p [] true

/-- The loop of `cobs_decode` over the body, the bytes before the terminator (R106). Each turn consumes at least the
code byte, so the body's length is enough `fuel`. -/
def cobsDecodeBlocks : (fuel : Nat) → (body : List Byte) → Except Status (List Byte)
  | _, [] => .ok []
  | 0, _ :: _ => .error .decodeError
  | fuel + 1, c :: rest =>
    let n := c.toNat - 1
    if rest.length < n then .error .decodeError
    else
      match cobsDecodeBlocks fuel (rest.drop n) with
      | .error st => .error st
      | .ok out => .ok (rest.take n ++ (if c ≠ 0xFF ∧ rest.drop n ≠ [] then [0x00] else []) ++ out)

/-- `cobs_decode(e)` (R106): the exits (a) no terminator, (b) bytes after it, (c) an empty body, and (d) in the loop. -/
def cobsDecode (e : List Byte) : Except Status (List Byte) :=
  let body := e.takeWhile (· ≠ 0x00)
  match e.dropWhile (· ≠ 0x00) with
  | [] => .error .decodeError
  | _ :: _ :: _ => .error .decodeError
  | [_] => if body = [] then .error .decodeError else cobsDecodeBlocks body.length body

/-- `COBS.ENC p` (R102). -/
def execCobsEnc (p : List Byte) (s : State) : Host.Outcome State Fault Refusal :=
  .next (s.deliver (.okBytes (cobsEncode p)))

/-- `COBS.DEC e` (R105). -/
def execCobsDec (e : List Byte) (s : State) : Host.Outcome State Fault Refusal :=
  .next (s.deliver (bytesResult (cobsDecode e)))

end Sys2Proof.Machine
end

