-- ==== Sys2Proof/Machine/Crc.lean ====
section
/-! DEFINITION. The CRC32 generator (40_crc32.md). -/

namespace Sys2Proof.Machine

/-- One of the eight steps of `crc_step`: shift left, and divide when bit 31 was set (R88). -/
def crcBit (poly acc : Word32) : Word32 :=
  if acc.getLsbD 31 then (acc <<< 1) ^^^ poly else acc <<< 1

/-- `crc_step(acc, b)`: advance the register by one byte, most significant bit first (R88). -/
def crcStep (poly acc : Word32) (b : Byte) : Word32 :=
  (crcBit poly)^[8] (acc ^^^ (b.setWidth 32 <<< 24))

/-- The register after the bytes of `s`, from the value `acc` (R86). -/
def crcFold (p : Params) (acc : Word32) (s : List Byte) : Word32 :=
  s.foldl (crcStep p.crcPoly) acc

/-- `CRC32(s)` (R86). -/
def crc32 (p : Params) (s : List Byte) : Word32 :=
  crcFold p p.crcInit s ^^^ p.crcXorout

/-- `CRC.INIT` (R87). -/
def execCrcInit (s : State) : Host.Outcome State Fault Refusal :=
  .next ((s.setCrc s.params.crcInit).deliver .none)

/-- `CRC.UPDATE b` (R89). -/
def execCrcUpdate (b : Byte) (s : State) : Host.Outcome State Fault Refusal :=
  if readCrcValid s then .next ((s.setCrc (crcStep s.params.crcPoly s.crcAcc b)).deliver .none)
  else .fault .crcNotInitialised

/-- `CRC.FINAL` (R90). -/
def execCrcFinal (s : State) : Host.Outcome State Fault Refusal :=
  if readCrcValid s then .next (s.deliver (.crc (s.crcAcc ^^^ s.params.crcXorout)))
  else .fault .crcNotInitialised

/-- `CRC.BLOCK m` (R91). -/
def execCrcBlock (m : List Byte) (s : State) : Host.Outcome State Fault Refusal :=
  .next (s.deliver (.okCrc (crc32 s.params m)))

end Sys2Proof.Machine
end

