-- ==== Sys2Proof/Machine/Frame.lean ====
section
/-! DEFINITION. The frame codec, the composition of CRC32, COBS and FEC (43_frame_codec.md). -/

namespace Sys2Proof.Machine

/-- The plain bytes of a payload: the payload, then its CRC trailer (R141). -/
def framePlain (p : Params) (payload : List Byte) : List Byte :=
  payload ++ crcTrailer p.trailerOrder (crc32 p payload)

/-- The wire bytes of a payload (R141). -/
def frameEncode (p : Params) (payload : List Byte) : List Byte :=
  let e := cobsEncode (framePlain p payload)
  if p.fecEn then fecExpand e else e

/-- `frame_check(e)` (R146): the payload is all plain bytes but the last four, and too few for a trailer is a CRC error. -/
def frameCheck (p : Params) (e : List Byte) : Except Status (List Byte) :=
  match cobsDecode e with
  | .error st => .error st
  | .ok plain =>
    let n := plain.length
    if n < crcBytes then .error .crcError
    else
      let payload := plain.take (n - crcBytes)
      if storedCrc p.trailerOrder (plain.drop (n - crcBytes)) = some (crc32 p payload) then .ok payload
      else .error .crcError

/-- The result of `frame_check` with the correction bit beside it. -/
def withCorrected (corrected : Bool) : Except Status (List Byte) → Except Status (List Byte × Bool)
  | .ok payload => .ok (payload, corrected)
  | .error st => .error st

/-- `FRAME.DEC(w)` (R145): Hamming, COBS, CRC, and the first stage that fails names the status (R147). -/
def frameDecode (p : Params) (w : List Byte) : Except Status (List Byte × Bool) :=
  if p.fecEn then
    match fecCompress w with
    | .error st => .error st
    | .ok (e, corrected) => withCorrected corrected (frameCheck p e)
  else withCorrected false (frameCheck p w)

/-- `FRAME.ENC p` (R141, R143). -/
def execFrameEnc (payload : List Byte) (s : State) : Host.Outcome State Fault Refusal :=
  if s.params.payloadMax < payload.length then .fault (.capacityFault payload.length)
  else .next (s.deliver (.okBytes (frameEncode s.params payload)))

/-- `FRAME.DEC w` (R145). -/
def execFrameDec (w : List Byte) (s : State) : Host.Outcome State Fault Refusal :=
  .next (s.deliver (correctedResult (frameDecode s.params w)))

/-- `FRAME.CHK` (R149): it does not test `frame_ready`, and after a Hamming failure it reads no byte. -/
def execFrameChk (s : State) : Host.Outcome State Fault Refusal :=
  if readFrameHammingError s then .next (s.deliver (.failed .hammingError))
  else
    match memReadRange s 0 s.frameLen with
    | .error f => .fault f
    | .ok e => .next (s.deliver (correctedResult (withCorrected (readFrameCorrected s) (frameCheck s.params e))))

end Sys2Proof.Machine
end

