-- ==== Sys2Proof/Machine/TimeRef.lean ====
section
/-! DEFINITION. The time-reference mapper (45_time_reference.md). -/

namespace Sys2Proof.Machine

/-- Whole seconds between two tick counts, rounded toward zero (R189). -/
def elapsedSeconds (rtcNow rtcReference : Word64) : Nat :=
  (rtcNow.toNat - rtcReference.toNat) / ticksPerSecond

/-- `TREF.REBASE t, rtc_now` (R187). -/
def execTrefRebase (t rtcNow : Word64) (s : State) : Host.Outcome State Fault Refusal :=
  .next ((s.setReference t rtcNow).deliver .none)

/-- `TREF.GET rtc_now` (R189): underflow is tested before overflow (60_exceptions.md R205). -/
def execTrefGet (rtcNow : Word64) (s : State) : Host.Outcome State Fault Refusal :=
  let q := elapsedSeconds rtcNow s.rtcReference
  let sum := s.utcReference.toNat + q
  if rtcNow < s.rtcReference then .fault (.timeUnderflow rtcNow s.rtcReference)
  else if 2 ^ 64 ≤ sum then .fault (.timeOverflow s.utcReference q)
  else .next (s.deliver (.time (BitVec.ofNat 64 sum)))

/-- `TREF.ISSET` (R193). -/
def execTrefIsset (s : State) : Host.Outcome State Fault Refusal :=
  .next (s.deliver (.isSet (timeIsSet s)))

end Sys2Proof.Machine
end

