-- ==== Sys2Proof/Machine/Dispatch.lean ====
section
/-! DEFINITION. `exec`: one arm per operation of the code map (30_encoding.md R70). -/

namespace Sys2Proof.Machine

def exec (i : Instr) (s : State) : Host.Outcome State Fault Refusal :=
  match i with
  -- CRC32 generator
  | .crcInit => Sys2Proof.Machine.execCrcInit s
  | .crcUpdate b => Sys2Proof.Machine.execCrcUpdate b s
  | .crcFinal => Sys2Proof.Machine.execCrcFinal s
  | .crcBlock m => Sys2Proof.Machine.execCrcBlock m s
  -- COBS framer and deframer
  | .cobsEnc p => Sys2Proof.Machine.execCobsEnc p s
  | .cobsDec e => Sys2Proof.Machine.execCobsDec e s
  -- Hamming codec
  | .hamEnc v => Sys2Proof.Machine.execHamEnc v s
  | .hamDec h => Sys2Proof.Machine.execHamDec h s
  | .fecExpand m => Sys2Proof.Machine.execFecExpand m s
  | .fecCompress w => Sys2Proof.Machine.execFecCompress w s
  -- frame codec
  | .frameEnc p => Sys2Proof.Machine.execFrameEnc p s
  | .frameDec w => Sys2Proof.Machine.execFrameDec w s
  | .frameChk => Sys2Proof.Machine.execFrameChk s
  -- frame aggregator
  | .aggPush b => Sys2Proof.Machine.execAggPush b s
  | .aggTake c => Sys2Proof.Machine.execAggTake c s
  | .aggRdbuf idx => Sys2Proof.Machine.execAggRdbuf idx s
  -- time reference
  | .trefRebase t rtcNow => Sys2Proof.Machine.execTrefRebase t rtcNow s
  | .trefGet rtcNow => Sys2Proof.Machine.execTrefGet rtcNow s
  | .trefIsset => Sys2Proof.Machine.execTrefIsset s

end Sys2Proof.Machine
end

