-- ==== Sys2Proof/Machine/Step.lean ====
section
/-! DEFINITION. One step of the block: the next issued operation, performed whole (00_scope.md R5). -/

namespace Sys2Proof.Machine

/-- One step. The next request in the total order is decoded and performed (R5, 30_encoding.md R71), and ends with a
result returned or a fault recorded (60_exceptions.md R203); with no request the block does nothing (R222; log 3). -/
def step (s : State) : Host.Outcome State Fault Refusal :=
  match nextRequest s with
  | none => .next s
  | some (r, taken) =>
    endOperation r.agent taken
      (match decode r with
      | .illegal op => .fault (.illegalOperation op)
      | .operation i => exec i taken)

/-- `s` with the operation of a table word issued as the next one, its operand inputs at 0 or empty (log 15). -/
def State.withFetchWord (s : State) (_nbits w : Nat) : State := issueNext (requestOfWord w) s

end Sys2Proof.Machine
end

