-- ==== Sys2Proof/WellFormed.lean ====
section
/-! DEFINITION. Well-formedness of operations and requests. The block does not rely on it: an operation that breaks
its caller contract is answered by the fault the spec names, and a request is decoded whatever its unused inputs hold. -/

namespace Sys2Proof

/-- The operand ranges the spec states: a payload fits `PAYLOAD_MAX` (43_frame_codec.md R141) and a buffer index
lies in the command buffer (20_memory.md R41). Every other operand is legal at every value of its type. -/
def Instr.wf (p : Params) : Instr → Bool
  | .crcInit => true
  | .crcUpdate _ => true
  | .crcFinal => true
  | .crcBlock _ => true
  | .cobsEnc _ => true
  | .cobsDec _ => true
  | .hamEnc _ => true
  | .hamDec _ => true
  | .fecExpand _ => true
  | .fecCompress _ => true
  | .frameEnc s => decide (s.length ≤ p.payloadMax)
  | .frameDec _ => true
  | .frameChk => true
  | .aggPush _ => true
  | .aggTake _ => true
  | .aggRdbuf idx => decide (idx < p.cap)
  | .trefRebase _ _ => true
  | .trefGet _ => true
  | .trefIsset => true

/-- The request names one of the nineteen codes (30_encoding.md R70, R71). -/
def Request.legalCode (r : Request) : Bool :=
  (formatOf r.op).isSome

/-- The inputs that the code's format does not name are at rest (R69). -/
def Request.unusedAtRest (r : Request) : Bool :=
  (formatOf r.op).all fun f => decide (r.inputs.restrict f = r.inputs)

/-- The issuing convention of 00_scope.md R4: `AGG.PUSH` from the byte source and from no other agent, everything
else from the client software. The block does not check it (60_exceptions.md R216). -/
def Request.byConvention (r : Request) : Bool :=
  decide (r.agent = conventionalAgent r.op)

/-- A request in canonical form: a legal code with its unused inputs at rest. -/
def Request.wf (r : Request) : Bool :=
  r.legalCode && r.unusedAtRest

end Sys2Proof
end

