-- ==== Sys2Proof/Safety.lean ====
section
/-! DEFINITION. What claims about the block are stated with: the outcome of a step as data, the invariant of reachable
states, the premises on agents and on the tick counter, and the errors a line can make. -/

namespace Sys2Proof.Machine

/-- The next state of an outcome, if it is one. -/
def nextState? : Host.Outcome State Fault Refusal → Option State
  | .next t => some t
  | .fault _ => none
  | .refused _ => none

/-- The fault of an outcome, if it is one. -/
def faultOf? : Host.Outcome State Fault Refusal → Option Fault
  | .next _ => none
  | .fault f => some f
  | .refused _ => none

/-- `k` steps of the block (Host/Core.lean). -/
abbrev runSteps (k : Nat) (s : State) : Host.Outcome State Fault Refusal :=
  Host.Core.run Sys2Proof.core k s

/-- The invariant of the aggregator's registers between operations (10_state.md R26 to R34, 44_frame_aggregator.md R164).
Each field holds after reset and every step keeps it. -/
structure State.Inv (s : State) : Prop where
  /-- The buffer keeps its canonical form. -/
  bufWf : s.buf.wf
  /-- Exactly the first `buf_written` bytes have been written (R26). -/
  writtenPrefix : ∀ a, (s.buf.read a).isSome = true ↔ a < s.bufWritten
  /-- `buf_written` lies in 0..CAP (R20). -/
  writtenLeCap : s.bufWritten ≤ s.params.cap
  /-- `agg_index` lies in 0..CAP-1 (R27). -/
  indexLtCap : s.aggIndex < s.params.cap
  /-- The bytes of the frame being received have been written (R164). -/
  indexLeWritten : s.aggIndex ≤ s.bufWritten
  /-- `frame_len <= buf_written` (R164). -/
  lenLeWritten : s.frameLen ≤ s.bufWritten
  /-- A pending frame of length 0 was ended by a Hamming failure (R32). -/
  emptyFrameFailed : s.frameReady = true → s.frameLen = 0 → s.frameHammingError = true
  /-- The FEC-only registers keep their reset values when `FEC_EN = 0` (R28, R29, R33). -/
  fecOnly : s.params.fecEn = false →
    s.aggCorrected = false ∧ s.aggHalfValid = false ∧ s.frameCorrected = false ∧ s.frameHammingError = false

/-- An idle aggregator: at the start of a frame and of a pair (44_frame_aggregator.md R178). -/
def State.Idle (s : State) : Prop :=
  s.aggIndex = 0 ∧ s.aggHalfValid = false ∧ s.aggCorrected = false

end Sys2Proof.Machine

namespace Sys2Proof

/-- The operations that write no register and no buffer byte (20_memory.md R50). -/
def Instr.writesNothing : Instr → Bool
  | .crcInit => false
  | .crcUpdate _ => false
  | .crcFinal => true
  | .crcBlock _ => true
  | .cobsEnc _ => true
  | .cobsDec _ => true
  | .hamEnc _ => true
  | .hamDec _ => true
  | .fecExpand _ => true
  | .fecCompress _ => true
  | .frameEnc _ => true
  | .frameDec _ => true
  | .frameChk => true
  | .aggPush _ => false
  | .aggTake _ => false
  | .aggRdbuf _ => true
  | .trefRebase _ _ => false
  | .trefGet _ => true
  | .trefIsset => true

/-- The operations without state: pure functions of their operands and the parameters (20_memory.md R50). -/
def Instr.stateless : Instr → Bool
  | .crcInit => false
  | .crcUpdate _ => false
  | .crcFinal => false
  | .crcBlock _ => true
  | .cobsEnc _ => true
  | .cobsDec _ => true
  | .hamEnc _ => true
  | .hamDec _ => true
  | .fecExpand _ => true
  | .fecCompress _ => true
  | .frameEnc _ => true
  | .frameDec _ => true
  | .frameChk => false
  | .aggPush _ => false
  | .aggTake _ => false
  | .aggRdbuf _ => false
  | .trefRebase _ _ => false
  | .trefGet _ => false
  | .trefIsset => false

/-- The request's code is one of the three that read or write `crc_acc` (10_state.md R24). -/
def Request.touchesCrc (r : Request) : Bool :=
  r.op == 0x10 || r.op == 0x11 || r.op == 0x12

/-- The tick count an operation carries, if it carries one (10_state.md R37). -/
def Instr.tick? : Instr → Option Word64
  | .crcInit => none
  | .crcUpdate _ => none
  | .crcFinal => none
  | .crcBlock _ => none
  | .cobsEnc _ => none
  | .cobsDec _ => none
  | .hamEnc _ => none
  | .hamDec _ => none
  | .fecExpand _ => none
  | .fecCompress _ => none
  | .frameEnc _ => none
  | .frameDec _ => none
  | .frameChk => none
  | .aggPush _ => none
  | .aggTake _ => none
  | .aggRdbuf _ => none
  | .trefRebase _ rtcNow => some rtcNow
  | .trefGet rtcNow => some rtcNow
  | .trefIsset => none

end Sys2Proof

namespace Sys2Proof.Machine

/-- `AGG.PUSH b` completes a frame: the byte it stores is the terminator or fills the buffer, or it is the second of an
undecodable pair (44_frame_aggregator.md R163, R165). -/
def pushHandsOff (b : Byte) (s : State) : Bool :=
  match pushStores b s with
  | some (i, v) => frameComplete v (i + 1) s.params
  | none => s.params.fecEn && s.aggHalfValid

/-- The two states hold the same hand-off latch (10_state.md R30). -/
def sameLatch (s t : State) : Prop :=
  t.frameReady = s.frameReady ∧ t.frameLen = s.frameLen ∧ t.frameCorrected = s.frameCorrected ∧
    t.frameHammingError = s.frameHammingError ∧ t.frameOverrun = s.frameOverrun

/-- The plain bytes that a sequence of COBS blocks, given by their data bytes, stands for: a zero follows the data of
every block but a full one and the last (30_encoding.md R63). -/
def cobsMeaning : List (List Byte) → List Byte
  | [] => []
  | [d] => d
  | d :: rest => d ++ (if d.length = cobsBlockMax then [] else [0x00]) ++ cobsMeaning rest

/-- The tick counts the pending operations carry, in order. -/
def pendingTicks (q : List Request) : List Nat :=
  q.filterMap fun r =>
    match decode r with
    | .operation i => i.tick?.map (·.toNat)
    | .illegal _ => none

/-- The named premise of R37: along the pending operations the tick counter never goes back, and it has not gone back
since the last rebase. It is a premise of claims, not a property of the machine (92_eei_decisions.md D17; log 17). -/
def State.TicksMonotonic (s : State) : Prop :=
  (s.rtcReference.toNat :: pendingTicks s.requests).Pairwise (· ≤ ·)

/-- `w` differs from `v` in at most one bit per byte, and has the same length (42_hamming.md R129). -/
def oneFlipPerByte (v w : List Byte) : Prop :=
  List.Forall₂ (fun a b => a = b ∨ ∃ k < 8, b = a ^^^ (1#8 <<< k)) v w

/-- Flip bit `k` of the byte at index `j`. -/
def flipBit (s : List Byte) (j k : Nat) : List Byte :=
  s.modify j (· ^^^ (1#8 <<< k))

end Sys2Proof.Machine
end

