-- ==== Sys2Proof/Certificates/Slice0/Obligations.lean ====
section
/-! DEFINITION. The statements about the block, in the order of the spec's files. Each docstring names the rule of spec/
it formalises. Statements quantify over the build parameters, which a state holds in `params`. -/

open Sys2Proof Sys2Proof.Machine

/-! ## Encoding and the step -/

/-- R69, R70: the request that encodes an operation decodes to it, from either agent; and a request that decodes to an
operation is the operation's encoding once the inputs its format does not name are at rest. -/
def Obligations.DecodeAgreesWithEncode : Prop :=
  (∀ agent i, decode (encode agent i) = .operation i) ∧
  ∀ r i, decode r = .operation i →
    ∃ f, formatOf r.op = some f ∧ encode r.agent i = { r with inputs := r.inputs.restrict f }

/-- R71: a code outside the table, 237 of the 256, is reserved; issuing it faults by name and changes no register (the
fault is recorded, log 14); the decoder is total. -/
def Obligations.ReservedCodesFault : Prop :=
  (∀ r : Request, formatOf r.op = none ↔ ∀ row ∈ opTable, row.code ≠ r.op) ∧
  (∀ r : Request, formatOf r.op = none ↔ decode r = .illegal r.op) ∧
  (∀ r : Request, (∃ f, formatOf r.op = some f) ↔ ∃ i, decode r = .operation i) ∧
  (∀ s r rest, s.requests = r :: rest → formatOf r.op = none →
    step s = .next { s with requests := rest, result := .none, faults := s.faults ++ [.illegalOperation r.op] }) ∧
  ((List.range 256).filter fun w => (formatOf (BitVec.ofNat 8 w)).isNone).length = 237

/-- R70: words of the code map, one of each family, decode to the operation they stand for. -/
def Obligations.CodeMapWordsDecode : Prop :=
  decodeTableWord 8 0b00010000 = some .crcInit ∧
  decodeTableWord 8 0b00010011 = some (.crcBlock []) ∧
  decodeTableWord 8 0b00100001 = some (.cobsDec []) ∧
  decodeTableWord 8 0b00110011 = some (.fecCompress []) ∧
  decodeTableWord 8 0b01000010 = some .frameChk ∧
  decodeTableWord 8 0b01010001 = some (.aggTake false) ∧
  decodeTableWord 8 0b01100001 = some (.trefGet 0) ∧
  decodeTableWord 8 0b01100011 = none

/-- R5, R203, R222: a step performs the next request of the total order whole, on the state without it: what exec
answers, with the result noted for the agent (log 4); a fault of R204 is recorded on the state from before the operation,
and the run goes on (log 14); a stop of the model's own ends it (logs 11 and 12); with no request nothing changes (log 3). -/
def Obligations.StepPerformsNextRequest : Prop :=
  (∀ s, s.requests = [] → step s = .next s) ∧
  (∀ s r rest i t, s.requests = r :: rest → decode r = .operation i → exec i { s with requests := rest } = .next t →
    step s = .next { t with returned := t.returned ++ if t.result = .none then [] else [⟨r.agent, t.result⟩] }) ∧
  ∀ s r rest i f, s.requests = r :: rest → decode r = .operation i → exec i { s with requests := rest } = .fault f →
    (f.isRaised = true → step s = .next { s with requests := rest, result := .none, faults := s.faults ++ [f] }) ∧
    (f.isRaised = false → step s = .fault f)

/-- R74: the three pseudo-operations as requests, and what each returns: nothing; the result of its `CRC.FINAL`; the pair
of the results of `FRAME.CHK` and `AGG.TAKE`, also when the byte source pushes between the two (R55, R173). -/
def Obligations.PseudoOperationsReturnTheirResults : Prop :=
  (∀ m, pushSeq m = m.map fun b => ⟨.byteSource, 0x50, { byte := b }⟩) ∧
  (∀ m, crcStream m = ⟨.client, 0x10, {}⟩ :: (m.map fun b => ⟨.client, 0x11, { byte := b }⟩) ++ [⟨.client, 0x12, {}⟩]) ∧
  dispatch = [⟨.client, 0x42, {}⟩, ⟨.client, 0x51, {}⟩] ∧
  (∀ (s : State) m rest, s.Inv → s.requests = pushSeq m ++ rest →
    ∃ t, runSteps m.length s = .next t ∧ t.requests = rest ∧ t.returned = s.returned ∧ t.faults = s.faults) ∧
  (∀ s m rest, s.requests = crcStream m ++ rest →
    ∃ u t c, runSteps (m.length + 1) s = .next u ∧ exec .crcFinal u = .next { u with result := .crc c } ∧
      runSteps (m.length + 2) s = .next t ∧ t.requests = rest ∧ t.faults = s.faults ∧
      t.returned = s.returned ++ [⟨.client, .crc c⟩]) ∧
  (∀ (s : State) rest, s.Inv → s.requests = dispatch ++ rest →
    ∃ t r l, runSteps 2 s = .next t ∧ t.requests = rest ∧ t.faults = s.faults ∧
      exec .frameChk s = .next { s with result := r } ∧
      exec (.aggTake false) s = .next { s with frameReady := false, result := .latch l } ∧
      t.dispatchResult = some (r, .latch l)) ∧
  ∀ (s : State) m rest, s.Inv →
    s.requests = encode .client .frameChk :: pushSeq m ++ encode .client (.aggTake false) :: rest →
    ∃ u t r l, runSteps (m.length + 1) s = .next u ∧ runSteps (m.length + 2) s = .next t ∧ t.requests = rest ∧
      exec .frameChk s = .next { s with result := r } ∧
      exec (.aggTake false) u = .next { u with frameReady := false, result := .latch l } ∧
      t.dispatchResult = some (r, .latch l)

/-! ## State and reset -/

/-- R225: what reset leaves in every register the spec gives a value, for a block built with any parameters; the
unspecified bytes and `crc_acc` fault when read; the reset machine is one of these. -/
def Obligations.ResetValues : Prop :=
  (∀ p, let s := State.resetFor p
    s.params = p ∧ s.utcReference = 0 ∧ s.rtcReference = 0 ∧ s.aggIndex = 0 ∧ s.aggCorrected = false ∧
    s.aggHalfValid = false ∧ s.bufWritten = 0 ∧ s.frameReady = false ∧ s.frameLen = 0 ∧ s.frameCorrected = false ∧
    s.frameHammingError = false ∧ s.frameOverrun = false ∧ s.crcValid = false ∧
    (∀ idx, idx < p.cap → exec (.aggRdbuf idx) s = .fault (.unwrittenRead idx)) ∧
    exec .crcFinal s = .fault .crcNotInitialised ∧
    exec .trefIsset s = .next { s with result := .isSet false } ∧
    exec .frameChk s = .next { s with result := .failed .decodeError }) ∧
  State.reset = State.resetFor State.reset.params

/-- R20, R26 to R34, R164: the invariant of the aggregator holds after reset. -/
def Obligations.InvHoldsAtReset : Prop :=
  (∀ p, (State.resetFor p).Inv) ∧ State.reset.Inv

/-- R26, R27, R28, R32, R164, R169: every step keeps the invariant of the aggregator: the buffer's canonical form and its
written prefix, the ranges of `agg_index`, `frame_len` and `buf_written`, and the FEC-only registers. -/
def Obligations.StepKeepsInv : Prop :=
  ∀ s t : State, s.Inv → step s = .next t → t.Inv

/-- R21, R24, R35, R38, R26: which operation may change which register, over all operations; the parameters, the
requests still pending, the results returned before and the faults recorded before are changed by none, and `FEC_EN` by no
step. -/
def Obligations.RegistersHaveOnlyTheirWriters : Prop :=
  (∀ i s t, exec i s = .next t →
    t.params = s.params ∧ t.requests = s.requests ∧ t.returned = s.returned ∧ t.faults = s.faults ∧
    ((t.crcAcc ≠ s.crcAcc ∨ t.crcValid ≠ s.crcValid) → i = .crcInit ∨ ∃ b, i = .crcUpdate b) ∧
    (s.crcValid = true → t.crcValid = true) ∧
    ((t.utcReference ≠ s.utcReference ∨ t.rtcReference ≠ s.rtcReference) → ∃ u n, i = .trefRebase u n) ∧
    ((t.buf ≠ s.buf ∨ t.bufWritten ≠ s.bufWritten ∨ t.aggIndex ≠ s.aggIndex ∨ t.aggCorrected ≠ s.aggCorrected ∨
        t.aggHalfValid ≠ s.aggHalfValid ∨ t.aggHalf ≠ s.aggHalf ∨ t.frameLen ≠ s.frameLen ∨
        t.frameCorrected ≠ s.frameCorrected ∨ t.frameHammingError ≠ s.frameHammingError) → ∃ b, i = .aggPush b) ∧
    ((t.frameReady ≠ s.frameReady ∨ t.frameOverrun ≠ s.frameOverrun) →
      (∃ b, i = .aggPush b) ∨ ∃ c, i = .aggTake c) ∧
    s.bufWritten ≤ t.bufWritten) ∧
  ∀ s t, step s = .next t → t.params = s.params

/-- R31, R34: the request is raised by a hand-off and cleared by `AGG.TAKE`; the overrun bit is set by a hand-off while
a request is pending and cleared by `AGG.TAKE` with `clear_overrun = 1`; both are 0 after reset. -/
def Obligations.RequestAndOverrunFlags : Prop :=
  (∀ i s t, exec i s = .next t →
    (∀ b, i = .aggPush b →
      t.frameReady = (s.frameReady || pushHandsOff b s) ∧
      t.frameOverrun = (s.frameOverrun || (s.frameReady && pushHandsOff b s))) ∧
    (∀ c, i = .aggTake c → t.frameReady = false ∧ t.frameOverrun = if c then false else s.frameOverrun) ∧
    ((∀ b, i ≠ .aggPush b) → (∀ c, i ≠ .aggTake c) →
      t.frameReady = s.frameReady ∧ t.frameOverrun = s.frameOverrun)) ∧
  ∀ p, (State.resetFor p).frameReady = false ∧ (State.resetFor p).frameOverrun = false

/-- R28, R29, R236: with `FEC_EN = 1` every push toggles `agg_half_valid` and nothing else changes it, the first byte of a
pair goes to `agg_half`; with `FEC_EN = 0` no operation changes the FEC-only registers. -/
def Obligations.PairPhaseTogglesOnPushOnly : Prop :=
  ∀ i s t, exec i s = .next t →
    (s.params.fecEn = true →
      (∀ b, i = .aggPush b → t.aggHalfValid = !s.aggHalfValid ∧
        t.aggHalf = if s.aggHalfValid then s.aggHalf else b) ∧
      ((∀ b, i ≠ .aggPush b) → t.aggHalfValid = s.aggHalfValid ∧ t.aggHalf = s.aggHalf)) ∧
    (s.params.fecEn = false →
      t.aggHalfValid = s.aggHalfValid ∧ t.aggHalf = s.aggHalf ∧ t.aggCorrected = s.aggCorrected)

/-- R225, U1: no operation's outcome depends on an unspecified reset value. `crc_acc` while `crc_valid = 0`, and
`agg_half` while `agg_half_valid = 0`, can be replaced by any value: the operation ends the same way and differs at most
in that register, which is then still not valid. (The values the model names are logs 8 and 9.) -/
def Obligations.UnspecifiedResetValuesAreNeverRead : Prop :=
  (∀ i s x, s.crcValid = false →
    (∀ f, exec i s = .fault f → exec i { s with crcAcc := x } = .fault f) ∧
    ∀ t, exec i s = .next t →
      ∃ y, exec i { s with crcAcc := x } = .next { t with crcAcc := y } ∧ (t.crcValid = true → y = t.crcAcc)) ∧
  ∀ i s x, s.aggHalfValid = false →
    (∀ f, exec i s = .fault f → exec i { s with aggHalf := x } = .fault f) ∧
    ∀ t, exec i s = .next t →
      ∃ y, exec i { s with aggHalf := x } = .next { t with aggHalf := y } ∧ (t.aggHalfValid = true → y = t.aggHalf)

/-- R50: the reading and the stateless operations change no register, repeating one returns the same result, a stateless
one depends on its operands and the parameters only, and `AGG.TAKE` is the only operation that returns state and
changes it. -/
def Obligations.ReadsHaveNoSideEffect : Prop :=
  (∀ i s t, i.writesNothing = true → exec i s = .next t →
    t = { s with result := t.result } ∧ exec i t = .next t) ∧
  (∀ i s s' t, i.stateless = true → s'.params = s.params → exec i s = .next t →
    exec i s' = .next { s' with result := t.result }) ∧
  ∀ i s t, exec i s = .next t → t.result ≠ .none → t ≠ { s with result := t.result } → ∃ c, i = .aggTake c

/-! ## CRC32 generator -/

/-- R87: `CRC.INIT` writes the register with `CRC_INIT` and makes it valid, in any state; twice is the same as once. -/
def Obligations.CrcInitWritesRegister : Prop :=
  (∀ s, exec .crcInit s = .next { s with crcAcc := s.params.crcInit, crcValid := true, result := .none }) ∧
  (∀ s t, exec .crcInit s = .next t → exec .crcInit t = .next t) ∧
  ∀ f n, (Params.ofSpec f n).crcInit = 0x00000000

/-- R88: `crc_step` is linear over exclusive-or, and its values at the bytes the rule names. -/
def Obligations.CrcStepIsLinear : Prop :=
  (∀ (poly a a' : Word32) (b b' : Byte),
    crcStep poly (a ^^^ a') (b ^^^ b') = crcStep poly a b ^^^ crcStep poly a' b') ∧
  crcStep 0x04C11DB7 0x00000000 0x01 = 0x04C11DB7 ∧
  crcStep 0x04C11DB7 0x00000000 0x80 = 0x690CE0EE ∧
  crcStep 0x04C11DB7 0x00000000 0x00 = 0x00000000

/-- R89: `CRC.UPDATE b` advances the register by one byte, or faults before the first `CRC.INIT`. -/
def Obligations.CrcUpdateAdvancesRegister : Prop :=
  (∀ s b, s.crcValid = true →
    exec (.crcUpdate b) s = .next { s with crcAcc := crcStep s.params.crcPoly s.crcAcc b, result := .none }) ∧
  (∀ s b, s.crcValid = false → exec (.crcUpdate b) s = .fault .crcNotInitialised) ∧
  (∀ poly, crcStep poly 0 0x00 = 0) ∧
  crcStep 0x04C11DB7 0x00000000 0x31 = 0xD0F37027

/-- R90: `CRC.FINAL` returns the register with `CRC_XOROUT` applied and changes no register, or faults before the first
`CRC.INIT`; directly after `CRC.INIT` it returns the CRC of the empty message, and after one more byte that of the longer
message. -/
def Obligations.CrcFinalReturnsCrc : Prop :=
  (∀ s, s.crcValid = true → exec .crcFinal s = .next { s with result := .crc (s.crcAcc ^^^ s.params.crcXorout) }) ∧
  (∀ s, s.crcValid = false → exec .crcFinal s = .fault .crcNotInitialised) ∧
  (∀ s t, exec .crcInit s = .next t → exec .crcFinal t = .next { t with result := .crc (crc32 s.params []) }) ∧
  (∀ s u t m b, s.crcValid = true → s.crcAcc = crcFold s.params s.params.crcInit m →
    exec .crcFinal s = .next u → exec (.crcUpdate b) u = .next t →
    exec .crcFinal t = .next { t with result := .crc (crc32 s.params (m ++ [b])) }) ∧
  (∀ f n, crc32 (Params.ofSpec f n) [] = 0xFFFFFFFF) ∧
  ∀ f n, crcFold (Params.ofSpec f n) 0 [0x31, 0x32, 0x33, 0x34, 0x35, 0x36, 0x37, 0x38, 0x39] = 0x89A1897F ∧
    crc32 (Params.ofSpec f n) [0x31, 0x32, 0x33, 0x34, 0x35, 0x36, 0x37, 0x38, 0x39] = 0x765E7680

/-- R91: `CRC.BLOCK m` always returns `Ok` and the CRC of `m`, and reads and writes no register. -/
def Obligations.CrcBlockReturnsCrc : Prop :=
  (∀ s m, exec (.crcBlock m) s = .next { s with result := .okCrc (crc32 s.params m) }) ∧
  (∀ f n, crc32 (Params.ofSpec f n) [] = 0xFFFFFFFF) ∧
  ∀ f n, crc32 (Params.ofSpec f n) [0x01, 0x02, 0x03] = 0x5396EBAE

/-- R92: `CRC.STREAM m` completes and returns `CRC32(m)`; so does any run in which the CRC operations are exactly those
of `CRC.STREAM m`, whatever other operations of any agent are interleaved; `CRC.BLOCK m` returns the same value. -/
def Obligations.StreamingEqualsBlock : Prop :=
  (∀ s m rest, s.requests = crcStream m ++ rest →
    ∃ t, runSteps (m.length + 2) s = .next t ∧ t.requests = rest ∧ t.result = .crc (crc32 s.params m)) ∧
  (∀ s t m, s.requests.filter Request.touchesCrc = crcStream m →
    s.requests.getLast? = some (encode .client .crcFinal) →
    runSteps s.requests.length s = .next t → t.result = .crc (crc32 s.params m)) ∧
  ∀ s m, exec (.crcBlock m) s = .next { s with result := .okCrc (crc32 s.params m) }

/-- R93: flipping any one bit of a message changes its CRC, for every polynomial with a constant term, the spec's among
them. -/
def Obligations.CrcDetectsEverySingleBitFlip : Prop :=
  (∀ p : Params, p.crcPoly.getLsbD 0 = true →
    ∀ (s : List Byte) (j k : Nat), j < s.length → k < 8 → crc32 p (flipBit s j k) ≠ crc32 p s) ∧
  ∀ f n, (Params.ofSpec f n).crcPoly.getLsbD 0 = true

/-- R94: with `CRC_INIT = 0` the CRC does not see zero bytes in front of a message. -/
def Obligations.CrcIgnoresLeadingZeros : Prop :=
  (∀ p : Params, p.crcInit = 0 → ∀ s, crcStep p.crcPoly 0 0x00 = 0 ∧ crc32 p ([0x00] ++ s) = crc32 p s) ∧
  ∀ f n, let p := Params.ofSpec f n
    p.crcInit = 0 ∧ crc32 p [] = 0xFFFFFFFF ∧ crc32 p [0x00] = 0xFFFFFFFF ∧ crc32 p [0x00, 0x00] = 0xFFFFFFFF ∧
    crc32 p [0x00, 0x01] = 0xFB3EE248 ∧ crc32 p [0x01] = 0xFB3EE248

/-! ## COBS framer and deframer -/

/-- R102, R105: `COBS.ENC` always returns `Ok` and the encoding; `COBS.DEC` returns `Ok` and the plain bytes, or
`DecodeError` and no bytes, never a fault; neither touches a register. -/
def Obligations.CobsOperationsComplete : Prop :=
  (∀ s p, exec (.cobsEnc p) s = .next { s with result := .okBytes (cobsEncode p) } ∧
    ∃ body, cobsEncode p = body ++ [0x00]) ∧
  (∀ s e,
    (∃ p, cobsDecode e = .ok p ∧ exec (.cobsDec e) s = .next { s with result := .okBytes p }) ∨
    (cobsDecode e = .error .decodeError ∧ exec (.cobsDec e) s = .next { s with result := .failed .decodeError })) ∧
  cobsEncode [0x11, 0x22, 0x00, 0x33] = [0x03, 0x11, 0x22, 0x02, 0x33, 0x00] ∧
  cobsDecode [0x03, 0x11, 0x22, 0x02, 0x33, 0x00] = .ok [0x11, 0x22, 0x00, 0x33]

/-- R103: an encoding ends in the terminator, and the terminator is its only zero byte. -/
def Obligations.CobsEncodingIsZeroFree : Prop :=
  ∀ p, ∃ body, cobsEncode p = body ++ [0x00] ∧ 0x00 ∉ body ∧ body ≠ []

/-- R63, R106: the deframer accepts exactly the non-empty sequences of blocks followed by the terminator, and returns
what they stand for; everything else is `DecodeError`. -/
def Obligations.CobsDecodesExactlyBlockSequences : Prop :=
  (∀ e p, cobsDecode e = .ok p ↔
    ∃ blocks : List (List Byte), blocks ≠ [] ∧ (∀ d ∈ blocks, d.length ≤ 254 ∧ 0x00 ∉ d) ∧
      e = blocks.flatMap cobsBlock ++ [0x00] ∧ p = cobsMeaning blocks) ∧
  ∀ e st, cobsDecode e = .error st → st = .decodeError

/-- R108: decoding an encoding gives the plain bytes back. -/
def Obligations.CobsRoundTrip : Prop :=
  ∀ p, cobsDecode (cobsEncode p) = .ok p

/-- R112: `COBS_MAXLEN(n)` by its formula is the largest length of an encoding of `n` bytes, and any `p` without a zero
byte reaches it. -/
def Obligations.CobsMaxlenIsTheMaximum : Prop :=
  cobsMaxlen 0 = 2 ∧
  (∀ n, 1 ≤ n → cobsMaxlen n = n + (n + 253) / 254 + 1) ∧
  (∀ p, (cobsEncode p).length ≤ cobsMaxlen p.length) ∧
  (∀ p, 0x00 ∉ p → (cobsEncode p).length = cobsMaxlen p.length) ∧
  ∀ n, ∃ p, p.length = n ∧ (cobsEncode p).length = cobsMaxlen n

/-- R113: below 254 plain bytes an encoding is exactly two bytes longer than its input, whatever the bytes. -/
def Obligations.ShortCobsLengthIsContentFree : Prop :=
  ∀ p, p.length < 254 → (cobsEncode p).length = p.length + 2

/-! ## Hamming codec and FEC -/

/-- R120: the eight bits of the code word of every nibble. -/
def Obligations.HamEncComputesParities : Prop :=
  (∀ s v, ∃ h : Byte, exec (.hamEnc v) s = .next { s with result := .codeWord h } ∧
    h.getLsbD 2 = v.getLsbD 0 ∧ h.getLsbD 4 = v.getLsbD 1 ∧ h.getLsbD 5 = v.getLsbD 2 ∧ h.getLsbD 6 = v.getLsbD 3 ∧
    h.getLsbD 0 = (v.getLsbD 0 ^^ v.getLsbD 1 ^^ v.getLsbD 3) ∧
    h.getLsbD 1 = (v.getLsbD 0 ^^ v.getLsbD 2 ^^ v.getLsbD 3) ∧
    h.getLsbD 3 = (v.getLsbD 1 ^^ v.getLsbD 2 ^^ v.getLsbD 3) ∧
    h.getLsbD 7 = (h.getLsbD 0 ^^ h.getLsbD 1 ^^ h.getLsbD 2 ^^ h.getLsbD 3 ^^ h.getLsbD 4 ^^ h.getLsbD 5 ^^
      h.getLsbD 6)) ∧
  hamEnc 0x9 = 0xCC

/-- R122: what `HAM.DEC` returns for every byte, by its syndrome and its overall parity. -/
def Obligations.HamDecFollowsSyndrome : Prop :=
  (∀ s (h : Byte), ∃ r, exec (.hamDec h) s = .next { s with result := .decoded r } ∧
    let s1 := h.getLsbD 0 ^^ h.getLsbD 2 ^^ h.getLsbD 4 ^^ h.getLsbD 6
    let s2 := h.getLsbD 1 ^^ h.getLsbD 2 ^^ h.getLsbD 5 ^^ h.getLsbD 6
    let s4 := h.getLsbD 3 ^^ h.getLsbD 4 ^^ h.getLsbD 5 ^^ h.getLsbD 6
    let i := s1.toNat + 2 * s2.toNat + 4 * s4.toNat
    let odd := h.getLsbD 0 ^^ h.getLsbD 1 ^^ h.getLsbD 2 ^^ h.getLsbD 3 ^^ h.getLsbD 4 ^^ h.getLsbD 5 ^^
      h.getLsbD 6 ^^ h.getLsbD 7
    (odd = false → i = 0 → r = some ⟨codeWordData h, false⟩) ∧
    (odd = true → i = 0 → r = some ⟨codeWordData h, true⟩) ∧
    (odd = true → i ≠ 0 → r = some ⟨codeWordData (h ^^^ (1#8 <<< (i - 1))), true⟩) ∧
    (odd = false → i ≠ 0 → r = none)) ∧
  (∀ h : Byte, (codeWordData h).getLsbD 0 = h.getLsbD 2 ∧ (codeWordData h).getLsbD 1 = h.getLsbD 4 ∧
    (codeWordData h).getLsbD 2 = h.getLsbD 5 ∧ (codeWordData h).getLsbD 3 = h.getLsbD 6) ∧
  hamDec 0xC8 = some ⟨0x9, true⟩

/-- R124: a clean code word decodes clean, every single flipped bit is corrected, every two flipped bits are detected;
an odd number of flips is always taken for one, three flips give a wrong nibble, and four can give another code word. -/
def Obligations.HammingCorrectsOneDetectsTwo : Prop :=
  (∀ s v, exec (.hamDec (hamEnc v)) s = .next { s with result := .decoded (some ⟨v, false⟩) }) ∧
  (∀ s v b, b < 8 →
    exec (.hamDec (hamEnc v ^^^ (1#8 <<< b))) s = .next { s with result := .decoded (some ⟨v, true⟩) }) ∧
  (∀ s v b c, b < 8 → c < 8 → b ≠ c →
    exec (.hamDec (hamEnc v ^^^ (1#8 <<< b) ^^^ (1#8 <<< c))) s = .next { s with result := .decoded none }) ∧
  (∀ h : Byte, (h.getLsbD 0 ^^ h.getLsbD 1 ^^ h.getLsbD 2 ^^ h.getLsbD 3 ^^ h.getLsbD 4 ^^ h.getLsbD 5 ^^
      h.getLsbD 6 ^^ h.getLsbD 7) = true → ∃ v, hamDec h = some ⟨v, true⟩) ∧
  hamDec (0xCC ^^^ 0x07) = some ⟨0x8, true⟩ ∧
  hamDec (hamEnc 0x0 ^^^ 0x87) = some ⟨0x1, false⟩

/-- R126, R127: the expansion of a byte sequence, index by index, and its length. -/
def Obligations.FecExpandInterleavesCodeWords : Prop :=
  (∀ s m, ∃ w, exec (.fecExpand m) s = .next { s with result := .okBytes w } ∧ w.length = 2 * m.length ∧
    ∀ k (h : k < m.length), w[2 * k]? = some (hamEnc (m[k].extractLsb' 0 4)) ∧
      w[2 * k + 1]? = some (hamEnc (m[k].extractLsb' 4 4))) ∧
  fecExpand [0x48, 0xE2] = [0x4B, 0xAA, 0x99, 0x78]

/-- R128: what `FEC.COMPRESS` returns: `BadLength` for an odd length, else `HammingError` when some byte is
undecodable, else the joined nibbles and whether any byte was corrected. -/
def Obligations.FecCompressJoinsPairs : Prop :=
  (∀ s w, w.length % 2 = 1 → exec (.fecCompress w) s = .next { s with result := .failed .badLength }) ∧
  (∀ s w, w.length % 2 = 0 → (∃ x ∈ w, hamDec x = none) →
    exec (.fecCompress w) s = .next { s with result := .failed .hammingError }) ∧
  (∀ s w, w.length % 2 = 0 → (∀ x ∈ w, hamDec x ≠ none) →
    ∃ m c, exec (.fecCompress w) s = .next { s with result := .okCorrected m c } ∧ 2 * m.length = w.length ∧
      (∀ k lo hi, w[2 * k]?.bind hamDec = some lo → w[2 * k + 1]?.bind hamDec = some hi →
        m[k]? = some (lo.v.setWidth 8 ||| (hi.v.setWidth 8 <<< 4))) ∧
      (c = true ↔ ∃ x ∈ w, ∃ d, hamDec x = some d ∧ d.corrected = true)) ∧
  fecCompress [0x4B, 0xAA, 0x99, 0x7A] = .ok ([0x48, 0xE2], true)

/-- R129: compression undoes expansion, corrects at most one flipped bit in every byte and reports it, and rejects a byte
that differs from its code word in exactly two bits, whatever the other bytes are. -/
def Obligations.FecRoundTripAndCorrection : Prop :=
  (∀ m, fecCompress (fecExpand m) = .ok (m, false)) ∧
  (∀ m w, oneFlipPerByte (fecExpand m) w → w ≠ fecExpand m → fecCompress w = .ok (m, true)) ∧
  ∀ (m w : List Byte) (j b c : Nat), w.length = (fecExpand m).length → b < 8 → c < 8 → b ≠ c →
    (∃ x : Byte, (fecExpand m)[j]? = some x ∧ w[j]? = some (x ^^^ (1#8 <<< b) ^^^ (1#8 <<< c))) →
    fecCompress w = .error .hammingError

/-! ## Frame codec -/

/-- R141, R143, R43: the wire bytes of a payload within `PAYLOAD_MAX`, and the capacity fault of a longer one. -/
def Obligations.FrameEncBuildsFrame : Prop :=
  (∀ s p, p.length ≤ s.params.payloadMax →
    let c := crc32 s.params p
    let little := [c.extractLsb' 0 8, c.extractLsb' 8 8, c.extractLsb' 16 8, c.extractLsb' 24 8]
    let e := cobsEncode (p ++ if s.params.trailerOrder = .little then little else little.reverse)
    exec (.frameEnc p) s = .next { s with result := .okBytes (if s.params.fecEn then fecExpand e else e) }) ∧
  (∀ s p, s.params.payloadMax < p.length → exec (.frameEnc p) s = .fault (.capacityFault p.length)) ∧
  frameEncode (Params.ofSpec false 4) [0x01] = [0x06, 0x01, 0x48, 0xE2, 0x3E, 0xFB, 0x00] ∧
  frameEncode (Params.ofSpec true 4) [0x01] =
    [0x33, 0x00, 0x87, 0x00, 0x4B, 0xAA, 0x99, 0x78, 0x78, 0x1E, 0x55, 0xFF, 0x00, 0x00]

/-- R142: the length of a frame; every frame within `PAYLOAD_MAX` fits the command buffer. -/
def Obligations.FrameFitsCommandBuffer : Prop :=
  ∀ (p : Params) (m : List Byte), m.length ≤ p.payloadMax →
    (frameEncode p m).length = (cobsEncode (framePlain p m)).length * p.fecExpansion ∧
    (frameEncode p m).length ≤ cobsMaxlen (m.length + 4) * p.fecExpansion ∧
    cobsMaxlen (m.length + 4) * p.fecExpansion = p.outSize m.length ∧
    p.outSize m.length ≤ p.cap ∧
    (m.length + 4 < 254 → (frameEncode p m).length = (m.length + 6) * p.fecExpansion)

/-- R144: without FEC the terminator is the only zero wire byte; with FEC every byte is a code word, the frame ends in
`00 00` and no earlier aligned pair is `00 00`, while an unaligned one can occur. -/
def Obligations.FrameDelimiterIsUnique : Prop :=
  (∀ (p : Params) (m : List Byte), p.fecEn = false →
    ∃ body, frameEncode p m = body ++ [0x00] ∧ 0x00 ∉ body) ∧
  (∀ (p : Params) (m : List Byte), p.fecEn = true →
    let w := frameEncode p m
    w.length % 2 = 0 ∧ (∀ x ∈ w, ∃ v, x = hamEnc v) ∧ (∃ body, w = body ++ [0x00, 0x00]) ∧
    ∀ k, 2 * k + 2 < w.length → ¬ (w[2 * k]? = some 0x00 ∧ w[2 * k + 1]? = some 0x00)) ∧
  ∃ (m : List Byte) (k : Nat), let w := frameEncode (Params.ofSpec true 4) m
    m.length ≤ 4 ∧ 2 * k + 2 < w.length ∧ w[2 * k + 1]? = some 0x00 ∧ w[2 * k + 2]? = some 0x00

/-- R145, R147: the stages of `FRAME.DEC` in their order, the first that fails naming the status. -/
def Obligations.FrameDecRunsStagesInOrder : Prop :=
  (∀ s w st, s.params.fecEn = true → fecCompress w = .error st →
    exec (.frameDec w) s = .next { s with result := .failed st } ∧ (st = .badLength ∨ st = .hammingError)) ∧
  (∀ s w e c, (s.params.fecEn = true ∧ fecCompress w = .ok (e, c)) ∨ (s.params.fecEn = false ∧ e = w ∧ c = false) →
    (∀ p, frameCheck s.params e = .ok p → exec (.frameDec w) s = .next { s with result := .okCorrected p c }) ∧
    (∀ st, frameCheck s.params e = .error st →
      exec (.frameDec w) s = .next { s with result := .failed st } ∧ (st = .decodeError ∨ st = .crcError))) ∧
  frameDecode (Params.ofSpec false 4) [0x06, 0x01, 0x48, 0xE2, 0x3E, 0xFB, 0x00] = .ok ([0x01], false)

/-- R146: the verdict of `frame_check` by what the COBS stage gives: `DecodeError`, `CrcError` for fewer than four plain
bytes, else the comparison of the CRC with the last four bytes (read least significant first under `little`). -/
def Obligations.FrameCheckComparesTrailer : Prop :=
  (∀ p e, cobsDecode e = .error .decodeError → frameCheck p e = .error .decodeError) ∧
  (∀ p e plain, cobsDecode e = .ok plain → plain.length < 4 → frameCheck p e = .error .crcError) ∧
  ∀ p e m t0 t1 t2 t3, p.trailerOrder = .little → cobsDecode e = .ok (m ++ [t0, t1, t2, t3]) →
    let stored : Word32 := t0.setWidth 32 ||| (t1.setWidth 32 <<< 8) ||| (t2.setWidth 32 <<< 16) |||
      (t3.setWidth 32 <<< 24)
    frameCheck p e = if crc32 p m = stored then .ok m else .error .crcError

/-- R148: decoding the frame of a payload gives the payload back, uncorrected, with FEC or without. -/
def Obligations.FrameRoundTrip : Prop :=
  ∀ s p, p.length ≤ s.params.payloadMax →
    ∃ w, exec (.frameEnc p) s = .next { s with result := .okBytes w } ∧
      exec (.frameDec w) s = .next { s with result := .okCorrected p false }

/-- R149: what `FRAME.CHK` returns, in every state that meets the invariant; it changes no register and never faults. -/
def Obligations.FrameChkChecksTheHandedOffFrame : Prop :=
  (∀ s, s.params.fecEn = true → s.frameHammingError = true →
    exec .frameChk s = .next { s with result := .failed .hammingError }) ∧
  (∀ s : State, s.Inv → s.frameHammingError = false →
    ∃ e, e.length = s.frameLen ∧ (∀ k (h : k < e.length), s.buf.read k = some e[k]) ∧
      (∀ p, frameCheck s.params e = .ok p →
        exec .frameChk s = .next { s with result := .okCorrected p (s.params.fecEn && s.frameCorrected) }) ∧
      ∀ st, frameCheck s.params e = .error st → exec .frameChk s = .next { s with result := .failed st }) ∧
  (∀ s, s.frameHammingError = false → s.frameLen = 0 →
    exec .frameChk s = .next { s with result := .failed .decodeError }) ∧
  (∀ s : State, s.Inv → s.frameHammingError = false → 0 < s.frameLen → s.buf.read (s.frameLen - 1) ≠ some 0x00 →
    exec .frameChk s = .next { s with result := .failed .decodeError })

/-- R151: a payload with one flipped bit is rejected as `CrcError`. -/
def Obligations.TamperedPayloadIsRejected : Prop :=
  ∀ (p : Params) (m : List Byte) (j k : Nat), p.crcPoly.getLsbD 0 = true → j < m.length → k < 8 →
    let e := cobsEncode (flipBit m j k ++ crcTrailer p.trailerOrder (crc32 p m))
    frameCheck p e = .error .crcError ∧
    ∀ s : State, s.params = p → p.fecEn = false →
      exec (.frameDec e) s = .next { s with result := .failed .crcError }

/-- R152: with `CRC_INIT = 0` a plain part that gained a zero byte at its front passes the check. -/
def Obligations.LeadingZeroPassesTheCheck : Prop :=
  ∀ (p : Params) (m : List Byte), p.crcInit = 0 →
    frameCheck p (cobsEncode ([0x00] ++ m ++ crcTrailer p.trailerOrder (crc32 p m))) = .ok ([0x00] ++ m)

/-! ## Frame aggregator -/

/-- R161: `AGG.PUSH` always completes, whatever the byte and whether or not a request is pending, and returns nothing. -/
def Obligations.PushAlwaysCompletes : Prop :=
  ∀ (s : State) (b : Byte), s.Inv → ∃ t, exec (.aggPush b) s = .next t ∧ t.result = .none

/-- R163, R168: `AGG.PUSH` when `FEC_EN = 0`, with its hand-off. -/
def Obligations.PushStoresWireByte : Prop :=
  ∀ (s : State) (b : Byte), s.params.fecEn = false → s.aggIndex < s.params.cap →
    let stored := { s with
      buf := s.buf.write s.aggIndex b
      bufWritten := max s.bufWritten (s.aggIndex + 1)
      aggIndex := s.aggIndex + 1
      result := .none }
    exec (.aggPush b) s = .next (
      if b = 0x00 ∨ s.aggIndex + 1 = s.params.cap then
        { stored with
          frameReady := true
          frameLen := s.aggIndex + 1
          frameCorrected := false
          frameHammingError := false
          frameOverrun := s.frameReady || s.frameOverrun
          aggIndex := 0 }
      else stored)

/-- R165, R166, R168: `AGG.PUSH` when `FEC_EN = 1`: the first byte of a pair is held, an undecodable pair hands the
partial frame off with nothing stored, and a decodable pair stores its byte. -/
def Obligations.PushDecodesPairs : Prop :=
  (∀ (s : State) (b : Byte), s.params.fecEn = true → s.aggHalfValid = false →
    exec (.aggPush b) s = .next { s with aggHalf := b, aggHalfValid := true, result := .none }) ∧
  (∀ (s : State) (b : Byte), s.params.fecEn = true → s.aggHalfValid = true →
    (hamDec s.aggHalf = none ∨ hamDec b = none) →
    exec (.aggPush b) s = .next { s with
      aggHalfValid := false
      frameReady := true
      frameLen := s.aggIndex
      frameCorrected := s.aggCorrected
      frameHammingError := true
      frameOverrun := s.frameReady || s.frameOverrun
      aggIndex := 0
      aggCorrected := false
      result := .none }) ∧
  ∀ (s : State) (b : Byte) (lo hi : HamDecoded), s.params.fecEn = true → s.aggHalfValid = true →
    hamDec s.aggHalf = some lo → hamDec b = some hi → s.aggIndex < s.params.cap →
    let byte : Byte := lo.v.setWidth 8 ||| (hi.v.setWidth 8 <<< 4)
    let corrected := s.aggCorrected || lo.corrected || hi.corrected
    let stored := { s with
      aggHalfValid := false
      aggCorrected := corrected
      buf := s.buf.write s.aggIndex byte
      bufWritten := max s.bufWritten (s.aggIndex + 1)
      aggIndex := s.aggIndex + 1
      result := .none }
    exec (.aggPush b) s = .next (
      if byte = 0x00 ∨ s.aggIndex + 1 = s.params.cap then
        { stored with
          frameReady := true
          frameLen := s.aggIndex + 1
          frameCorrected := corrected
          frameHammingError := false
          frameOverrun := s.frameReady || s.frameOverrun
          aggIndex := 0
          aggCorrected := false }
      else stored)

/-- R161, R41, R26 to R29: the frame of `AGG.PUSH`: it stores at most the one byte that `pushStores` computes, inside the
buffer, and every other byte reads as before; without a hand-off the latch is unchanged; each register of the aggregator is
kept but in the cases that change it; the other units are untouched. -/
def Obligations.PushFrame : Prop :=
  ∀ (s t : State) (b : Byte), exec (.aggPush b) s = .next t →
    (pushStores b s = none → (∀ a, t.buf.read a = s.buf.read a) ∧ t.bufWritten = s.bufWritten) ∧
    (∀ i v, pushStores b s = some (i, v) →
      i = s.aggIndex ∧ i < s.params.cap ∧ t.buf.read i = some v ∧ (∀ a, a ≠ i → t.buf.read a = s.buf.read a) ∧
      t.bufWritten = max s.bufWritten (i + 1)) ∧
    (pushHandsOff b s = false → sameLatch s t ∧
      t.aggIndex = s.aggIndex + (if (pushStores b s).isSome then 1 else 0) ∧
      (pushStores b s = none → t.aggCorrected = s.aggCorrected)) ∧
    (pushHandsOff b s = true → t.aggIndex = 0) ∧
    (s.params.fecEn = false →
      t.aggCorrected = s.aggCorrected ∧ t.aggHalfValid = s.aggHalfValid ∧ t.aggHalf = s.aggHalf) ∧
    (s.params.fecEn = true →
      t.aggHalfValid = (!s.aggHalfValid) ∧ (s.aggHalfValid = true → t.aggHalf = s.aggHalf)) ∧
    t.params = s.params ∧ t.requests = s.requests ∧ t.returned = s.returned ∧ t.faults = s.faults ∧
    t.crcAcc = s.crcAcc ∧ t.crcValid = s.crcValid ∧
    t.utcReference = s.utcReference ∧ t.rtcReference = s.rtcReference

/-- R168: what a hand-off writes, with FEC or without: the latch takes the frame's length and flags, the request is
raised, a pending request becomes an overrun, and the next frame starts at index 0 with a clear correction flag; no byte
but the completing one changes. -/
def Obligations.HandoffWritesLatch : Prop :=
  ∀ (s t : State) (b : Byte), exec (.aggPush b) s = .next t → pushHandsOff b s = true →
    t.frameReady = true ∧
    t.frameLen = s.aggIndex + (if (pushStores b s).isSome then 1 else 0) ∧
    t.frameHammingError = (pushStores b s).isNone ∧
    t.frameCorrected = (s.params.fecEn && (s.aggCorrected || ((pushStores b s).isSome &&
      ((hamDec s.aggHalf).any (·.corrected) || (hamDec b).any (·.corrected))))) ∧
    t.frameOverrun = (s.frameReady || s.frameOverrun) ∧
    t.aggIndex = 0 ∧
    (s.params.fecEn = true → t.aggCorrected = false ∧ t.aggHalfValid = false) ∧
    ∀ a, (∀ i v, pushStores b s = some (i, v) → a ≠ i) → t.buf.read a = s.buf.read a

/-- R170, R173: a hand-off while a request is pending is coalesced: the request stays, the latch is the newer frame's,
and the next `AGG.TAKE` reports the overrun; after a take, a hand-off is a new request and no overrun. -/
def Obligations.OverrunIsCoalescedAndReported : Prop :=
  (∀ (s t : State) (b : Byte), s.frameReady = true → pushHandsOff b s = true → exec (.aggPush b) s = .next t →
    t.frameReady = true ∧ t.frameLen = s.aggIndex + (if (pushStores b s).isSome then 1 else 0) ∧
    ∀ c, ∃ u, exec (.aggTake c) t = .next u ∧ ∃ l, u.result = .latch l ∧ l.ready = true ∧ l.overrun = true ∧
      l.len = t.frameLen) ∧
  ∀ (s t u : State) (b : Byte) (c : Bool), s.frameOverrun = false → exec (.aggTake c) s = .next t →
    pushHandsOff b t = true → exec (.aggPush b) t = .next u → u.frameReady = true ∧ u.frameOverrun = false

/-- R172: `AGG.TAKE` returns the latch from before its writes, clears the request, and the overrun bit when asked. -/
def Obligations.TakeReadsAndClears : Prop :=
  ∀ (s : State) (c : Bool), exec (.aggTake c) s = .next { s with
    frameReady := false
    frameOverrun := if c then false else s.frameOverrun
    result := .latch
      { ready := s.frameReady
        len := s.frameLen
        corrected := s.params.fecEn && s.frameCorrected
        hammingError := s.params.fecEn && s.frameHammingError
        overrun := s.frameOverrun } }

/-- R175, R176: `AGG.RDBUF` returns the byte as it is now, and faults past the buffer and at a byte nothing has written. -/
def Obligations.RdbufReadsWrittenBytes : Prop :=
  (∀ (s : State) (idx : Nat), s.params.cap ≤ idx → exec (.aggRdbuf idx) s = .fault (.bufferIndexFault idx)) ∧
  (∀ (s : State) (idx : Nat), idx < s.params.cap → s.bufWritten ≤ idx →
    exec (.aggRdbuf idx) s = .fault (.unwrittenRead idx)) ∧
  (∀ (s : State) (idx : Nat) (b : Byte), idx < s.params.cap → idx < s.bufWritten → s.buf.read idx = some b →
    exec (.aggRdbuf idx) s = .next { s with result := .byte b }) ∧
  ∀ (s : State) (idx : Nat), s.Inv → idx < s.bufWritten → ∃ b, s.buf.read idx = some b ∧ idx < s.params.cap

/-- R171, R164: the decoded bytes of a frame that has not completed, with FEC or without, land at indices 0, 1, ... in
order, over the bytes of a frame that is still pending, and no flag of the latch says so. -/
def Obligations.NewBytesOverwriteThePendingFrame : Prop :=
  ∀ (s : State) (w e : List Byte) (c : Bool) (rest : List Request), s.Inv → s.aggIndex = 0 →
    ((s.params.fecEn = false ∧ e = w) ∨
      (s.params.fecEn = true ∧ s.aggHalfValid = false ∧ fecCompress w = .ok (e, c))) →
    0x00 ∉ e → e.length < s.params.cap → s.requests = pushSeq w ++ rest →
    ∃ t, runSteps w.length s = .next t ∧ t.requests = rest ∧ t.aggIndex = e.length ∧ t.aggHalfValid = s.aggHalfValid ∧
      (∀ k (h : k < e.length), t.buf.read k = some e[k]) ∧
      (∀ a, e.length ≤ a → t.buf.read a = s.buf.read a) ∧ sameLatch s t

/-- R178: from an idle aggregator, a frame pushed byte by byte is handed off exactly once, on its last byte, and
`FRAME.CHK` then returns what `FRAME.DEC` returns for the wire bytes; and an undecodable pair ends the frame there, and
`FRAME.CHK` returns `HammingError` until a later hand-off, as `FRAME.DEC` does. -/
def Obligations.ReceivePathsAgree : Prop :=
  (∀ (s : State) (w e body : List Byte) (c : Bool) (rest : List Request), s.Inv → s.Idle →
    ((s.params.fecEn = false ∧ e = w ∧ c = false) ∨ (s.params.fecEn = true ∧ fecCompress w = .ok (e, c))) →
    e.length ≤ s.params.cap → e = body ++ [0x00] → 0x00 ∉ body →
    s.requests = pushSeq w ++ encode .client .frameChk :: rest →
    (∀ k < w.length, ∃ u, runSteps k s = .next u ∧ sameLatch s u) ∧
    (∃ u, runSteps w.length s = .next u ∧ u.frameReady = true ∧ u.frameLen = e.length ∧ u.aggIndex = 0 ∧
      u.frameHammingError = false ∧ u.frameOverrun = (s.frameReady || s.frameOverrun)) ∧
    ∃ t, runSteps (w.length + 1) s = .next t ∧ t.requests = rest ∧
      exec (.frameDec w) s = .next { s with result := t.result }) ∧
  ∀ (s : State) (pre e : List Byte) (x y : Byte) (post : List Byte) (c : Bool) (rest : List Request), s.Inv → s.Idle →
    s.params.fecEn = true → fecCompress pre = .ok (e, c) → (hamDec x = none ∨ hamDec y = none) → 0x00 ∉ e →
    e.length < s.params.cap → post.length % 2 = 0 →
    s.requests = pushSeq (pre ++ [x, y]) ++ rest →
    (∀ k < pre.length + 2, ∃ u, runSteps k s = .next u ∧ sameLatch s u) ∧
    (∃ u, runSteps (pre.length + 2) s = .next u ∧ u.frameReady = true ∧ u.frameLen = e.length ∧
      u.frameHammingError = true ∧
      ∀ v : State, v.params = u.params → v.frameHammingError = u.frameHammingError →
        exec .frameChk v = .next { v with result := .failed .hammingError }) ∧
    exec (.frameDec (pre ++ [x, y] ++ post)) s = .next { s with result := .failed .hammingError }

/-! ## Time reference -/

/-- R187: `TREF.REBASE` writes both registers in one step and nothing else, for every pair of values. -/
def Obligations.RebaseWritesReference : Prop :=
  ∀ (s : State) (t n : Word64),
    exec (.trefRebase t n) s = .next { s with utcReference := t, rtcReference := n, result := .none }

/-- R188: 0 unsets the reference and the tick count is still written; the same `t` again changes only the tick count;
virtual time then counts whole seconds from the new tick count, whatever it was before. -/
def Obligations.RebaseCornerCases : Prop :=
  (∀ (s u : State) (n : Word64), exec (.trefRebase 0 n) s = .next u →
    u.rtcReference = n ∧ exec .trefIsset u = .next { u with result := .isSet false }) ∧
  (∀ (s u v : State) (t n n' : Word64), exec (.trefRebase t n) s = .next u → exec (.trefRebase t n') u = .next v →
    v = { u with rtcReference := n' }) ∧
  ∀ (s u : State) (t n n' : Word64), exec (.trefRebase t n) s = .next u → n.toNat ≤ n'.toNat →
    t.toNat + (n'.toNat - n.toNat) / 1000 < 2 ^ 64 →
    exec (.trefGet n') u =
      .next { u with result := .time (BitVec.ofNat 64 (t.toNat + (n'.toNat - n.toNat) / 1000)) }

/-- R189, R191, R192: `TREF.GET` returns the virtual time, and faults on underflow, then on overflow. -/
def Obligations.GetComputesVirtualTime : Prop :=
  (∀ (s : State) (n : Word64), n.toNat < s.rtcReference.toNat →
    exec (.trefGet n) s = .fault (.timeUnderflow n s.rtcReference)) ∧
  (∀ (s : State) (n : Word64), s.rtcReference.toNat ≤ n.toNat →
    2 ^ 64 ≤ s.utcReference.toNat + (n.toNat - s.rtcReference.toNat) / 1000 →
    exec (.trefGet n) s =
      .fault (.timeOverflow s.utcReference ((n.toNat - s.rtcReference.toNat) / 1000))) ∧
  (∀ (s : State) (n : Word64), s.rtcReference.toNat ≤ n.toNat →
    s.utcReference.toNat + (n.toNat - s.rtcReference.toNat) / 1000 < 2 ^ 64 →
    ∃ r : Word64, exec (.trefGet n) s = .next { s with result := .time r } ∧
      r.toNat = s.utcReference.toNat + (n.toNat - s.rtcReference.toNat) / 1000) ∧
  ∀ s : State, s.utcReference = 1000 → s.rtcReference = 5000 →
    exec (.trefGet 65000) s = .next { s with result := .time 1060 }

/-- R190: truncation, monotonicity and range of the virtual time, where no fault occurs. -/
def Obligations.VirtualTimeLaws : Prop :=
  (∀ (s t t' : State) (n n' r r' : Word64), exec (.trefGet n) s = .next t → t.result = .time r →
    exec (.trefGet n') s = .next t' → t'.result = .time r' →
    (n.toNat - s.rtcReference.toNat < 1000 → r = s.utcReference) ∧
    (1000 ≤ n.toNat - s.rtcReference.toNat → n.toNat - s.rtcReference.toNat < 2000 →
      r.toNat = s.utcReference.toNat + 1) ∧
    (r = r' ↔ (n.toNat - s.rtcReference.toNat) / 1000 = (n'.toNat - s.rtcReference.toNat) / 1000) ∧
    (n.toNat ≤ n'.toNat → r.toNat ≤ r'.toNat)) ∧
  ∀ (s : State) (n : Word64), (n.toNat - s.rtcReference.toNat) / 1000 ≤ 18446744073709551 ∧
    ((∃ u q, exec (.trefGet n) s = .fault (.timeOverflow u q)) → 18428297329635842064 < s.utcReference.toNat)

/-- R193: `TREF.ISSET` returns 1 exactly when `utc_reference` is not 0, whatever `rtc_reference` is. -/
def Obligations.IssetTestsUtcReference : Prop :=
  (∀ s : State, s.utcReference = 0 → exec .trefIsset s = .next { s with result := .isSet false }) ∧
  ∀ s : State, s.utcReference ≠ 0 → exec .trefIsset s = .next { s with result := .isSet true }

/-- R37, R191: while the tick counts of the pending operations do not go back, no step records an underflow, and every step
keeps that premise. -/
def Obligations.MonotonicTicksNeverUnderflow : Prop :=
  ∀ s : State, s.TicksMonotonic →
    (∀ n m, step s ≠ .fault (.timeUnderflow n m)) ∧
    ∀ t, step s = .next t → t.TicksMonotonic ∧ ∀ n m, t.faults ≠ s.faults ++ [.timeUnderflow n m]

/-! ## Statuses and faults -/

/-- R200: exactly the operations of format S and `FRAME.CHK` return a status; with a status other than `Ok` nothing else
is returned and no state is written; which operation produces which status, and the numeric codes. -/
def Obligations.StatusesOfOperations : Prop :=
  (∀ i s t, exec i s = .next t →
    (t.result.status?.isSome = true ↔ formatOf i.code = some .S ∨ i = .frameChk) ∧
    (∀ st, t.result.status? = some st → st ≠ .ok → t = { s with result := .failed st }) ∧
    t.result.status? ≠ some .deserializeError ∧ t.result.status? ≠ some .validationError ∧
    t.result ≠ .failed .ok ∧
    (t.result.status? = some .decodeError → i = .frameChk ∨ ∃ e, i = .cobsDec e ∨ i = .frameDec e) ∧
    (t.result.status? = some .crcError → i = .frameChk ∨ ∃ e, i = .frameDec e) ∧
    (t.result.status? = some .hammingError → i = .frameChk ∨ ∃ w, i = .fecCompress w ∨ i = .frameDec w) ∧
    (t.result.status? = some .badLength →
      (∃ w, i = .fecCompress w) ∨ (s.params.fecEn = true ∧ ∃ w, i = .frameDec w))) ∧
  Status.code .ok = 0 ∧ Status.code .decodeError = 1 ∧ Status.code .deserializeError = 2 ∧
  Status.code .crcError = 3 ∧ Status.code .hammingError = 4 ∧ Status.code .validationError = 5 ∧
  Status.code .badLength = 6

/-- R203, R204, R205: from a state that meets the invariant every step answers a next state, so that no fault is final. It
records at most one fault and clears none; a fault leaves every register and the buffer as they were and returns nothing;
and it is recorded exactly in the cases of the table, the one the table names. -/
def Obligations.FaultsAreExactlyTheTable : Prop :=
  ∀ s : State, s.Inv → ∃ t, step s = .next t ∧
    (t.faults = s.faults ∨ ∃ f, t.faults = s.faults ++ [f]) ∧
    (∀ f, t.faults = s.faults ++ [f] →
      t = { s with requests := s.requests.tail, result := .none, faults := s.faults ++ [f] }) ∧
    ∀ f, t.faults = s.faults ++ [f] ↔ ∃ r rest, s.requests = r :: rest ∧
      ((formatOf r.op = none ∧ f = .illegalOperation r.op) ∨
       (s.crcValid = false ∧ f = .crcNotInitialised ∧
         (decode r = .operation .crcFinal ∨ ∃ b, decode r = .operation (.crcUpdate b))) ∨
       (∃ p, decode r = .operation (.frameEnc p) ∧ s.params.payloadMax < p.length ∧ f = .capacityFault p.length) ∨
       (∃ idx, decode r = .operation (.aggRdbuf idx) ∧ s.params.cap ≤ idx ∧ f = .bufferIndexFault idx) ∨
       (∃ idx, decode r = .operation (.aggRdbuf idx) ∧ idx < s.params.cap ∧ s.bufWritten ≤ idx ∧
         f = .unwrittenRead idx) ∨
       (∃ n, decode r = .operation (.trefGet n) ∧ n.toNat < s.rtcReference.toNat ∧
         f = .timeUnderflow n s.rtcReference) ∨
       (∃ n, decode r = .operation (.trefGet n) ∧ s.rtcReference.toNat ≤ n.toNat ∧
         2 ^ 64 ≤ s.utcReference.toNat + (n.toNat - s.rtcReference.toNat) / 1000 ∧
         f = .timeOverflow s.utcReference ((n.toNat - s.rtcReference.toNat) / 1000)))
end

