-- ==== Sys2Proof/Laws/Codec.lean ====
section
/-! SUPPORT. The equations of the pure codec functions, and the round trips of their smallest parts. -/

namespace Sys2Proof.Machine

/-! ## CRC -/

theorem crcFold_nil (p : Params) (acc : Word32) : crcFold p acc [] = acc := rfl

theorem crcFold_cons (p : Params) (acc : Word32) (b : Byte) (s : List Byte) :
    crcFold p acc (b :: s) = crcFold p (crcStep p.crcPoly acc b) s := rfl

theorem crcFold_append (p : Params) (acc : Word32) (s t : List Byte) :
    crcFold p acc (s ++ t) = crcFold p (crcFold p acc s) t := by
  simp [crcFold]

/-! ## Nibbles, code words, trailers -/

theorem joinNibbles_low_high (b : Byte) : joinNibbles (lowNibble b) (highNibble b) = b := by
  revert b
  decide +kernel

theorem lowNibble_join (lo hi : Nibble) : lowNibble (joinNibbles lo hi) = lo := by
  revert lo hi
  decide +kernel

theorem highNibble_join (lo hi : Nibble) : highNibble (joinNibbles lo hi) = hi := by
  revert lo hi
  decide +kernel

@[simp] theorem crcTrailer_length (o : TrailerOrder) (c : Word32) : (crcTrailer o c).length = crcBytes := by
  cases o <;> rfl

/-- A trailer stores the CRC it was made from, in either order. -/
theorem storedCrc_crcTrailer (o : TrailerOrder) (c : Word32) : storedCrc o (crcTrailer o c) = some c := by
  have little : c.extractLsb' 24 8 ++ c.extractLsb' 16 8 ++ c.extractLsb' 8 8 ++ c.extractLsb' 0 8 = c := by
    apply BitVec.eq_of_getLsbD_eq
    intro i hi
    simp only [BitVec.getLsbD_append, BitVec.getLsbD_extractLsb']
    split_ifs <;> simp <;> (try omega) <;> grind
  cases o
  · simp only [crcTrailer, storedCrc]
    rw [little]
  · simp only [crcTrailer, storedCrc, List.reverse_cons, List.reverse_nil, List.nil_append, List.cons_append]
    rw [little]

/-! ## FEC -/

theorem fecExpand_nil : fecExpand [] = [] := rfl

theorem fecExpand_cons (b : Byte) (s : List Byte) :
    fecExpand (b :: s) = hamEnc (lowNibble b) :: hamEnc (highNibble b) :: fecExpand s := rfl

theorem fecCompressPairs_cons (w0 w1 : Byte) (rest : List Byte) :
    fecCompressPairs (w0 :: w1 :: rest) = joinPair (hamDec w0) (hamDec w1) (fecCompressPairs rest) := by
  rw [fecCompressPairs]

/-- A decodable pair contributes its byte and its correction bit; a later failure fails the whole (R128). -/
theorem joinPair_decodable (lo hi : HamDecoded) (rest : Except Status (List Byte × Bool)) :
    joinPair (some lo) (some hi) rest =
      rest.map fun r => (joinNibbles lo.v hi.v :: r.1, lo.corrected || hi.corrected || r.2) := by
  cases rest <;> rfl

/-- An undecodable code word fails the whole (R128). -/
theorem joinPair_undecodable {lo hi : Option HamDecoded} (rest : Except Status (List Byte × Bool))
    (h : lo = none ∨ hi = none) : joinPair lo hi rest = .error .hammingError := by
  rcases h with rfl | rfl
  · cases hi <;> rfl
  · cases lo <;> rfl

/-! ## COBS -/

theorem cobsEncodeFrom_nil (block : List Byte) (isOpen : Bool) :
    cobsEncodeFrom [] block isOpen = (if isOpen then cobsBlock block else []) ++ [0x00] := rfl

/-- A zero closes the block and opens the next one. -/
theorem cobsEncodeFrom_zero (rest block : List Byte) (isOpen : Bool) :
    cobsEncodeFrom (0x00 :: rest) block isOpen = cobsBlock block ++ cobsEncodeFrom rest [] true := by
  simp [cobsEncodeFrom]

/-- A data byte that does not fill the block is collected. -/
theorem cobsEncodeFrom_data (b : Byte) (rest block : List Byte) (isOpen : Bool) (hb : b ≠ 0x00)
    (hl : block.length + 1 ≠ cobsBlockMax) :
    cobsEncodeFrom (b :: rest) block isOpen = cobsEncodeFrom rest (block ++ [b]) isOpen := by
  have hb' : ¬ b = 0#8 := hb
  simp [cobsEncodeFrom, hb', hl]

/-- The data byte that fills the block closes it, and opens another only if input remains. -/
theorem cobsEncodeFrom_full (b : Byte) (rest block : List Byte) (isOpen : Bool) (hb : b ≠ 0x00)
    (hl : block.length + 1 = cobsBlockMax) :
    cobsEncodeFrom (b :: rest) block isOpen = cobsBlock (block ++ [b]) ++ cobsEncodeFrom rest [] (!rest.isEmpty) := by
  have hb' : ¬ b = 0#8 := hb
  simp [cobsEncodeFrom, hb', hl]

@[simp] theorem cobsBlock_length (block : List Byte) : (cobsBlock block).length = block.length + 1 := rfl

theorem cobsDecodeBlocks_nil (fuel : Nat) : cobsDecodeBlocks fuel [] = .ok [] := by
  cases fuel <;> rfl

/-- One turn of the decoding loop: exit (d), or the block's data bytes, the implied zero, and the rest (R106). -/
theorem cobsDecodeBlocks_cons (fuel : Nat) (c : Byte) (rest : List Byte) :
    cobsDecodeBlocks (fuel + 1) (c :: rest) =
      if rest.length < c.toNat - 1 then .error .decodeError
      else (cobsDecodeBlocks fuel (rest.drop (c.toNat - 1))).map fun out =>
        rest.take (c.toNat - 1) ++ (if c ≠ 0xFF ∧ rest.drop (c.toNat - 1) ≠ [] then [0x00] else []) ++ out := by
  rw [cobsDecodeBlocks]
  split
  · rfl
  · cases cobsDecodeBlocks fuel (rest.drop (c.toNat - 1)) <;> rfl

end Sys2Proof.Machine
end

