-- ==== Sys2Proof/Laws/State.lean ====
section
/-! SUPPORT. What each named update of the state does to each register, one lemma per field per update, so that no
proof unfolds a record update. -/

namespace Sys2Proof.Machine

variable (s : State)

/-! `deliver` -/

@[simp] theorem deliver_params (r : Result) : (s.deliver r).params = s.params := rfl
@[simp] theorem deliver_requests (r : Result) : (s.deliver r).requests = s.requests := rfl
@[simp] theorem deliver_result (r : Result) : (s.deliver r).result = r := rfl
@[simp] theorem deliver_returned (r : Result) : (s.deliver r).returned = s.returned := rfl
@[simp] theorem deliver_faults (r : Result) : (s.deliver r).faults = s.faults := rfl
@[simp] theorem deliver_crcAcc (r : Result) : (s.deliver r).crcAcc = s.crcAcc := rfl
@[simp] theorem deliver_crcValid (r : Result) : (s.deliver r).crcValid = s.crcValid := rfl
@[simp] theorem deliver_buf (r : Result) : (s.deliver r).buf = s.buf := rfl
@[simp] theorem deliver_bufWritten (r : Result) : (s.deliver r).bufWritten = s.bufWritten := rfl
@[simp] theorem deliver_aggIndex (r : Result) : (s.deliver r).aggIndex = s.aggIndex := rfl
@[simp] theorem deliver_aggCorrected (r : Result) : (s.deliver r).aggCorrected = s.aggCorrected := rfl
@[simp] theorem deliver_aggHalfValid (r : Result) : (s.deliver r).aggHalfValid = s.aggHalfValid := rfl
@[simp] theorem deliver_aggHalf (r : Result) : (s.deliver r).aggHalf = s.aggHalf := rfl
@[simp] theorem deliver_frameReady (r : Result) : (s.deliver r).frameReady = s.frameReady := rfl
@[simp] theorem deliver_frameLen (r : Result) : (s.deliver r).frameLen = s.frameLen := rfl
@[simp] theorem deliver_frameCorrected (r : Result) : (s.deliver r).frameCorrected = s.frameCorrected := rfl
@[simp] theorem deliver_frameHammingError (r : Result) : (s.deliver r).frameHammingError = s.frameHammingError := rfl
@[simp] theorem deliver_frameOverrun (r : Result) : (s.deliver r).frameOverrun = s.frameOverrun := rfl
@[simp] theorem deliver_utcReference (r : Result) : (s.deliver r).utcReference = s.utcReference := rfl
@[simp] theorem deliver_rtcReference (r : Result) : (s.deliver r).rtcReference = s.rtcReference := rfl

/-! `setCrc` -/

@[simp] theorem setCrc_params (acc : Word32) : (s.setCrc acc).params = s.params := rfl
@[simp] theorem setCrc_requests (acc : Word32) : (s.setCrc acc).requests = s.requests := rfl
@[simp] theorem setCrc_result (acc : Word32) : (s.setCrc acc).result = s.result := rfl
@[simp] theorem setCrc_returned (acc : Word32) : (s.setCrc acc).returned = s.returned := rfl
@[simp] theorem setCrc_faults (acc : Word32) : (s.setCrc acc).faults = s.faults := rfl
@[simp] theorem setCrc_crcAcc (acc : Word32) : (s.setCrc acc).crcAcc = acc := rfl
@[simp] theorem setCrc_crcValid (acc : Word32) : (s.setCrc acc).crcValid = true := rfl
@[simp] theorem setCrc_buf (acc : Word32) : (s.setCrc acc).buf = s.buf := rfl
@[simp] theorem setCrc_bufWritten (acc : Word32) : (s.setCrc acc).bufWritten = s.bufWritten := rfl
@[simp] theorem setCrc_aggIndex (acc : Word32) : (s.setCrc acc).aggIndex = s.aggIndex := rfl
@[simp] theorem setCrc_aggCorrected (acc : Word32) : (s.setCrc acc).aggCorrected = s.aggCorrected := rfl
@[simp] theorem setCrc_aggHalfValid (acc : Word32) : (s.setCrc acc).aggHalfValid = s.aggHalfValid := rfl
@[simp] theorem setCrc_aggHalf (acc : Word32) : (s.setCrc acc).aggHalf = s.aggHalf := rfl
@[simp] theorem setCrc_frameReady (acc : Word32) : (s.setCrc acc).frameReady = s.frameReady := rfl
@[simp] theorem setCrc_frameLen (acc : Word32) : (s.setCrc acc).frameLen = s.frameLen := rfl
@[simp] theorem setCrc_frameCorrected (acc : Word32) : (s.setCrc acc).frameCorrected = s.frameCorrected := rfl
@[simp] theorem setCrc_frameHammingError (acc : Word32) : (s.setCrc acc).frameHammingError = s.frameHammingError := rfl
@[simp] theorem setCrc_frameOverrun (acc : Word32) : (s.setCrc acc).frameOverrun = s.frameOverrun := rfl
@[simp] theorem setCrc_utcReference (acc : Word32) : (s.setCrc acc).utcReference = s.utcReference := rfl
@[simp] theorem setCrc_rtcReference (acc : Word32) : (s.setCrc acc).rtcReference = s.rtcReference := rfl

/-! `setBuf` -/

@[simp] theorem setBuf_params (m : Memory) (n : Nat) : (s.setBuf m n).params = s.params := rfl
@[simp] theorem setBuf_requests (m : Memory) (n : Nat) : (s.setBuf m n).requests = s.requests := rfl
@[simp] theorem setBuf_result (m : Memory) (n : Nat) : (s.setBuf m n).result = s.result := rfl
@[simp] theorem setBuf_returned (m : Memory) (n : Nat) : (s.setBuf m n).returned = s.returned := rfl
@[simp] theorem setBuf_faults (m : Memory) (n : Nat) : (s.setBuf m n).faults = s.faults := rfl
@[simp] theorem setBuf_crcAcc (m : Memory) (n : Nat) : (s.setBuf m n).crcAcc = s.crcAcc := rfl
@[simp] theorem setBuf_crcValid (m : Memory) (n : Nat) : (s.setBuf m n).crcValid = s.crcValid := rfl
@[simp] theorem setBuf_buf (m : Memory) (n : Nat) : (s.setBuf m n).buf = m := rfl
@[simp] theorem setBuf_bufWritten (m : Memory) (n : Nat) : (s.setBuf m n).bufWritten = n := rfl
@[simp] theorem setBuf_aggIndex (m : Memory) (n : Nat) : (s.setBuf m n).aggIndex = s.aggIndex := rfl
@[simp] theorem setBuf_aggCorrected (m : Memory) (n : Nat) : (s.setBuf m n).aggCorrected = s.aggCorrected := rfl
@[simp] theorem setBuf_aggHalfValid (m : Memory) (n : Nat) : (s.setBuf m n).aggHalfValid = s.aggHalfValid := rfl
@[simp] theorem setBuf_aggHalf (m : Memory) (n : Nat) : (s.setBuf m n).aggHalf = s.aggHalf := rfl
@[simp] theorem setBuf_frameReady (m : Memory) (n : Nat) : (s.setBuf m n).frameReady = s.frameReady := rfl
@[simp] theorem setBuf_frameLen (m : Memory) (n : Nat) : (s.setBuf m n).frameLen = s.frameLen := rfl
@[simp] theorem setBuf_frameCorrected (m : Memory) (n : Nat) : (s.setBuf m n).frameCorrected = s.frameCorrected := rfl
@[simp] theorem setBuf_frameHammingError (m : Memory) (n : Nat) : (s.setBuf m n).frameHammingError = s.frameHammingError := rfl
@[simp] theorem setBuf_frameOverrun (m : Memory) (n : Nat) : (s.setBuf m n).frameOverrun = s.frameOverrun := rfl
@[simp] theorem setBuf_utcReference (m : Memory) (n : Nat) : (s.setBuf m n).utcReference = s.utcReference := rfl
@[simp] theorem setBuf_rtcReference (m : Memory) (n : Nat) : (s.setBuf m n).rtcReference = s.rtcReference := rfl

/-! `setAggIndex` -/

@[simp] theorem setAggIndex_params (i : Nat) : (s.setAggIndex i).params = s.params := rfl
@[simp] theorem setAggIndex_requests (i : Nat) : (s.setAggIndex i).requests = s.requests := rfl
@[simp] theorem setAggIndex_result (i : Nat) : (s.setAggIndex i).result = s.result := rfl
@[simp] theorem setAggIndex_returned (i : Nat) : (s.setAggIndex i).returned = s.returned := rfl
@[simp] theorem setAggIndex_faults (i : Nat) : (s.setAggIndex i).faults = s.faults := rfl
@[simp] theorem setAggIndex_crcAcc (i : Nat) : (s.setAggIndex i).crcAcc = s.crcAcc := rfl
@[simp] theorem setAggIndex_crcValid (i : Nat) : (s.setAggIndex i).crcValid = s.crcValid := rfl
@[simp] theorem setAggIndex_buf (i : Nat) : (s.setAggIndex i).buf = s.buf := rfl
@[simp] theorem setAggIndex_bufWritten (i : Nat) : (s.setAggIndex i).bufWritten = s.bufWritten := rfl
@[simp] theorem setAggIndex_aggIndex (i : Nat) : (s.setAggIndex i).aggIndex = i := rfl
@[simp] theorem setAggIndex_aggCorrected (i : Nat) : (s.setAggIndex i).aggCorrected = s.aggCorrected := rfl
@[simp] theorem setAggIndex_aggHalfValid (i : Nat) : (s.setAggIndex i).aggHalfValid = s.aggHalfValid := rfl
@[simp] theorem setAggIndex_aggHalf (i : Nat) : (s.setAggIndex i).aggHalf = s.aggHalf := rfl
@[simp] theorem setAggIndex_frameReady (i : Nat) : (s.setAggIndex i).frameReady = s.frameReady := rfl
@[simp] theorem setAggIndex_frameLen (i : Nat) : (s.setAggIndex i).frameLen = s.frameLen := rfl
@[simp] theorem setAggIndex_frameCorrected (i : Nat) : (s.setAggIndex i).frameCorrected = s.frameCorrected := rfl
@[simp] theorem setAggIndex_frameHammingError (i : Nat) : (s.setAggIndex i).frameHammingError = s.frameHammingError := rfl
@[simp] theorem setAggIndex_frameOverrun (i : Nat) : (s.setAggIndex i).frameOverrun = s.frameOverrun := rfl
@[simp] theorem setAggIndex_utcReference (i : Nat) : (s.setAggIndex i).utcReference = s.utcReference := rfl
@[simp] theorem setAggIndex_rtcReference (i : Nat) : (s.setAggIndex i).rtcReference = s.rtcReference := rfl

/-! `setAggCorrected` -/

@[simp] theorem setAggCorrected_params (c : Bool) : (s.setAggCorrected c).params = s.params := rfl
@[simp] theorem setAggCorrected_requests (c : Bool) : (s.setAggCorrected c).requests = s.requests := rfl
@[simp] theorem setAggCorrected_result (c : Bool) : (s.setAggCorrected c).result = s.result := rfl
@[simp] theorem setAggCorrected_returned (c : Bool) : (s.setAggCorrected c).returned = s.returned := rfl
@[simp] theorem setAggCorrected_faults (c : Bool) : (s.setAggCorrected c).faults = s.faults := rfl
@[simp] theorem setAggCorrected_crcAcc (c : Bool) : (s.setAggCorrected c).crcAcc = s.crcAcc := rfl
@[simp] theorem setAggCorrected_crcValid (c : Bool) : (s.setAggCorrected c).crcValid = s.crcValid := rfl
@[simp] theorem setAggCorrected_buf (c : Bool) : (s.setAggCorrected c).buf = s.buf := rfl
@[simp] theorem setAggCorrected_bufWritten (c : Bool) : (s.setAggCorrected c).bufWritten = s.bufWritten := rfl
@[simp] theorem setAggCorrected_aggIndex (c : Bool) : (s.setAggCorrected c).aggIndex = s.aggIndex := rfl
@[simp] theorem setAggCorrected_aggCorrected (c : Bool) : (s.setAggCorrected c).aggCorrected = if s.params.fecEn then c else s.aggCorrected := rfl
@[simp] theorem setAggCorrected_aggHalfValid (c : Bool) : (s.setAggCorrected c).aggHalfValid = s.aggHalfValid := rfl
@[simp] theorem setAggCorrected_aggHalf (c : Bool) : (s.setAggCorrected c).aggHalf = s.aggHalf := rfl
@[simp] theorem setAggCorrected_frameReady (c : Bool) : (s.setAggCorrected c).frameReady = s.frameReady := rfl
@[simp] theorem setAggCorrected_frameLen (c : Bool) : (s.setAggCorrected c).frameLen = s.frameLen := rfl
@[simp] theorem setAggCorrected_frameCorrected (c : Bool) : (s.setAggCorrected c).frameCorrected = s.frameCorrected := rfl
@[simp] theorem setAggCorrected_frameHammingError (c : Bool) : (s.setAggCorrected c).frameHammingError = s.frameHammingError := rfl
@[simp] theorem setAggCorrected_frameOverrun (c : Bool) : (s.setAggCorrected c).frameOverrun = s.frameOverrun := rfl
@[simp] theorem setAggCorrected_utcReference (c : Bool) : (s.setAggCorrected c).utcReference = s.utcReference := rfl
@[simp] theorem setAggCorrected_rtcReference (c : Bool) : (s.setAggCorrected c).rtcReference = s.rtcReference := rfl

/-! `holdHalf` -/

@[simp] theorem holdHalf_params (b : Byte) : (s.holdHalf b).params = s.params := rfl
@[simp] theorem holdHalf_requests (b : Byte) : (s.holdHalf b).requests = s.requests := rfl
@[simp] theorem holdHalf_result (b : Byte) : (s.holdHalf b).result = s.result := rfl
@[simp] theorem holdHalf_returned (b : Byte) : (s.holdHalf b).returned = s.returned := rfl
@[simp] theorem holdHalf_faults (b : Byte) : (s.holdHalf b).faults = s.faults := rfl
@[simp] theorem holdHalf_crcAcc (b : Byte) : (s.holdHalf b).crcAcc = s.crcAcc := rfl
@[simp] theorem holdHalf_crcValid (b : Byte) : (s.holdHalf b).crcValid = s.crcValid := rfl
@[simp] theorem holdHalf_buf (b : Byte) : (s.holdHalf b).buf = s.buf := rfl
@[simp] theorem holdHalf_bufWritten (b : Byte) : (s.holdHalf b).bufWritten = s.bufWritten := rfl
@[simp] theorem holdHalf_aggIndex (b : Byte) : (s.holdHalf b).aggIndex = s.aggIndex := rfl
@[simp] theorem holdHalf_aggCorrected (b : Byte) : (s.holdHalf b).aggCorrected = s.aggCorrected := rfl
@[simp] theorem holdHalf_aggHalfValid (b : Byte) : (s.holdHalf b).aggHalfValid = true := rfl
@[simp] theorem holdHalf_aggHalf (b : Byte) : (s.holdHalf b).aggHalf = b := rfl
@[simp] theorem holdHalf_frameReady (b : Byte) : (s.holdHalf b).frameReady = s.frameReady := rfl
@[simp] theorem holdHalf_frameLen (b : Byte) : (s.holdHalf b).frameLen = s.frameLen := rfl
@[simp] theorem holdHalf_frameCorrected (b : Byte) : (s.holdHalf b).frameCorrected = s.frameCorrected := rfl
@[simp] theorem holdHalf_frameHammingError (b : Byte) : (s.holdHalf b).frameHammingError = s.frameHammingError := rfl
@[simp] theorem holdHalf_frameOverrun (b : Byte) : (s.holdHalf b).frameOverrun = s.frameOverrun := rfl
@[simp] theorem holdHalf_utcReference (b : Byte) : (s.holdHalf b).utcReference = s.utcReference := rfl
@[simp] theorem holdHalf_rtcReference (b : Byte) : (s.holdHalf b).rtcReference = s.rtcReference := rfl

/-! `releaseHalf` -/

@[simp] theorem releaseHalf_params : s.releaseHalf.params = s.params := rfl
@[simp] theorem releaseHalf_requests : s.releaseHalf.requests = s.requests := rfl
@[simp] theorem releaseHalf_result : s.releaseHalf.result = s.result := rfl
@[simp] theorem releaseHalf_returned : s.releaseHalf.returned = s.returned := rfl
@[simp] theorem releaseHalf_faults : s.releaseHalf.faults = s.faults := rfl
@[simp] theorem releaseHalf_crcAcc : s.releaseHalf.crcAcc = s.crcAcc := rfl
@[simp] theorem releaseHalf_crcValid : s.releaseHalf.crcValid = s.crcValid := rfl
@[simp] theorem releaseHalf_buf : s.releaseHalf.buf = s.buf := rfl
@[simp] theorem releaseHalf_bufWritten : s.releaseHalf.bufWritten = s.bufWritten := rfl
@[simp] theorem releaseHalf_aggIndex : s.releaseHalf.aggIndex = s.aggIndex := rfl
@[simp] theorem releaseHalf_aggCorrected : s.releaseHalf.aggCorrected = s.aggCorrected := rfl
@[simp] theorem releaseHalf_aggHalfValid : s.releaseHalf.aggHalfValid = false := rfl
@[simp] theorem releaseHalf_aggHalf : s.releaseHalf.aggHalf = s.aggHalf := rfl
@[simp] theorem releaseHalf_frameReady : s.releaseHalf.frameReady = s.frameReady := rfl
@[simp] theorem releaseHalf_frameLen : s.releaseHalf.frameLen = s.frameLen := rfl
@[simp] theorem releaseHalf_frameCorrected : s.releaseHalf.frameCorrected = s.frameCorrected := rfl
@[simp] theorem releaseHalf_frameHammingError : s.releaseHalf.frameHammingError = s.frameHammingError := rfl
@[simp] theorem releaseHalf_frameOverrun : s.releaseHalf.frameOverrun = s.frameOverrun := rfl
@[simp] theorem releaseHalf_utcReference : s.releaseHalf.utcReference = s.utcReference := rfl
@[simp] theorem releaseHalf_rtcReference : s.releaseHalf.rtcReference = s.rtcReference := rfl

/-! `setLatch` -/

@[simp] theorem setLatch_params (l : Latch) : (s.setLatch l).params = s.params := rfl
@[simp] theorem setLatch_requests (l : Latch) : (s.setLatch l).requests = s.requests := rfl
@[simp] theorem setLatch_result (l : Latch) : (s.setLatch l).result = s.result := rfl
@[simp] theorem setLatch_returned (l : Latch) : (s.setLatch l).returned = s.returned := rfl
@[simp] theorem setLatch_faults (l : Latch) : (s.setLatch l).faults = s.faults := rfl
@[simp] theorem setLatch_crcAcc (l : Latch) : (s.setLatch l).crcAcc = s.crcAcc := rfl
@[simp] theorem setLatch_crcValid (l : Latch) : (s.setLatch l).crcValid = s.crcValid := rfl
@[simp] theorem setLatch_buf (l : Latch) : (s.setLatch l).buf = s.buf := rfl
@[simp] theorem setLatch_bufWritten (l : Latch) : (s.setLatch l).bufWritten = s.bufWritten := rfl
@[simp] theorem setLatch_aggIndex (l : Latch) : (s.setLatch l).aggIndex = s.aggIndex := rfl
@[simp] theorem setLatch_aggCorrected (l : Latch) : (s.setLatch l).aggCorrected = s.aggCorrected := rfl
@[simp] theorem setLatch_aggHalfValid (l : Latch) : (s.setLatch l).aggHalfValid = s.aggHalfValid := rfl
@[simp] theorem setLatch_aggHalf (l : Latch) : (s.setLatch l).aggHalf = s.aggHalf := rfl
@[simp] theorem setLatch_frameReady (l : Latch) : (s.setLatch l).frameReady = l.ready := rfl
@[simp] theorem setLatch_frameLen (l : Latch) : (s.setLatch l).frameLen = l.len := rfl
@[simp] theorem setLatch_frameCorrected (l : Latch) : (s.setLatch l).frameCorrected = l.corrected := rfl
@[simp] theorem setLatch_frameHammingError (l : Latch) : (s.setLatch l).frameHammingError = l.hammingError := rfl
@[simp] theorem setLatch_frameOverrun (l : Latch) : (s.setLatch l).frameOverrun = l.overrun := rfl
@[simp] theorem setLatch_utcReference (l : Latch) : (s.setLatch l).utcReference = s.utcReference := rfl
@[simp] theorem setLatch_rtcReference (l : Latch) : (s.setLatch l).rtcReference = s.rtcReference := rfl

/-! `setReference` -/

@[simp] theorem setReference_params (u n : Word64) : (s.setReference u n).params = s.params := rfl
@[simp] theorem setReference_requests (u n : Word64) : (s.setReference u n).requests = s.requests := rfl
@[simp] theorem setReference_result (u n : Word64) : (s.setReference u n).result = s.result := rfl
@[simp] theorem setReference_returned (u n : Word64) : (s.setReference u n).returned = s.returned := rfl
@[simp] theorem setReference_faults (u n : Word64) : (s.setReference u n).faults = s.faults := rfl
@[simp] theorem setReference_crcAcc (u n : Word64) : (s.setReference u n).crcAcc = s.crcAcc := rfl
@[simp] theorem setReference_crcValid (u n : Word64) : (s.setReference u n).crcValid = s.crcValid := rfl
@[simp] theorem setReference_buf (u n : Word64) : (s.setReference u n).buf = s.buf := rfl
@[simp] theorem setReference_bufWritten (u n : Word64) : (s.setReference u n).bufWritten = s.bufWritten := rfl
@[simp] theorem setReference_aggIndex (u n : Word64) : (s.setReference u n).aggIndex = s.aggIndex := rfl
@[simp] theorem setReference_aggCorrected (u n : Word64) : (s.setReference u n).aggCorrected = s.aggCorrected := rfl
@[simp] theorem setReference_aggHalfValid (u n : Word64) : (s.setReference u n).aggHalfValid = s.aggHalfValid := rfl
@[simp] theorem setReference_aggHalf (u n : Word64) : (s.setReference u n).aggHalf = s.aggHalf := rfl
@[simp] theorem setReference_frameReady (u n : Word64) : (s.setReference u n).frameReady = s.frameReady := rfl
@[simp] theorem setReference_frameLen (u n : Word64) : (s.setReference u n).frameLen = s.frameLen := rfl
@[simp] theorem setReference_frameCorrected (u n : Word64) : (s.setReference u n).frameCorrected = s.frameCorrected := rfl
@[simp] theorem setReference_frameHammingError (u n : Word64) : (s.setReference u n).frameHammingError = s.frameHammingError := rfl
@[simp] theorem setReference_frameOverrun (u n : Word64) : (s.setReference u n).frameOverrun = s.frameOverrun := rfl
@[simp] theorem setReference_utcReference (u n : Word64) : (s.setReference u n).utcReference = u := rfl
@[simp] theorem setReference_rtcReference (u n : Word64) : (s.setReference u n).rtcReference = n := rfl

/-! `takeRequest` -/

@[simp] theorem takeRequest_params (c : Bool) : (takeRequest c s).params = s.params := rfl
@[simp] theorem takeRequest_requests (c : Bool) : (takeRequest c s).requests = s.requests := rfl
@[simp] theorem takeRequest_result (c : Bool) : (takeRequest c s).result = s.result := rfl
@[simp] theorem takeRequest_returned (c : Bool) : (takeRequest c s).returned = s.returned := rfl
@[simp] theorem takeRequest_faults (c : Bool) : (takeRequest c s).faults = s.faults := rfl
@[simp] theorem takeRequest_crcAcc (c : Bool) : (takeRequest c s).crcAcc = s.crcAcc := rfl
@[simp] theorem takeRequest_crcValid (c : Bool) : (takeRequest c s).crcValid = s.crcValid := rfl
@[simp] theorem takeRequest_buf (c : Bool) : (takeRequest c s).buf = s.buf := rfl
@[simp] theorem takeRequest_bufWritten (c : Bool) : (takeRequest c s).bufWritten = s.bufWritten := rfl
@[simp] theorem takeRequest_aggIndex (c : Bool) : (takeRequest c s).aggIndex = s.aggIndex := rfl
@[simp] theorem takeRequest_aggCorrected (c : Bool) : (takeRequest c s).aggCorrected = s.aggCorrected := rfl
@[simp] theorem takeRequest_aggHalfValid (c : Bool) : (takeRequest c s).aggHalfValid = s.aggHalfValid := rfl
@[simp] theorem takeRequest_aggHalf (c : Bool) : (takeRequest c s).aggHalf = s.aggHalf := rfl
@[simp] theorem takeRequest_frameReady (c : Bool) : (takeRequest c s).frameReady = false := rfl
@[simp] theorem takeRequest_frameLen (c : Bool) : (takeRequest c s).frameLen = s.frameLen := rfl
@[simp] theorem takeRequest_frameCorrected (c : Bool) : (takeRequest c s).frameCorrected = s.frameCorrected := rfl
@[simp] theorem takeRequest_frameHammingError (c : Bool) : (takeRequest c s).frameHammingError = s.frameHammingError := rfl
@[simp] theorem takeRequest_frameOverrun (c : Bool) : (takeRequest c s).frameOverrun = overrunAfterTake c s := rfl
@[simp] theorem takeRequest_utcReference (c : Bool) : (takeRequest c s).utcReference = s.utcReference := rfl
@[simp] theorem takeRequest_rtcReference (c : Bool) : (takeRequest c s).rtcReference = s.rtcReference := rfl

/-! `issueNext` -/

@[simp] theorem issueNext_params (r : Request) : (issueNext r s).params = s.params := rfl
@[simp] theorem issueNext_requests (r : Request) : (issueNext r s).requests = r :: s.requests := rfl
@[simp] theorem issueNext_result (r : Request) : (issueNext r s).result = s.result := rfl
@[simp] theorem issueNext_returned (r : Request) : (issueNext r s).returned = s.returned := rfl
@[simp] theorem issueNext_faults (r : Request) : (issueNext r s).faults = s.faults := rfl
@[simp] theorem issueNext_crcAcc (r : Request) : (issueNext r s).crcAcc = s.crcAcc := rfl
@[simp] theorem issueNext_crcValid (r : Request) : (issueNext r s).crcValid = s.crcValid := rfl
@[simp] theorem issueNext_buf (r : Request) : (issueNext r s).buf = s.buf := rfl
@[simp] theorem issueNext_bufWritten (r : Request) : (issueNext r s).bufWritten = s.bufWritten := rfl
@[simp] theorem issueNext_aggIndex (r : Request) : (issueNext r s).aggIndex = s.aggIndex := rfl
@[simp] theorem issueNext_aggCorrected (r : Request) : (issueNext r s).aggCorrected = s.aggCorrected := rfl
@[simp] theorem issueNext_aggHalfValid (r : Request) : (issueNext r s).aggHalfValid = s.aggHalfValid := rfl
@[simp] theorem issueNext_aggHalf (r : Request) : (issueNext r s).aggHalf = s.aggHalf := rfl
@[simp] theorem issueNext_frameReady (r : Request) : (issueNext r s).frameReady = s.frameReady := rfl
@[simp] theorem issueNext_frameLen (r : Request) : (issueNext r s).frameLen = s.frameLen := rfl
@[simp] theorem issueNext_frameCorrected (r : Request) : (issueNext r s).frameCorrected = s.frameCorrected := rfl
@[simp] theorem issueNext_frameHammingError (r : Request) : (issueNext r s).frameHammingError = s.frameHammingError := rfl
@[simp] theorem issueNext_frameOverrun (r : Request) : (issueNext r s).frameOverrun = s.frameOverrun := rfl
@[simp] theorem issueNext_utcReference (r : Request) : (issueNext r s).utcReference = s.utcReference := rfl
@[simp] theorem issueNext_rtcReference (r : Request) : (issueNext r s).rtcReference = s.rtcReference := rfl

/-! `noteReturn` -/

@[simp] theorem noteReturn_params (a : Agent) : (s.noteReturn a).params = s.params := rfl
@[simp] theorem noteReturn_requests (a : Agent) : (s.noteReturn a).requests = s.requests := rfl
@[simp] theorem noteReturn_result (a : Agent) : (s.noteReturn a).result = s.result := rfl
@[simp] theorem noteReturn_returned (a : Agent) : (s.noteReturn a).returned = s.returned ++ returnsOf a s.result := rfl
@[simp] theorem noteReturn_faults (a : Agent) : (s.noteReturn a).faults = s.faults := rfl
@[simp] theorem noteReturn_crcAcc (a : Agent) : (s.noteReturn a).crcAcc = s.crcAcc := rfl
@[simp] theorem noteReturn_crcValid (a : Agent) : (s.noteReturn a).crcValid = s.crcValid := rfl
@[simp] theorem noteReturn_buf (a : Agent) : (s.noteReturn a).buf = s.buf := rfl
@[simp] theorem noteReturn_bufWritten (a : Agent) : (s.noteReturn a).bufWritten = s.bufWritten := rfl
@[simp] theorem noteReturn_aggIndex (a : Agent) : (s.noteReturn a).aggIndex = s.aggIndex := rfl
@[simp] theorem noteReturn_aggCorrected (a : Agent) : (s.noteReturn a).aggCorrected = s.aggCorrected := rfl
@[simp] theorem noteReturn_aggHalfValid (a : Agent) : (s.noteReturn a).aggHalfValid = s.aggHalfValid := rfl
@[simp] theorem noteReturn_aggHalf (a : Agent) : (s.noteReturn a).aggHalf = s.aggHalf := rfl
@[simp] theorem noteReturn_frameReady (a : Agent) : (s.noteReturn a).frameReady = s.frameReady := rfl
@[simp] theorem noteReturn_frameLen (a : Agent) : (s.noteReturn a).frameLen = s.frameLen := rfl
@[simp] theorem noteReturn_frameCorrected (a : Agent) : (s.noteReturn a).frameCorrected = s.frameCorrected := rfl
@[simp] theorem noteReturn_frameHammingError (a : Agent) : (s.noteReturn a).frameHammingError = s.frameHammingError := rfl
@[simp] theorem noteReturn_frameOverrun (a : Agent) : (s.noteReturn a).frameOverrun = s.frameOverrun := rfl
@[simp] theorem noteReturn_utcReference (a : Agent) : (s.noteReturn a).utcReference = s.utcReference := rfl
@[simp] theorem noteReturn_rtcReference (a : Agent) : (s.noteReturn a).rtcReference = s.rtcReference := rfl

/-! `recordFault` -/

@[simp] theorem recordFault_params (f : Fault) : (s.recordFault f).params = s.params := rfl
@[simp] theorem recordFault_requests (f : Fault) : (s.recordFault f).requests = s.requests := rfl
@[simp] theorem recordFault_result (f : Fault) : (s.recordFault f).result = .none := rfl
@[simp] theorem recordFault_returned (f : Fault) : (s.recordFault f).returned = s.returned := rfl
@[simp] theorem recordFault_faults (f : Fault) : (s.recordFault f).faults = s.faults ++ [f] := rfl
@[simp] theorem recordFault_crcAcc (f : Fault) : (s.recordFault f).crcAcc = s.crcAcc := rfl
@[simp] theorem recordFault_crcValid (f : Fault) : (s.recordFault f).crcValid = s.crcValid := rfl
@[simp] theorem recordFault_buf (f : Fault) : (s.recordFault f).buf = s.buf := rfl
@[simp] theorem recordFault_bufWritten (f : Fault) : (s.recordFault f).bufWritten = s.bufWritten := rfl
@[simp] theorem recordFault_aggIndex (f : Fault) : (s.recordFault f).aggIndex = s.aggIndex := rfl
@[simp] theorem recordFault_aggCorrected (f : Fault) : (s.recordFault f).aggCorrected = s.aggCorrected := rfl
@[simp] theorem recordFault_aggHalfValid (f : Fault) : (s.recordFault f).aggHalfValid = s.aggHalfValid := rfl
@[simp] theorem recordFault_aggHalf (f : Fault) : (s.recordFault f).aggHalf = s.aggHalf := rfl
@[simp] theorem recordFault_frameReady (f : Fault) : (s.recordFault f).frameReady = s.frameReady := rfl
@[simp] theorem recordFault_frameLen (f : Fault) : (s.recordFault f).frameLen = s.frameLen := rfl
@[simp] theorem recordFault_frameCorrected (f : Fault) : (s.recordFault f).frameCorrected = s.frameCorrected := rfl
@[simp] theorem recordFault_frameHammingError (f : Fault) : (s.recordFault f).frameHammingError = s.frameHammingError := rfl
@[simp] theorem recordFault_frameOverrun (f : Fault) : (s.recordFault f).frameOverrun = s.frameOverrun := rfl
@[simp] theorem recordFault_utcReference (f : Fault) : (s.recordFault f).utcReference = s.utcReference := rfl
@[simp] theorem recordFault_rtcReference (f : Fault) : (s.recordFault f).rtcReference = s.rtcReference := rfl

/-! `returnsOf` -/

@[simp] theorem returnsOf_none (a : Agent) : returnsOf a .none = [] := rfl

theorem returnsOf_of_ne {a : Agent} {r : Result} (h : r ≠ .none) : returnsOf a r = [⟨a, r⟩] := by simp [returnsOf, h]

/-! `endOperation` -/

@[simp] theorem endOperation_next (a : Agent) (t : State) : endOperation a s (.next t) = .next (t.noteReturn a) := rfl

theorem endOperation_raised {a : Agent} {f : Fault} (h : f.isRaised = true) :
    endOperation a s (.fault f) = .next (s.recordFault f) := by simp [endOperation, h]

theorem endOperation_stop {a : Agent} {f : Fault} (h : f.isRaised = false) :
    endOperation a s (.fault f) = .fault f := by simp [endOperation, h]

end Sys2Proof.Machine
end

