-- ==== Sys2Proof/Laws/Memory.lean ====
section
/-! SUPPORT. The laws of the command buffer: read after write, the canonical form, and what a range read answers. -/

namespace Sys2Proof.Machine

theorem memory_read_nil (a : Nat) : Memory.read [] a = none := rfl

theorem memory_read_cons (k : Nat) (v : Byte) (m : Memory) (a : Nat) :
    Memory.read ((k, v) :: m) a = if k = a then some v else Memory.read m a := rfl

/-- Reading the index just stored to gives the stored byte. -/
@[simp] theorem memory_read_write_same (m : Memory) (a : Nat) (b : Byte) : (Memory.write m a b).read a = some b := by
  induction m with
  | nil => simp [Memory.write, Memory.read]
  | cons c m ih =>
    obtain ⟨k, v⟩ := c
    unfold Memory.write
    split_ifs with h1 h2
    · simp [Memory.read]
    · simp [Memory.read]
    · have : ¬ k = a := fun h => h2 h.symm
      simpa [Memory.read, this] using ih

/-- A store leaves every other index alone. -/
theorem memory_read_write_other (m : Memory) (a i : Nat) (b : Byte) (h : i ≠ a) :
    (Memory.write m a b).read i = m.read i := by
  induction m with
  | nil => simp [Memory.write, Memory.read, Ne.symm h]
  | cons c m ih =>
    obtain ⟨k, v⟩ := c
    unfold Memory.write
    split_ifs with h1 h2
    · simp [Memory.read, Ne.symm h]
    · subst h2
      simp [Memory.read, Ne.symm h]
    · simp only [Memory.read]
      rw [ih]

/-- A store adds no index but its own. -/
theorem memory_mem_write (m : Memory) (a : Nat) (b : Byte) (c : Host.Cell) (h : c ∈ Memory.write m a b) :
    c = (a, b) ∨ c ∈ m := by
  induction m with
  | nil => simpa [Memory.write] using h
  | cons d m ih =>
    obtain ⟨k, v⟩ := d
    unfold Memory.write at h
    split_ifs at h with h1 h2
    · simpa using h
    · rcases List.mem_cons.mp h with h | h
      · exact .inl h
      · exact .inr (List.mem_cons_of_mem _ h)
    · rcases List.mem_cons.mp h with h | h
      · exact .inr (h ▸ List.mem_cons_self)
      · exact (ih h).imp_right (List.mem_cons_of_mem _)

/-- The empty buffer is in canonical form. -/
theorem memory_wf_nil : Memory.wf [] := by simp [Memory.wf]

/-- Every listed byte has a value, so the second half of the canonical form always holds (log 10). -/
theorem memory_listed_ne_unlisted (m : Memory) : ∀ c ∈ m, some c.2 ≠ Memory.unlisted := by
  intro c _
  simp [Memory.unlisted]

/-- A store keeps the canonical form. -/
theorem memory_write_wf (m : Memory) (a : Nat) (b : Byte) (h : Memory.wf m) : Memory.wf (Memory.write m a b) := by
  refine ⟨?_, memory_listed_ne_unlisted _⟩
  replace h := h.1
  induction m with
  | nil => simp [Memory.write]
  | cons d m ih =>
    obtain ⟨k, v⟩ := d
    obtain ⟨hk, hm⟩ := List.pairwise_cons.mp h
    unfold Memory.write
    split_ifs with h1 h2
    · refine List.pairwise_cons.mpr ⟨?_, h⟩
      intro c hc
      rcases List.mem_cons.mp hc with hc | hc
      · simpa [hc] using h1
      · exact lt_trans h1 (hk c hc)
    · subst h2
      exact List.pairwise_cons.mpr ⟨hk, hm⟩
    · refine List.pairwise_cons.mpr ⟨?_, ih hm⟩
      intro c hc
      rcases memory_mem_write m a b c hc with hc | hc
      · have : k < a := by omega
        simpa [hc] using this
      · exact hk c hc

/-- What `MemRead` answers, when it answers a byte. -/
theorem memRead_ok {a : Nat} {s : State} {b : Byte} :
    memRead a s = .ok b ↔ a < s.params.cap ∧ s.buf.read a = some b := by
  unfold memRead
  split_ifs with h
  · simp [Nat.not_lt.mpr h]
  · cases hr : s.buf.read a <;> simp [Nat.lt_of_not_le h]

/-- What `MemWrite` answers, when it answers a state. -/
theorem memWrite_ok {a : Nat} {v : Byte} {s t : State} :
    memWrite a v s = .ok t ↔ a < s.params.cap ∧ t = s.setBuf (s.buf.write a v) (max s.bufWritten (a + 1)) := by
  unfold memWrite
  split_ifs with h
  · simp [Nat.not_lt.mpr h]
  · simp [Nat.lt_of_not_le h, eq_comm]

/-- What a range read answers, when it answers bytes: one byte per index, each inside the buffer and written. -/
theorem memReadRange_ok {s : State} {a n : Nat} {e : List Byte} :
    memReadRange s a n = .ok e ↔
      e.length = n ∧ ∀ k (h : k < e.length), a + k < s.params.cap ∧ s.buf.read (a + k) = some e[k] := by
  induction n generalizing a e with
  | zero =>
    constructor
    · intro h
      cases h
      exact ⟨rfl, fun k hk => absurd hk (Nat.not_lt_zero k)⟩
    · rintro ⟨h, -⟩
      rw [List.length_eq_zero_iff.mp h]
      rfl
  | succ n ih =>
    constructor
    · intro h
      unfold memReadRange at h
      split at h
      · cases h
      · rename_i b hb
        split at h
        · cases h
        · rename_i rest hrest
          cases h
          obtain ⟨hl, hr⟩ := ih.mp hrest
          refine ⟨by simp [hl], ?_⟩
          intro k hk
          cases k with
          | zero => simpa using memRead_ok.mp hb
          | succ k =>
            have := hr k (by simpa using hk)
            simpa [Nat.add_assoc, Nat.add_comm 1 k] using this
    · rintro ⟨hl, hr⟩
      cases e with
      | nil => simp at hl
      | cons b rest =>
        have hb : memRead a s = .ok b := memRead_ok.mpr (hr 0 (Nat.zero_lt_succ _))
        have hrest : memReadRange s (a + 1) n = .ok rest := by
          refine ih.mpr ⟨by simpa using hl, ?_⟩
          intro k hk
          have := hr (k + 1) (by simpa using hk)
          simpa [Nat.add_assoc, Nat.add_comm 1 k] using this
        simp only [memReadRange, hb, hrest]

end Sys2Proof.Machine
end

