-- ==== Sys2Proof/Laws/Ops.lean ====
section
/-! SUPPORT. What each shared operation can do, said once: the hand-off, the store of a decoded byte, the body of
`AGG.PUSH`, and one step. -/

namespace Sys2Proof.Machine

/-! ## The hand-off -/

variable (e : Bool) (s : State)

@[simp] theorem handoff_params : (handoff e s).params = s.params := rfl
@[simp] theorem handoff_requests : (handoff e s).requests = s.requests := rfl
@[simp] theorem handoff_result : (handoff e s).result = s.result := rfl
@[simp] theorem handoff_returned : (handoff e s).returned = s.returned := rfl
@[simp] theorem handoff_faults : (handoff e s).faults = s.faults := rfl
@[simp] theorem handoff_crcAcc : (handoff e s).crcAcc = s.crcAcc := rfl
@[simp] theorem handoff_crcValid : (handoff e s).crcValid = s.crcValid := rfl
@[simp] theorem handoff_buf : (handoff e s).buf = s.buf := rfl
@[simp] theorem handoff_bufWritten : (handoff e s).bufWritten = s.bufWritten := rfl
@[simp] theorem handoff_aggIndex : (handoff e s).aggIndex = 0 := rfl
@[simp] theorem handoff_aggCorrected :
    (handoff e s).aggCorrected = if s.params.fecEn then false else s.aggCorrected := rfl
@[simp] theorem handoff_aggHalfValid : (handoff e s).aggHalfValid = s.aggHalfValid := rfl
@[simp] theorem handoff_aggHalf : (handoff e s).aggHalf = s.aggHalf := rfl
@[simp] theorem handoff_frameReady : (handoff e s).frameReady = true := rfl
@[simp] theorem handoff_frameLen : (handoff e s).frameLen = s.aggIndex := rfl
@[simp] theorem handoff_frameCorrected : (handoff e s).frameCorrected = readAggCorrected s := rfl
@[simp] theorem handoff_frameHammingError : (handoff e s).frameHammingError = e := rfl
@[simp] theorem handoff_frameOverrun : (handoff e s).frameOverrun = (s.frameReady || s.frameOverrun) := rfl
@[simp] theorem handoff_utcReference : (handoff e s).utcReference = s.utcReference := rfl
@[simp] theorem handoff_rtcReference : (handoff e s).rtcReference = s.rtcReference := rfl

end Sys2Proof.Machine

namespace Sys2Proof.Machine

/-! ## The store of a decoded byte and the body of `AGG.PUSH` -/

/-- The state after the store and the advance of R163, before the completion test. -/
def advanced (b : Byte) (s : State) : State :=
  (s.setBuf (s.buf.write s.aggIndex b) (max s.bufWritten (s.aggIndex + 1))).setAggIndex (s.aggIndex + 1)

/-- Inside the buffer the store completes: it advances, and hands off exactly when the frame is complete. -/
theorem storeAndAdvance_of_lt {b : Byte} {s : State} (h : s.aggIndex < s.params.cap) :
    storeAndAdvance b s =
      .ok (if frameComplete b (s.aggIndex + 1) s.params then handoff false (advanced b s) else advanced b s) := by
  have hw := (memWrite_ok (v := b) (t := s.setBuf (s.buf.write s.aggIndex b) (max s.bufWritten (s.aggIndex + 1)))).mpr ⟨h, rfl⟩
  simp only [storeAndAdvance, hw]
  rfl

/-- Outside the buffer the store stops (log 12). -/
theorem storeAndAdvance_of_le {b : Byte} {s : State} (h : s.params.cap ≤ s.aggIndex) :
    storeAndAdvance b s = .error (.storeOutOfRange s.aggIndex) := by
  simp [storeAndAdvance, memWrite, h]

/-- Everything the store can do when it completes. -/
theorem storeAndAdvance_ok {b : Byte} {s t : State} (h : storeAndAdvance b s = .ok t) :
    s.aggIndex < s.params.cap ∧
      ((frameComplete b (s.aggIndex + 1) s.params = true ∧ t = handoff false (advanced b s)) ∨
        (frameComplete b (s.aggIndex + 1) s.params = false ∧ t = advanced b s)) := by
  rcases Nat.lt_or_ge s.aggIndex s.params.cap with hlt | hge
  · refine ⟨hlt, ?_⟩
    rw [storeAndAdvance_of_lt hlt] at h
    cases hc : frameComplete b (s.aggIndex + 1) s.params
    · right
      simpa [hc, eq_comm] using h
    · left
      simpa [hc, eq_comm] using h
  · rw [storeAndAdvance_of_le hge] at h
    cases h

/-- Everything the body of `AGG.PUSH` can do when it completes (R163, R165): store the byte as it is, hold the first of
a pair, store the decoded byte of a pair, or hand a partial frame off after an undecodable pair. -/
theorem pushByte_ok {b : Byte} {s t : State} (h : pushByte b s = .ok t) :
    (s.params.fecEn = false ∧ storeAndAdvance b s = .ok t) ∨
    (s.params.fecEn = true ∧ s.aggHalfValid = false ∧ t = s.holdHalf b) ∨
    (∃ lo hi, s.params.fecEn = true ∧ s.aggHalfValid = true ∧ hamDec s.aggHalf = some lo ∧ hamDec b = some hi ∧
      storeAndAdvance (joinNibbles lo.v hi.v)
        (s.releaseHalf.setAggCorrected (readAggCorrected s || lo.corrected || hi.corrected)) = .ok t) ∨
    (s.params.fecEn = true ∧ s.aggHalfValid = true ∧ (hamDec s.aggHalf = none ∨ hamDec b = none) ∧
      t = handoff true s.releaseHalf) := by
  unfold pushByte at h
  split_ifs at h with hf hv
  · right; right
    unfold pushSecond at h
    cases hlo : hamDec s.aggHalf with
    | none => right; exact ⟨hf, hv, .inl rfl, by simpa [hlo, eq_comm] using h⟩
    | some lo =>
      cases hhi : hamDec b with
      | none => right; exact ⟨hf, hv, .inr rfl, by simpa [hlo, hhi, eq_comm] using h⟩
      | some hi => left; exact ⟨lo, hi, hf, hv, rfl, rfl, by simpa [hlo, hhi] using h⟩
  · right; left
    exact ⟨hf, by simpa using hv, by simpa [eq_comm] using h⟩
  · left
    exact ⟨by simpa using hf, h⟩

/-! ## One step -/

/-- With nothing issued the block does nothing. -/
theorem step_idle {s : State} (h : s.requests = []) : step s = .next s := by
  simp [step, nextRequest, h]

/-- The next request is decoded and performed on the state without it, and ended. -/
theorem step_cons {s : State} {r : Request} {rest : List Request} (h : s.requests = r :: rest) :
    step s = endOperation r.agent { s with requests := rest }
      (match decode r with
      | .illegal op => .fault (.illegalOperation op)
      | .operation i => exec i { s with requests := rest }) := by
  have hn : nextRequest s = some (r, { s with requests := rest }) := by simp [nextRequest, h]
  cases hd : decode r <;> simp [step, hn, hd]

/-- A request that decodes to an operation: its meaning, ended. -/
theorem step_operation {s : State} {r : Request} {rest : List Request} {i : Instr} (h : s.requests = r :: rest)
    (hd : decode r = .operation i) :
    step s = endOperation r.agent { s with requests := rest } (exec i { s with requests := rest }) := by
  simp [step_cons h, hd]

/-- A request with a reserved code: the fault is recorded. -/
theorem step_illegal {s : State} {r : Request} {rest : List Request} {op : Byte} (h : s.requests = r :: rest)
    (hd : decode r = .illegal op) :
    step s = .next (State.recordFault (.illegalOperation op) { s with requests := rest }) := by
  simp [step_cons h, hd, endOperation, Fault.isRaised]

/-- Everything a step can do when it answers a next state: nothing was issued; an operation completed and its result is
noted; or an operation, or a reserved code, raised a fault, which is recorded on the state before it. -/
theorem step_next {s t : State} (h : step s = .next t) :
    (s.requests = [] ∧ t = s) ∨
    ∃ r rest, s.requests = r :: rest ∧
      ((∃ i u, decode r = .operation i ∧ exec i { s with requests := rest } = .next u ∧ t = u.noteReturn r.agent) ∨
       (∃ i f, decode r = .operation i ∧ exec i { s with requests := rest } = .fault f ∧ f.isRaised = true ∧
          t = State.recordFault f { s with requests := rest }) ∨
       (∃ op, decode r = .illegal op ∧ t = State.recordFault (.illegalOperation op) { s with requests := rest })) := by
  cases hq : s.requests with
  | nil =>
    rw [step_idle hq] at h
    exact .inl ⟨rfl, by simpa [eq_comm] using h⟩
  | cons r rest =>
    refine .inr ⟨r, rest, rfl, ?_⟩
    cases hd : decode r with
    | illegal op =>
      rw [step_illegal hq hd] at h
      exact .inr (.inr ⟨op, rfl, by simpa [eq_comm] using h⟩)
    | operation i =>
      rw [step_operation hq hd] at h
      cases hx : exec i { s with requests := rest } with
      | next u => exact .inl ⟨i, u, rfl, hx, by simpa [hx, eq_comm] using h⟩
      | fault f =>
        cases hf : f.isRaised
        · simp [hx, endOperation, hf] at h
        · exact .inr (.inl ⟨i, f, rfl, hx, hf, by simpa [hx, endOperation, hf, eq_comm] using h⟩)
      | refused x => simp [hx, endOperation] at h

end Sys2Proof.Machine
end

