-- ==== Sys2Proof/Laws/PerInstr.lean ====
section
/-! SUPPORT. Statements about every operation as syntax, one lemma per constructor. -/

/-- The operation's request uses the code of a row of the code map and drives only the inputs of that row's format
(30_encoding.md R69, R70). -/
def Sys2Proof.Laws.TableRow.Statement (i : Sys2Proof.Instr) : Prop :=
  ∃ row ∈ Sys2Proof.opTable, row.code = i.code ∧ i.operands.restrict row.format = i.operands

namespace Sys2Proof.Laws.TableRow

theorem crcInit : Statement .crcInit := ⟨⟨0x10, "CRC.INIT", .N⟩, by decide, rfl, rfl⟩
theorem crcUpdate (b : Byte) : Statement (.crcUpdate b) := ⟨⟨0x11, "CRC.UPDATE", .B⟩, by decide, rfl, rfl⟩
theorem crcFinal : Statement .crcFinal := ⟨⟨0x12, "CRC.FINAL", .N⟩, by decide, rfl, rfl⟩
theorem crcBlock (s : List Byte) : Statement (.crcBlock s) := ⟨⟨0x13, "CRC.BLOCK", .S⟩, by decide, rfl, rfl⟩
theorem cobsEnc (p : List Byte) : Statement (.cobsEnc p) := ⟨⟨0x20, "COBS.ENC", .S⟩, by decide, rfl, rfl⟩
theorem cobsDec (e : List Byte) : Statement (.cobsDec e) := ⟨⟨0x21, "COBS.DEC", .S⟩, by decide, rfl, rfl⟩
theorem hamEnc (v : Nibble) : Statement (.hamEnc v) := ⟨⟨0x30, "HAM.ENC", .H⟩, by decide, rfl, rfl⟩
theorem hamDec (h : Byte) : Statement (.hamDec h) := ⟨⟨0x31, "HAM.DEC", .B⟩, by decide, rfl, rfl⟩
theorem fecExpand (s : List Byte) : Statement (.fecExpand s) := ⟨⟨0x32, "FEC.EXPAND", .S⟩, by decide, rfl, rfl⟩
theorem fecCompress (w : List Byte) : Statement (.fecCompress w) := ⟨⟨0x33, "FEC.COMPRESS", .S⟩, by decide, rfl, rfl⟩
theorem frameEnc (p : List Byte) : Statement (.frameEnc p) := ⟨⟨0x40, "FRAME.ENC", .S⟩, by decide, rfl, rfl⟩
theorem frameDec (w : List Byte) : Statement (.frameDec w) := ⟨⟨0x41, "FRAME.DEC", .S⟩, by decide, rfl, rfl⟩
theorem frameChk : Statement .frameChk := ⟨⟨0x42, "FRAME.CHK", .N⟩, by decide, rfl, rfl⟩
theorem aggPush (b : Byte) : Statement (.aggPush b) := ⟨⟨0x50, "AGG.PUSH", .B⟩, by decide, rfl, rfl⟩
theorem aggTake (c : Bool) : Statement (.aggTake c) := ⟨⟨0x51, "AGG.TAKE", .T⟩, by decide, rfl, rfl⟩
theorem aggRdbuf (idx : Nat) : Statement (.aggRdbuf idx) := ⟨⟨0x52, "AGG.RDBUF", .I⟩, by decide, rfl, rfl⟩
theorem trefRebase (t n : Word64) : Statement (.trefRebase t n) := ⟨⟨0x60, "TREF.REBASE", .Q⟩, by decide, rfl, rfl⟩
theorem trefGet (n : Word64) : Statement (.trefGet n) := ⟨⟨0x61, "TREF.GET", .R⟩, by decide, rfl, rfl⟩
theorem trefIsset : Statement .trefIsset := ⟨⟨0x62, "TREF.ISSET", .N⟩, by decide, rfl, rfl⟩

end Sys2Proof.Laws.TableRow
end

