-- ==== Sys2Proof/Tests/Slice0.lean ====
section
/-! SUPPORT. Tests of the model on small states, with expected values from the spec (each names its rule or vector), and
the witnesses that the hypotheses of the obligations can be met. -/

namespace Sys2Proof.Tests

open Sys2Proof Sys2Proof.Machine

/-- A reset machine with parameters `p` and the requests `q` issued. -/
def issued (p : Params) (q : List Request) : State := { State.resetFor p with requests := q }

/-- `PAYLOAD_MAX = 4` without FEC, the parameters of 95_test_vectors.md V6. -/
def plain4 : Params := Params.ofSpec false 4

/-- `PAYLOAD_MAX = 4` with FEC. -/
def fec4 : Params := Params.ofSpec true 4

/-- The result of the next state of an outcome. -/
def resultOf (o : Host.Outcome State Fault Refusal) : Option Result := (nextState? o).map (·.result)

/-! ## Well-formedness: each check refuses an ill-formed term -/

theorem test_wf_payload_too_long : Instr.wf plain4 (.frameEnc [1, 2, 3, 4, 5]) = false := by decide
theorem test_wf_payload_fits : Instr.wf plain4 (.frameEnc [1, 2, 3, 4]) = true := by decide
theorem test_wf_index_past_buffer : Instr.wf plain4 (.aggRdbuf 10) = false := by decide
theorem test_wf_index_last : Instr.wf plain4 (.aggRdbuf 9) = true := by decide
theorem test_request_reserved_code : Request.legalCode ⟨.client, 0x14, {}⟩ = false := by decide
theorem test_request_unused_input_driven : Request.unusedAtRest ⟨.client, 0x10, { byte := 1 }⟩ = false := by decide
theorem test_request_ill_formed : Request.wf ⟨.client, 0x63, {}⟩ = false := by decide
theorem test_request_against_convention : Request.byConvention ⟨.client, 0x50, {}⟩ = false := by decide

/-! ## Decoding: every constructor from the word of R70, written bit by bit, with its operands -/

theorem test_decode_crc :
    decode ⟨.client, 0b00010000, {}⟩ = .operation .crcInit ∧
    decode ⟨.client, 0b00010001, { byte := 0x31 }⟩ = .operation (.crcUpdate 0x31) ∧
    decode ⟨.client, 0b00010010, {}⟩ = .operation .crcFinal ∧
    decode ⟨.client, 0b00010011, { bytes := [1, 2] }⟩ = .operation (.crcBlock [1, 2]) := by decide

theorem test_decode_cobs :
    decode ⟨.client, 0b00100000, { bytes := [1] }⟩ = .operation (.cobsEnc [1]) ∧
    decode ⟨.client, 0b00100001, { bytes := [1, 0] }⟩ = .operation (.cobsDec [1, 0]) := by decide

theorem test_decode_hamming :
    decode ⟨.client, 0b00110000, { nibble := 0x9 }⟩ = .operation (.hamEnc 0x9) ∧
    decode ⟨.client, 0b00110001, { byte := 0xC8 }⟩ = .operation (.hamDec 0xC8) ∧
    decode ⟨.client, 0b00110010, { bytes := [0x48] }⟩ = .operation (.fecExpand [0x48]) ∧
    decode ⟨.client, 0b00110011, { bytes := [0x4B] }⟩ = .operation (.fecCompress [0x4B]) := by decide

theorem test_decode_frame :
    decode ⟨.client, 0b01000000, { bytes := [1] }⟩ = .operation (.frameEnc [1]) ∧
    decode ⟨.client, 0b01000001, { bytes := [0] }⟩ = .operation (.frameDec [0]) ∧
    decode ⟨.client, 0b01000010, {}⟩ = .operation .frameChk := by decide

theorem test_decode_aggregator :
    decode ⟨.byteSource, 0b01010000, { byte := 0x06 }⟩ = .operation (.aggPush 0x06) ∧
    decode ⟨.client, 0b01010001, { clearOverrun := true }⟩ = .operation (.aggTake true) ∧
    decode ⟨.client, 0b01010010, { idx := 300 }⟩ = .operation (.aggRdbuf 300) := by decide

theorem test_decode_time :
    decode ⟨.client, 0b01100000, { t := 1000, rtcNow := 5000 }⟩ = .operation (.trefRebase 1000 5000) ∧
    decode ⟨.client, 0b01100001, { rtcNow := 65000 }⟩ = .operation (.trefGet 65000) ∧
    decode ⟨.client, 0b01100010, {}⟩ = .operation .trefIsset := by decide

/-- V8: reserved codes next to the legal ones. -/
theorem test_decode_reserved :
    ∀ op ∈ ([0x00, 0x0F, 0x14, 0x22, 0x34, 0x43, 0x53, 0x63, 0x70, 0xFF] : List Byte),
      decode ⟨.client, op, {}⟩ = .illegal op := by decide

theorem test_step_after_withFetchWord :
    resultOf (step (State.reset.withFetchWord 8 0x62)) = some (.isSet false) := by decide

/-- R203: a fault is recorded, and the next operation, of another agent, runs. -/
theorem test_run_goes_on_after_fault :
    (nextState? (runSteps 2 (issued plain4 [encode .client .crcFinal, encode .byteSource (.aggPush 0x01)]))).map
      (fun t => (t.faults, t.buf, t.crcValid)) = some ([.crcNotInitialised], [(0, 0x01)], false) := by decide

/-- R74: the pair of results of a `DISPATCH`, with a lone `00` pushed between its two operations. -/
theorem test_dispatch_result :
    (nextState? (runSteps 3 (issued plain4 [encode .client .frameChk,
      encode .byteSource (.aggPush 0x00), encode .client (.aggTake false)]))).bind (·.dispatchResult) =
      some (.failed .decodeError, .latch ⟨true, 1, false, false, false⟩) := by decide +kernel

/-! ## CRC32 generator: V1 -/

theorem test_crc_init : (nextState? (exec .crcInit State.reset)).map (·.crcValid) = some true := by decide

/-- V1.3, first update. -/
theorem test_crc_update :
    (nextState? (exec (.crcUpdate 0x31) { State.reset with crcValid := true })).map (·.crcAcc) = some 0xD0F37027 := by
  decide +kernel

/-- V1.5. -/
theorem test_crc_update_faults : faultOf? (exec (.crcUpdate 0x31) State.reset) = some .crcNotInitialised := by decide

/-- V1.3, the last line. -/
theorem test_crc_final :
    resultOf (exec .crcFinal { State.reset with crcValid := true, crcAcc := 0x89A1897F }) =
      some (.crc 0x765E7680) := by decide +kernel

/-- V1.1, the check value of R96. -/
theorem test_crc_block :
    resultOf (exec (.crcBlock [0x31, 0x32, 0x33, 0x34, 0x35, 0x36, 0x37, 0x38, 0x39]) State.reset) =
      some (.okCrc 0x765E7680) := by decide +kernel

/-! ## COBS: V2 -/

theorem test_cobs_enc :
    resultOf (exec (.cobsEnc [0x11, 0x00, 0x00, 0x00]) State.reset) =
      some (.okBytes [0x02, 0x11, 0x01, 0x01, 0x01, 0x00]) := by decide +kernel

/-- V2.2: 254 non-zero bytes make one full block and no `01`; one zero more makes two further code bytes. -/
theorem test_cobs_enc_full_block :
    (cobsEncode (List.replicate 254 0x07)).length = 256 ∧
    (cobsEncode (List.replicate 254 0x07 ++ [0x00])).drop 255 = [0x01, 0x01, 0x00] := by decide +kernel

theorem test_cobs_dec :
    resultOf (exec (.cobsDec [0x03, 0x11, 0x22, 0x02, 0x33, 0x00]) State.reset) =
      some (.okBytes [0x11, 0x22, 0x00, 0x33]) := by decide +kernel

/-- V2.3: the four exits. -/
theorem test_cobs_dec_exits :
    ∀ e ∈ ([[], [0x11, 0x22, 0x33], [0x00], [0x02, 0x00], [0x05, 0x11, 0x22, 0x00], [0x01, 0x00, 0x00]] :
      List (List Byte)), cobsDecode e = .error .decodeError := by decide +kernel

/-! ## Hamming codec: V3 -/

/-- V3.1, the sixteen code words. -/
theorem test_ham_enc_table :
    ((List.range 16).map fun v => hamEnc (BitVec.ofNat 4 v)) =
      [0x00, 0x87, 0x99, 0x1E, 0xAA, 0x2D, 0x33, 0xB4, 0x4B, 0xCC, 0xD2, 0x55, 0xE1, 0x66, 0x78, 0xFF] := by
  decide +kernel

/-- V3.2. -/
theorem test_ham_dec :
    hamDec 0xC4 = some ⟨0x9, true⟩ ∧ hamDec 0x4C = some ⟨0x9, true⟩ ∧ hamDec 0x4D = none ∧
    hamDec 0xCB = some ⟨0x8, true⟩ := by decide +kernel

/-- V3.3. -/
theorem test_ham_dec_counts :
    ((List.range 256).countP fun h => hamDec (BitVec.ofNat 8 h) == none) = 112 := by decide +kernel

theorem test_fec_expand : fecExpand [0x48, 0xE2] = [0x4B, 0xAA, 0x99, 0x78] := by decide +kernel

/-- V3.5. -/
theorem test_fec_compress :
    fecCompress [0x4B, 0xA9, 0x99, 0x78] = .error .hammingError ∧ fecCompress [0x4B, 0xAA, 0x99] = .error .badLength ∧
    fecCompress [0x4B, 0xAB, 0x99, 0x78] = .ok ([0x48, 0xE2], true) := by decide +kernel

/-! ## Frame codec: V4, V5 -/

theorem test_frame_enc :
    resultOf (exec (.frameEnc [0x01, 0x02, 0x03]) (State.resetFor plain4)) =
      some (.okBytes [0x08, 0x01, 0x02, 0x03, 0xAE, 0xEB, 0x96, 0x53, 0x00]) := by decide +kernel

theorem test_frame_enc_too_long :
    faultOf? (exec (.frameEnc [1, 2, 3, 4, 5]) (State.resetFor plain4)) = some (.capacityFault 5) := by decide

/-- V5.4, V5.6, V5.13. -/
theorem test_frame_dec_plain :
    frameDecode plain4 [0x04, 0x01, 0x02, 0x03, 0x00] = .error .crcError ∧
    frameDecode plain4 [0x06, 0x05, 0x48, 0xE2, 0x3E, 0xFB, 0x00] = .error .crcError ∧
    frameDecode plain4 [0x33, 0x00, 0x87, 0x00, 0x00] = .error .decodeError := by decide +kernel

/-- V5.9. -/
theorem test_frame_dec_corrected :
    resultOf (exec (.frameDec [0x33, 0x00, 0x87, 0x00, 0x4B, 0xAA, 0x89, 0x78, 0x78, 0x1E, 0x55, 0xFF, 0x00, 0x00])
      (State.resetFor fec4)) = some (.okCorrected [0x01] true) := by decide +kernel

/-- V6.12. -/
theorem test_frame_chk_after_reset :
    resultOf (exec .frameChk State.reset) = some (.failed .decodeError) := by decide +kernel

/-- The buffer and latch of V6.1 after its seven pushes. -/
def pending1 : State :=
  { State.resetFor plain4 with
    buf := [(0, 0x06), (1, 0x01), (2, 0x48), (3, 0xE2), (4, 0x3E), (5, 0xFB), (6, 0x00)]
    bufWritten := 7
    frameReady := true
    frameLen := 7 }

theorem test_frame_chk : resultOf (exec .frameChk pending1) = some (.okCorrected [0x01] false) := by decide +kernel

/-! ## Aggregator: V6 -/

/-- V6.2: a lone `00` is a frame of length 1. -/
theorem test_push_terminator :
    (nextState? (exec (.aggPush 0x00) (State.resetFor plain4))).map
      (fun t => (t.frameReady, t.frameLen, t.aggIndex, t.buf)) = some (true, 1, 0, [(0, 0x00)]) := by decide

/-- V6.9: an undecodable first pair hands off with length 0 and stores nothing. -/
theorem test_push_undecodable_pair :
    (nextState? (exec (.aggPush 0x00) { State.resetFor fec4 with aggHalf := 0x03, aggHalfValid := true })).map
      (fun t => (t.frameReady, t.frameLen, t.frameHammingError, t.bufWritten)) = some (true, 0, true, 0) := by
  decide +kernel

/-- V6.5: a hand-off while a request is pending is an overrun. -/
theorem test_push_overrun :
    (nextState? (exec (.aggPush 0x00) pending1)).map (fun t => (t.frameOverrun, t.frameLen)) = some (true, 1) := by
  decide

/-- V6.1, the take. -/
theorem test_take :
    resultOf (exec (.aggTake false) pending1) =
      some (.latch ⟨true, 7, false, false, false⟩) := by decide

/-- V6.1, the three reads. -/
theorem test_rdbuf :
    resultOf (exec (.aggRdbuf 2) pending1) = some (.byte 0x48) ∧
    faultOf? (exec (.aggRdbuf 7) pending1) = some (.unwrittenRead 7) ∧
    faultOf? (exec (.aggRdbuf 10) pending1) = some (.bufferIndexFault 10) := by decide

/-! ## Time reference: V7 -/

/-- A reset machine with the reference pair of the document's example. -/
def rebased (utc rtc : Word64) : State := { State.reset with utcReference := utc, rtcReference := rtc }

theorem test_rebase :
    (nextState? (exec (.trefRebase 1000 5000) State.reset)).map (fun t => (t.utcReference, t.rtcReference)) =
      some (1000, 5000) := by decide

/-- E8, and the truncation one tick before the next second. -/
theorem test_get :
    resultOf (exec (.trefGet 65000) (rebased 1000 5000)) = some (.time 1060) ∧
    resultOf (exec (.trefGet 65999) (rebased 1000 5000)) = some (.time 1060) := by decide +kernel

theorem test_get_faults :
    faultOf? (exec (.trefGet 4999) (rebased 1000 5000)) = some (.timeUnderflow 4999 5000) ∧
    faultOf? (exec (.trefGet 1000) (rebased 18446744073709551615 0)) =
      some (.timeOverflow 18446744073709551615 1) := by decide +kernel

theorem test_isset :
    resultOf (exec .trefIsset (rebased 1000 5000)) = some (.isSet true) ∧
    resultOf (exec .trefIsset (rebased 0 7000)) = some (.isSet false) := by decide

/-! ## Witnesses: a state and operands that meet all hypotheses of an obligation together, clause by clause -/

/-- The invariant holds of a reset machine without FEC, whatever has been issued. -/
theorem inv_issued_plain4 (q : List Request) : (issued plain4 q).Inv where
  bufWf := memory_wf_nil
  writtenPrefix := fun a => by simp [issued, State.resetFor, memory_read_nil]
  writtenLeCap := Nat.zero_le _
  indexLtCap := by change 0 < plain4.cap; decide
  indexLeWritten := Nat.le_refl _
  lenLeWritten := Nat.le_refl _
  emptyFrameFailed := fun h => by simp [issued, State.resetFor] at h
  fecOnly := fun _ => ⟨rfl, rfl, rfl, rfl⟩

/-- The same with FEC. -/
theorem inv_issued_fec4 (q : List Request) : (issued fec4 q).Inv where
  bufWf := memory_wf_nil
  writtenPrefix := fun a => by simp [issued, State.resetFor, memory_read_nil]
  writtenLeCap := Nat.zero_le _
  indexLtCap := by change 0 < fec4.cap; decide
  indexLeWritten := Nat.le_refl _
  lenLeWritten := Nat.le_refl _
  emptyFrameFailed := fun h => by simp [issued, State.resetFor] at h
  fecOnly := fun h => by simp [issued, State.resetFor, fec4, Params.ofSpec] at h

/-- A pending frame of one byte that is no terminator, as a full buffer of another `CAP` leaves it. -/
def pendingNoTerminator : State :=
  { State.resetFor plain4 with
    buf := [(0, 0x01)]
    bufWritten := 1
    frameReady := true
    frameLen := 1 }

theorem inv_pendingNoTerminator : pendingNoTerminator.Inv where
  bufWf := by decide
  writtenPrefix := fun a => by
    change (Memory.read [(0, 0x01)] a).isSome = true ↔ a < 1
    rw [memory_read_cons, memory_read_nil]
    split <;> simp <;> omega
  writtenLeCap := by decide
  indexLtCap := by decide
  indexLeWritten := by decide
  lenLeWritten := by decide
  emptyFrameFailed := by decide
  fecOnly := fun _ => ⟨rfl, rfl, rfl, rfl⟩

/-- A reset machine whose CRC register has been initialised. -/
def crcStarted : State := { State.reset with crcValid := true }

/-- The second half of a pair is awaited, after a first byte that decodes and one that does not. -/
def halfGood : State := { State.resetFor fec4 with aggHalf := 0x4B, aggHalfValid := true }

/-- See `halfGood`. -/
def halfBad : State := { State.resetFor fec4 with aggHalf := 0x03, aggHalfValid := true }

theorem witness_DecodeAgreesWithEncode : decode ⟨.client, 0x11, { byte := 0xFF }⟩ = .operation (.crcUpdate 0xFF) := by
  decide

theorem witness_ReservedCodesFault :
    ∃ (s : State) (r : Request) (rest : List Request), s.requests = r :: rest ∧ formatOf r.op = none :=
  ⟨issued plain4 [⟨.client, 0x63, {}⟩], _, _, rfl, by decide⟩

theorem witness_StepPerformsNextRequest :
    State.reset.requests = [] ∧
    (∃ (s : State) (r : Request) (rest : List Request) (i : Instr) (t : State),
      s.requests = r :: rest ∧ decode r = .operation i ∧ exec i { s with requests := rest } = .next t) ∧
    (∃ (s : State) (r : Request) (rest : List Request) (i : Instr) (f : Fault), s.requests = r :: rest ∧
      decode r = .operation i ∧ exec i { s with requests := rest } = .fault f ∧ f.isRaised = true) ∧
    ∃ (s : State) (r : Request) (rest : List Request) (i : Instr) (f : Fault), s.requests = r :: rest ∧
      decode r = .operation i ∧ exec i { s with requests := rest } = .fault f ∧ f.isRaised = false :=
  ⟨rfl, ⟨issued plain4 [encode .client .crcInit], _, _, .crcInit, _, rfl, by decide, rfl⟩,
    ⟨issued plain4 [encode .client .crcFinal], _, _, .crcFinal, _, rfl, by decide, rfl, rfl⟩,
    { issued plain4 [encode .client (.aggPush 1)] with aggIndex := 10 }, _, _, .aggPush 1, _, rfl, by decide, rfl, rfl⟩

theorem witness_PseudoOperationsReturnTheirResults :
    (∃ (s : State) (m : List Byte) (rest : List Request), s.Inv ∧ s.requests = pushSeq m ++ rest ∧ m = [1, 0]) ∧
    (∃ (s : State) (rest : List Request), s.requests = crcStream [] ++ rest) ∧
    (∃ (s : State) (rest : List Request), s.Inv ∧ s.requests = dispatch ++ rest) ∧
    ∃ (s : State) (m : List Byte) (rest : List Request), s.Inv ∧
      s.requests = encode .client .frameChk :: pushSeq m ++ encode .client (.aggTake false) :: rest ∧ m = [1, 0] :=
  ⟨⟨issued plain4 (pushSeq [1, 0] ++ []), _, _, inv_issued_plain4 _, rfl, rfl⟩, ⟨issued plain4 (crcStream [] ++ []), _, rfl⟩,
    ⟨issued fec4 (dispatch ++ []), _, inv_issued_fec4 _, rfl⟩,
    issued plain4 (encode .client .frameChk :: pushSeq [1, 0] ++ encode .client (.aggTake false) :: []), _, _,
    inv_issued_plain4 _, rfl, rfl⟩

theorem witness_ResetValues : 0 < plain4.cap ∧ 9 < plain4.cap ∧ ¬ 10 < plain4.cap := by decide

theorem witness_StepKeepsInv : ∃ s t : State, s.Inv ∧ step s = .next t :=
  ⟨issued fec4 [encode .byteSource (.aggPush 0x4B)], _, inv_issued_fec4 _, rfl⟩

theorem witness_RegistersHaveOnlyTheirWriters :
    (∃ t, exec .crcInit State.reset = .next t ∧ t.crcValid ≠ State.reset.crcValid) ∧
    (∃ t, exec .crcInit crcStarted = .next t ∧ crcStarted.crcValid = true) ∧
    (∃ t, exec (.trefRebase 1 0) State.reset = .next t ∧ t.utcReference ≠ State.reset.utcReference) ∧
    (∃ t, exec (.aggPush 0x00) (State.resetFor plain4) = .next t ∧
      t.bufWritten ≠ (State.resetFor plain4).bufWritten ∧ t.frameReady ≠ (State.resetFor plain4).frameReady) ∧
    ∃ s t : State, step s = .next t :=
  ⟨⟨_, rfl, by decide⟩, ⟨_, rfl, rfl⟩, ⟨_, rfl, by decide⟩, ⟨_, rfl, by decide, by decide⟩, State.reset, _, rfl⟩

theorem witness_RequestAndOverrunFlags :
    (∃ t, exec (.aggPush 0x00) pending1 = .next t) ∧ (∃ t, exec (.aggTake true) pending1 = .next t) ∧
    ∃ t, exec .trefIsset pending1 = .next t :=
  ⟨⟨_, rfl⟩, ⟨_, rfl⟩, _, rfl⟩

theorem witness_PairPhaseTogglesOnPushOnly :
    (∃ t, exec (.aggPush 0x4B) halfGood = .next t ∧ halfGood.params.fecEn = true) ∧
    (∃ t, exec (.aggTake true) halfGood = .next t ∧ halfGood.params.fecEn = true) ∧
    ∃ t, exec (.aggPush 0x00) pending1 = .next t ∧ pending1.params.fecEn = false :=
  ⟨⟨_, rfl, rfl⟩, ⟨_, rfl, rfl⟩, _, rfl, rfl⟩

theorem witness_UnspecifiedResetValuesAreNeverRead :
    (State.reset.crcValid = false ∧ faultOf? (exec .crcFinal State.reset) = some .crcNotInitialised ∧
      (nextState? (exec .crcInit State.reset)).map (·.crcValid) = some true) ∧
    (State.reset.aggHalfValid = false ∧ faultOf? (exec (.aggRdbuf 0) State.reset) = some (.unwrittenRead 0) ∧
      (nextState? (exec (.aggPush 0x4B) State.reset)).map (·.aggHalfValid) = some true) := by
  decide

theorem witness_ReadsHaveNoSideEffect :
    (∃ t, Instr.writesNothing .trefIsset = true ∧ exec .trefIsset pending1 = .next t) ∧
    (∃ t, Instr.stateless (.hamEnc 9) = true ∧ pending1.params = (State.resetFor plain4).params ∧
      exec (.hamEnc 9) pending1 = .next t) ∧
    ∃ t, exec (.aggTake false) pending1 = .next t ∧ t.result ≠ .none ∧ t ≠ { pending1 with result := t.result } :=
  ⟨⟨_, rfl, rfl⟩, ⟨_, rfl, rfl, rfl⟩, _, rfl, by decide, by decide⟩

theorem witness_CrcInitWritesRegister : ∃ t, exec .crcInit State.reset = .next t := ⟨_, rfl⟩

theorem witness_CrcUpdateAdvancesRegister : crcStarted.crcValid = true ∧ State.reset.crcValid = false := ⟨rfl, rfl⟩

theorem witness_CrcFinalReturnsCrc :
    crcStarted.crcValid = true ∧ State.reset.crcValid = false ∧ (∃ t, exec .crcInit State.reset = .next t) ∧
    ∃ u t, crcStarted.crcAcc = crcFold crcStarted.params crcStarted.params.crcInit [] ∧
      exec .crcFinal crcStarted = .next u ∧ exec (.crcUpdate 0x31) u = .next t :=
  ⟨rfl, rfl, ⟨_, rfl⟩, _, _, rfl, rfl, rfl⟩

/-- The second clause with an operation of the byte source in between; V1.3's first byte. -/
theorem witness_StreamingEqualsBlock :
    (issued fec4 (crcStream [] ++ [])).requests = crcStream [] ++ [] ∧
    ∃ s t : State, s.requests.filter Request.touchesCrc = crcStream [0x31] ∧
      s.requests.getLast? = some (encode .client .crcFinal) ∧ runSteps s.requests.length s = .next t ∧
      s.requests.length = 4 :=
  ⟨rfl, issued fec4 [encode .client .crcInit, encode .byteSource (.aggPush 0x4B), encode .client (.crcUpdate 0x31),
    encode .client .crcFinal], _, by decide, by decide, rfl, rfl⟩

theorem witness_CrcDetectsEverySingleBitFlip :
    plain4.crcPoly.getLsbD 0 = true ∧ 0 < ([0x01] : List Byte).length ∧ 7 < 8 := by decide

theorem witness_CrcIgnoresLeadingZeros : plain4.crcInit = 0 := rfl

theorem witness_CobsDecodesExactlyBlockSequences :
    (cobsDecode [0x01, 0x00] = .ok [] ∧ ([[]] : List (List Byte)) ≠ [] ∧ cobsMeaning [[]] = [] ∧
      ([0x01, 0x00] : List Byte) = [[]].flatMap cobsBlock ++ [0x00]) ∧
    cobsDecode [0x00] = .error .decodeError := by decide

theorem witness_CobsMaxlenIsTheMaximum : (1 ≤ 1) ∧ 0x00 ∉ ([] : List Byte) ∧ 0x00 ∉ ([0xFF] : List Byte) := by decide

theorem witness_ShortCobsLengthIsContentFree :
    ([] : List Byte).length < 254 ∧ (List.replicate 253 (0x00 : Byte)).length < 254 := by
  decide +kernel

/-- One byte for each of the four cases of R122, the third with the largest position. -/
theorem witness_HamDecFollowsSyndrome :
    hamDec 0xCC = some ⟨0x9, false⟩ ∧ hamDec 0x4C = some ⟨0x9, true⟩ ∧ hamDec 0x8C = some ⟨0x9, true⟩ ∧
    hamDec 0x03 = none := by decide +kernel

theorem witness_HammingCorrectsOneDetectsTwo :
    (0 < 8) ∧ (7 < 8) ∧ (0 ≠ 7) ∧ ((0x01 : Byte).getLsbD 0 ^^ (0x01 : Byte).getLsbD 7) = true := by decide

theorem witness_FecExpandInterleavesCodeWords : 0 < ([0x48] : List Byte).length := by decide

theorem witness_FecCompressJoinsPairs :
    ([0x4B] : List Byte).length % 2 = 1 ∧
    (([0x4B, 0x03] : List Byte).length % 2 = 0 ∧ ∃ x ∈ ([0x4B, 0x03] : List Byte), hamDec x = none) ∧
    (([0x4B, 0xAB] : List Byte).length % 2 = 0 ∧ (∀ x ∈ ([0x4B, 0xAB] : List Byte), hamDec x ≠ none) ∧
      ([0x4B, 0xAB] : List Byte)[0]?.bind hamDec = some ⟨8, false⟩ ∧
      ([0x4B, 0xAB] : List Byte)[1]?.bind hamDec = some ⟨4, true⟩) := by decide +kernel

theorem witness_FecRoundTripAndCorrection :
    (oneFlipPerByte (fecExpand [0x48]) [0x4B ^^^ (1#8 <<< 0), 0xAA ^^^ (1#8 <<< 7)] ∧
      [0x4B ^^^ (1#8 <<< 0), 0xAA ^^^ (1#8 <<< 7)] ≠ fecExpand [0x48]) ∧
    ([0x4B ^^^ (1#8 <<< 0) ^^^ (1#8 <<< 7), 0x00].length = (fecExpand [0x48]).length ∧
      (fecExpand [0x48])[0]? = some 0x4B) :=
  ⟨⟨.cons (.inr ⟨0, by decide, by decide⟩) (.cons (.inr ⟨7, by decide, by decide⟩) .nil), by decide +kernel⟩,
    by decide +kernel⟩

theorem witness_FrameEncBuildsFrame :
    ([1, 2, 3, 4] : List Byte).length ≤ plain4.payloadMax ∧ plain4.payloadMax < ([1, 2, 3, 4, 5] : List Byte).length := by
  decide

theorem witness_FrameFitsCommandBuffer :
    ([1, 2, 3, 4] : List Byte).length ≤ fec4.payloadMax ∧ ([1, 2, 3, 4] : List Byte).length + 4 < 254 := by decide

theorem witness_FrameDelimiterIsUnique :
    plain4.fecEn = false ∧ fec4.fecEn = true ∧ 2 * 0 + 2 < (frameEncode fec4 []).length := by decide +kernel

theorem witness_FrameDecRunsStagesInOrder :
    (fec4.fecEn = true ∧ fecCompress [0x4B] = .error .badLength ∧ fecCompress [0x03, 0x4B] = .error .hammingError ∧
      fecCompress [0x00, 0x00] = .ok ([0x00], false)) ∧
    (plain4.fecEn = false ∧ frameCheck plain4 [0x06, 0x01, 0x48, 0xE2, 0x3E, 0xFB, 0x00] = .ok [0x01] ∧
      frameCheck plain4 [0x00] = .error .decodeError) := by decide +kernel

theorem witness_FrameCheckComparesTrailer :
    cobsDecode [0x00] = .error .decodeError ∧
    (cobsDecode [0x04, 0x01, 0x02, 0x03, 0x00] = .ok [0x01, 0x02, 0x03] ∧ ([0x01, 0x02, 0x03] : List Byte).length < 4) ∧
    (plain4.trailerOrder = .little ∧
      cobsDecode [0x05, 0xFF, 0xFF, 0xFF, 0xFF, 0x00] = .ok ([] ++ [0xFF, 0xFF, 0xFF, 0xFF])) := by decide +kernel

theorem witness_FrameRoundTrip :
    ([] : List Byte).length ≤ fec4.payloadMax ∧ ([1, 2, 3, 4] : List Byte).length ≤ plain4.payloadMax := by decide

theorem witness_FrameChkChecksTheHandedOffFrame :
    (∃ s : State, s.params.fecEn = true ∧ s.frameHammingError = true) ∧
    (∃ s : State, s.Inv ∧ s.frameHammingError = false) ∧
    (∃ s : State, s.frameHammingError = false ∧ s.frameLen = 0) ∧
    ∃ s : State, s.Inv ∧ s.frameHammingError = false ∧ 0 < s.frameLen ∧ s.buf.read (s.frameLen - 1) ≠ some 0x00 :=
  ⟨⟨{ State.resetFor fec4 with frameHammingError := true }, rfl, rfl⟩, ⟨_, inv_issued_fec4 [], rfl⟩,
    ⟨State.reset, rfl, rfl⟩, pendingNoTerminator, inv_pendingNoTerminator, rfl, by decide, by decide⟩

theorem witness_TamperedPayloadIsRejected :
    plain4.crcPoly.getLsbD 0 = true ∧ 0 < ([0x01] : List Byte).length ∧ 7 < 8 ∧
    (State.resetFor plain4).params = plain4 ∧ plain4.fecEn = false := by decide

theorem witness_LeadingZeroPassesTheCheck : fec4.crcInit = 0 := rfl

theorem witness_PushAlwaysCompletes : ∃ s : State, s.Inv ∧ s.frameReady = true :=
  ⟨pendingNoTerminator, inv_pendingNoTerminator, rfl⟩

theorem witness_PushStoresWireByte :
    (pending1.params.fecEn = false ∧ pending1.aggIndex < pending1.params.cap) ∧
    ∃ s : State, s.params.fecEn = false ∧ s.aggIndex < s.params.cap ∧ s.aggIndex + 1 = s.params.cap :=
  ⟨⟨rfl, by decide⟩, { State.resetFor plain4 with aggIndex := 9 }, rfl, by decide, by decide⟩

theorem witness_PushDecodesPairs :
    ((State.resetFor fec4).params.fecEn = true ∧ (State.resetFor fec4).aggHalfValid = false) ∧
    (halfBad.params.fecEn = true ∧ halfBad.aggHalfValid = true ∧ hamDec halfBad.aggHalf = none) ∧
    (halfGood.params.fecEn = true ∧ halfGood.aggHalfValid = true ∧ hamDec halfGood.aggHalf = some ⟨8, false⟩ ∧
      hamDec 0xAB = some ⟨4, true⟩ ∧ halfGood.aggIndex < halfGood.params.cap) := by decide +kernel

theorem witness_PushFrame :
    (∃ t, exec (.aggPush 0x4B) State.reset = .next t ∧ pushStores 0x4B State.reset = none ∧
      pushHandsOff 0x4B State.reset = false) ∧
    (∃ t, exec (.aggPush 0x00) pending1 = .next t ∧ pushStores 0x00 pending1 = some (0, 0x00) ∧
      pushHandsOff 0x00 pending1 = true ∧ pending1.params.fecEn = false) ∧
    ∃ t, exec (.aggPush 0xAB) halfGood = .next t ∧ pushHandsOff 0xAB halfGood = false ∧ halfGood.params.fecEn = true ∧
      halfGood.aggHalfValid = true :=
  ⟨⟨_, rfl, rfl, rfl⟩, ⟨_, rfl, rfl, rfl, rfl⟩, _, rfl, by decide +kernel, rfl, rfl⟩

theorem witness_HandoffWritesLatch :
    (∃ t, exec (.aggPush 0x00) pending1 = .next t ∧ pushHandsOff 0x00 pending1 = true) ∧
    ∃ t, exec (.aggPush 0x00) halfBad = .next t ∧ pushHandsOff 0x00 halfBad = true ∧ halfBad.params.fecEn = true :=
  ⟨⟨_, rfl, rfl⟩, _, rfl, by decide +kernel, rfl⟩

theorem witness_OverrunIsCoalescedAndReported :
    (∃ t, pending1.frameReady = true ∧ pushHandsOff 0x00 pending1 = true ∧ exec (.aggPush 0x00) pending1 = .next t) ∧
    ∃ t u, pending1.frameOverrun = false ∧ exec (.aggTake false) pending1 = .next t ∧ pushHandsOff 0x00 t = true ∧
      exec (.aggPush 0x00) t = .next u :=
  ⟨⟨_, rfl, rfl, rfl⟩, _, _, rfl, rfl, rfl, rfl⟩

theorem witness_RdbufReadsWrittenBytes :
    (pending1.params.cap ≤ 10) ∧ (9 < pending1.params.cap ∧ pending1.bufWritten ≤ 7) ∧
    (6 < pending1.params.cap ∧ 6 < pending1.bufWritten ∧ pending1.buf.read 6 = some 0x00) ∧
    (pendingNoTerminator.Inv ∧ 0 < pendingNoTerminator.bufWritten) :=
  ⟨by decide, by decide, by decide, inv_pendingNoTerminator, by decide⟩

theorem witness_NewBytesOverwriteThePendingFrame :
    (∃ (s : State) (w : List Byte) (rest : List Request), s.Inv ∧ s.aggIndex = 0 ∧ s.params.fecEn = false ∧
      0x00 ∉ w ∧ w.length + 1 = s.params.cap ∧ s.requests = pushSeq w ++ rest) ∧
    ∃ (s : State) (w e : List Byte) (c : Bool) (rest : List Request), s.Inv ∧ s.aggIndex = 0 ∧ s.params.fecEn = true ∧
      s.aggHalfValid = false ∧ fecCompress w = .ok (e, c) ∧ 0x00 ∉ e ∧ e.length < s.params.cap ∧
      s.requests = pushSeq w ++ rest ∧ e = [0x48] :=
  ⟨⟨issued plain4 (pushSeq [1, 2, 3, 4, 5, 6, 7, 8, 9] ++ []), _, [], inv_issued_plain4 _, rfl, rfl, by decide, by decide,
      rfl⟩,
    issued fec4 (pushSeq [0x4B, 0xAA] ++ []), [0x4B, 0xAA], [0x48], false, [], inv_issued_fec4 _, rfl, rfl, rfl,
      by decide +kernel, by decide, by decide, rfl, rfl⟩

theorem witness_ReceivePathsAgree :
    (∃ (s : State) (w body : List Byte), s.Inv ∧ s.Idle ∧ s.params.fecEn = false ∧ w.length ≤ s.params.cap ∧
      w = body ++ [0x00] ∧ 0x00 ∉ body ∧ s.requests = pushSeq w ++ encode .client .frameChk :: []) ∧
    (∃ (s : State) (w e body : List Byte) (c : Bool), s.Inv ∧ s.Idle ∧ s.params.fecEn = true ∧
      fecCompress w = .ok (e, c) ∧ e.length ≤ s.params.cap ∧ e = body ++ [0x00] ∧ 0x00 ∉ body ∧
      s.requests = pushSeq w ++ encode .client .frameChk :: []) ∧
    ∃ (s : State) (pre e : List Byte) (x y : Byte) (post : List Byte) (c : Bool), s.Inv ∧ s.Idle ∧
      s.params.fecEn = true ∧ fecCompress pre = .ok (e, c) ∧ hamDec x = none ∧ 0x00 ∉ e ∧ e.length < s.params.cap ∧
      post.length % 2 = 0 ∧ s.requests = pushSeq (pre ++ [x, y]) ++ [] :=
  ⟨⟨issued plain4 (pushSeq [0x06, 0x01, 0x48, 0xE2, 0x3E, 0xFB, 0x00] ++ [encode .client .frameChk]), _,
      [0x06, 0x01, 0x48, 0xE2, 0x3E, 0xFB], inv_issued_plain4 _, ⟨rfl, rfl, rfl⟩, rfl, by decide, rfl, by decide, rfl⟩,
    ⟨issued fec4 (pushSeq [0x87, 0x00, 0x00, 0x00] ++ [encode .client .frameChk]), _, [0x01, 0x00], [0x01], false,
      inv_issued_fec4 _, ⟨rfl, rfl, rfl⟩, rfl, by decide +kernel, by decide, rfl, by decide, rfl⟩,
    issued fec4 (pushSeq ([0x87, 0x00] ++ [0x03, 0x00]) ++ []), [0x87, 0x00], [0x01], 0x03, 0x00, [0x4B, 0xAA], false,
      inv_issued_fec4 _, ⟨rfl, rfl, rfl⟩, rfl, by decide +kernel, by decide +kernel, by decide, by decide, rfl, rfl⟩

theorem witness_RebaseCornerCases :
    (∃ u, exec (.trefRebase 0 5) State.reset = .next u) ∧
    ∃ u v, exec (.trefRebase 1000 5000) State.reset = .next u ∧ exec (.trefRebase 1000 5001) u = .next v ∧
      (5000 : Word64).toNat ≤ (65000 : Word64).toNat ∧
      (1000 : Word64).toNat + ((65000 : Word64).toNat - (5000 : Word64).toNat) / 1000 < 2 ^ 64 :=
  ⟨⟨_, rfl⟩, _, _, rfl, rfl, by decide, by decide⟩

theorem witness_GetComputesVirtualTime :
    (4999 : Word64).toNat < (rebased 1000 5000).rtcReference.toNat ∧
    ((rebased 18446744073709551615 0).rtcReference.toNat ≤ (1000 : Word64).toNat ∧
      2 ^ 64 ≤ (rebased 18446744073709551615 0).utcReference.toNat +
        ((1000 : Word64).toNat - (rebased 18446744073709551615 0).rtcReference.toNat) / 1000) ∧
    ((rebased 18446744073709551615 0).rtcReference.toNat ≤ (999 : Word64).toNat ∧
      (rebased 18446744073709551615 0).utcReference.toNat +
        ((999 : Word64).toNat - (rebased 18446744073709551615 0).rtcReference.toNat) / 1000 < 2 ^ 64) ∧
    ((rebased 1000 5000).utcReference = 1000 ∧ (rebased 1000 5000).rtcReference = 5000) := by decide

theorem witness_VirtualTimeLaws :
    (∃ t t', exec (.trefGet 5999) (rebased 1000 5000) = .next t ∧ t.result = .time 1000 ∧
      exec (.trefGet 6000) (rebased 1000 5000) = .next t' ∧ t'.result = .time 1001) ∧
    ∃ u q, exec (.trefGet 1000) (rebased 18446744073709551615 0) = .fault (.timeOverflow u q) :=
  ⟨⟨_, _, rfl, by decide +kernel, rfl, by decide +kernel⟩, _, _, rfl⟩

theorem witness_IssetTestsUtcReference : State.reset.utcReference = 0 ∧ (rebased 1 0).utcReference ≠ 0 := by decide

theorem witness_MonotonicTicksNeverUnderflow :
    ∃ s t : State, s.TicksMonotonic ∧ step s = .next t ∧ pendingTicks s.requests = [5000, 5000, 65000] :=
  ⟨issued plain4 [encode .client (.trefRebase 1000 5000), encode .client (.trefGet 5000),
    encode .client (.trefGet 65000)], _, by unfold State.TicksMonotonic; decide, rfl, by decide⟩

theorem witness_StatusesOfOperations :
    (∃ t, exec (.fecCompress [0x4B]) State.reset = .next t ∧ t.result.status? = some .badLength) ∧
    (∃ t, exec (.fecCompress [0x03, 0x00]) State.reset = .next t ∧ t.result.status? = some .hammingError) ∧
    (∃ t, exec (.frameDec [0x04, 0x01, 0x02, 0x03, 0x00]) (State.resetFor plain4) = .next t ∧
      t.result.status? = some .crcError) ∧
    ∃ t, exec (.cobsDec []) State.reset = .next t ∧ t.result.status? = some .decodeError :=
  ⟨⟨_, rfl, by decide +kernel⟩, ⟨_, rfl, by decide +kernel⟩, ⟨_, rfl, by decide +kernel⟩, _, rfl, by decide +kernel⟩

theorem witness_FaultsAreExactlyTheTable :
    ∃ s t : State, s.Inv ∧ step s = .next t ∧ t.faults = s.faults ++ [.capacityFault 5] :=
  ⟨issued plain4 [encode .client (.frameEnc [1, 2, 3, 4, 5])], _, inv_issued_plain4 _, rfl, rfl⟩

end Sys2Proof.Tests
end

section
/-! The request and the sticky overrun bit (10_state.md R31, R34): what an operation that writes no register can do,
the completion of `AGG.PUSH` with or without its hand-off, and the two flags over all operations. -/

namespace Sys2Proof.Machine

open Sys2Proof

/-! ## Operations that leave the latch alone -/

/-- R50: an operation that writes nothing only returns a result, when it completes. -/
theorem exec_next_of_writesNothing {i : Instr} {s t : State} (hi : i.writesNothing = true) (h : exec i s = .next t) :
    ∃ r, t = s.deliver r := by
  cases i with
  | crcInit | crcUpdate | aggPush | aggTake | trefRebase => cases hi
  | crcBlock | cobsEnc | cobsDec | hamEnc | hamDec | fecExpand | fecCompress | frameDec | trefIsset =>
    exact ⟨_, (Host.Outcome.next.inj h).symm⟩
  | crcFinal =>
    simp only [exec, execCrcFinal] at h
    split_ifs at h
    exact ⟨_, (Host.Outcome.next.inj h).symm⟩
  | frameEnc =>
    simp only [exec, execFrameEnc] at h
    split_ifs at h
    exact ⟨_, (Host.Outcome.next.inj h).symm⟩
  | frameChk =>
    simp only [exec, execFrameChk] at h
    split_ifs at h
    · exact ⟨_, (Host.Outcome.next.inj h).symm⟩
    · split at h
      · cases h
      · exact ⟨_, (Host.Outcome.next.inj h).symm⟩
  | aggRdbuf =>
    simp only [exec, execAggRdbuf] at h
    split_ifs at h
    split at h
    · cases h
    · exact ⟨_, (Host.Outcome.next.inj h).symm⟩
  | trefGet =>
    simp only [exec, execTrefGet] at h
    split_ifs at h
    exact ⟨_, (Host.Outcome.next.inj h).symm⟩

/-- R89: `CRC.UPDATE` completes on an initialised register only, with the register advanced by one byte. -/
theorem exec_crcUpdate_next {b : Byte} {s t : State} (h : exec (.crcUpdate b) s = .next t) :
    s.crcValid = true ∧ t = (s.setCrc (crcStep s.params.crcPoly s.crcAcc b)).deliver .none := by
  simp only [exec, execCrcUpdate] at h
  split_ifs at h with hv
  exact ⟨hv, (Host.Outcome.next.inj h).symm⟩

theorem sameLatch_deliver (s : State) (r : Result) : sameLatch s (s.deliver r) := ⟨rfl, rfl, rfl, rfl, rfl⟩

/-- R30: an operation other than `AGG.PUSH` and `AGG.TAKE` keeps the whole latch. -/
theorem exec_sameLatch {i : Instr} {s t : State} (hpush : ∀ b, i ≠ .aggPush b) (htake : ∀ c, i ≠ .aggTake c)
    (h : exec i s = .next t) : sameLatch s t := by
  cases hw : i.writesNothing with
  | true =>
    obtain ⟨r, rfl⟩ := exec_next_of_writesNothing hw h
    exact sameLatch_deliver s r
  | false =>
    cases i with
    | aggPush b => exact absurd rfl (hpush b)
    | aggTake c => exact absurd rfl (htake c)
    | crcUpdate b =>
      obtain ⟨-, rfl⟩ := exec_crcUpdate_next h
      exact ⟨rfl, rfl, rfl, rfl, rfl⟩
    | crcInit | trefRebase =>
      obtain rfl := Host.Outcome.next.inj h
      exact ⟨rfl, rfl, rfl, rfl, rfl⟩
    | _ => cases hw

/-! ## When a push hands off -/

theorem pushHandsOff_plain {b : Byte} {s : State} (hf : s.params.fecEn = false) :
    pushHandsOff b s = frameComplete b (s.aggIndex + 1) s.params := by
  simp [pushHandsOff, pushStores, hf]

theorem pushHandsOff_firstOfPair {b : Byte} {s : State} (hf : s.params.fecEn = true) (hv : s.aggHalfValid = false) :
    pushHandsOff b s = false := by
  simp [pushHandsOff, pushStores, hf, hv]

theorem pushHandsOff_decodedPair {b : Byte} {s : State} {lo hi : HamDecoded} (hf : s.params.fecEn = true)
    (hv : s.aggHalfValid = true) (hlo : hamDec s.aggHalf = some lo) (hhi : hamDec b = some hi) :
    pushHandsOff b s = frameComplete (joinNibbles lo.v hi.v) (s.aggIndex + 1) s.params := by
  simp [pushHandsOff, pushStores, hf, hv, hlo, hhi]

theorem pushHandsOff_undecodablePair {b : Byte} {s : State} (hf : s.params.fecEn = true)
    (hv : s.aggHalfValid = true) (hn : hamDec s.aggHalf = none ∨ hamDec b = none) : pushHandsOff b s = true := by
  rcases hn with hn | hn
  · simp [pushHandsOff, pushStores, hf, hv, hn]
  · cases hlo : hamDec s.aggHalf <;> simp [pushHandsOff, pushStores, hf, hv, hlo, hn]

/-- What the store does to the latch: a hand-off over the latch of `s` when the frame is complete, else nothing. -/
theorem storeAndAdvance_latch {b : Byte} {s t : State} (h : storeAndAdvance b s = .ok t) :
    (frameComplete b (s.aggIndex + 1) s.params = true ∧ ∃ e u, sameLatch s u ∧ t = handoff e u) ∨
    (frameComplete b (s.aggIndex + 1) s.params = false ∧ sameLatch s t) := by
  have hadv : sameLatch s (advanced b s) := ⟨rfl, rfl, rfl, rfl, rfl⟩
  obtain ⟨-, ⟨hc, rfl⟩ | ⟨hc, rfl⟩⟩ := storeAndAdvance_ok h
  · exact .inl ⟨hc, false, advanced b s, hadv, rfl⟩
  · exact .inr ⟨hc, hadv⟩

/-- What the body of `AGG.PUSH` does to the latch: a hand-off over the latch of `s`, exactly when `pushHandsOff` says
so, and otherwise nothing (R163, R165). -/
theorem pushByte_latch {b : Byte} {s t : State} (h : pushByte b s = .ok t) :
    (pushHandsOff b s = true ∧ ∃ e u, sameLatch s u ∧ t = handoff e u) ∨
    (pushHandsOff b s = false ∧ sameLatch s t) := by
  rcases pushByte_ok h with ⟨hf, hst⟩ | ⟨hf, hv, rfl⟩ | ⟨lo, hi, hf, hv, hlo, hhi, hst⟩ | ⟨hf, hv, hn, rfl⟩
  · rw [pushHandsOff_plain hf]
    exact storeAndAdvance_latch hst
  · exact .inr ⟨pushHandsOff_firstOfPair hf hv, rfl, rfl, rfl, rfl, rfl⟩
  · rw [pushHandsOff_decodedPair hf hv hlo hhi]
    simpa [sameLatch] using storeAndAdvance_latch hst
  · exact .inl ⟨pushHandsOff_undecodablePair hf hv hn, true, s.releaseHalf, ⟨rfl, rfl, rfl, rfl, rfl⟩, rfl⟩

/-- `AGG.PUSH` completes when its body does, and returns nothing (R161). -/
theorem exec_aggPush_next {b : Byte} {s t : State} (h : exec (.aggPush b) s = .next t) :
    ∃ u, pushByte b s = .ok u ∧ t = u.deliver .none := by
  simp only [exec, execAggPush] at h
  split at h
  · cases h
  · exact ⟨_, ‹_›, (Host.Outcome.next.inj h).symm⟩

/-- R31, R34: the two flags after `AGG.PUSH`. -/
theorem exec_aggPush_flags {b : Byte} {s t : State} (h : exec (.aggPush b) s = .next t) :
    t.frameReady = (s.frameReady || pushHandsOff b s) ∧
      t.frameOverrun = (s.frameOverrun || (s.frameReady && pushHandsOff b s)) := by
  obtain ⟨u, hu, rfl⟩ := exec_aggPush_next h
  rcases pushByte_latch hu with ⟨hc, e, v, ⟨hready, -, -, -, hover⟩, rfl⟩ | ⟨hc, hready, -, -, -, hover⟩
  · simp [hc, hready, hover, Bool.or_comm]
  · simp [hc, hready, hover]

/-- R172: the two flags after `AGG.TAKE`. -/
theorem exec_aggTake_flags {c : Bool} {s t : State} (h : exec (.aggTake c) s = .next t) :
    t.frameReady = false ∧ t.frameOverrun = if c then false else s.frameOverrun := by
  obtain rfl := Host.Outcome.next.inj h
  cases c <;> exact ⟨rfl, rfl⟩

/-- Settles O10: one lemma for each of the two writers of the flags, and the kept latch for every other operation. -/
theorem requestAndOverrunFlags : Obligations.RequestAndOverrunFlags := by
  unfold Obligations.RequestAndOverrunFlags
  refine ⟨fun i s t h => ⟨?_, ?_, ?_⟩, fun p => ⟨rfl, rfl⟩⟩
  · rintro b rfl
    exact exec_aggPush_flags h
  · rintro c rfl
    exact exec_aggTake_flags h
  · intro hpush htake
    obtain ⟨hready, -, -, -, hover⟩ := exec_sameLatch hpush htake h
    exact ⟨hready, hover⟩

end Sys2Proof.Machine
end

section
/-! The decoder against the code map (30_encoding.md R70, R71): every operation's code is a row of the map, every row
decodes, and a code without a row is the illegal one. -/

namespace Sys2Proof

open Sys2Proof.Machine

/-- R69, R70: an operation's request decodes to it, from either agent. -/
@[simp] theorem decode_encode (agent : Agent) (i : Instr) : decode (encode agent i) = .operation i := by
  cases i <;> rfl

/-- The row of every operation in the code map, one lemma per constructor (R69, R70). -/
theorem tableRow : ∀ i : Instr, Laws.TableRow.Statement i
  | .crcInit => Laws.TableRow.crcInit
  | .crcUpdate b => Laws.TableRow.crcUpdate b
  | .crcFinal => Laws.TableRow.crcFinal
  | .crcBlock m => Laws.TableRow.crcBlock m
  | .cobsEnc p => Laws.TableRow.cobsEnc p
  | .cobsDec e => Laws.TableRow.cobsDec e
  | .hamEnc v => Laws.TableRow.hamEnc v
  | .hamDec h => Laws.TableRow.hamDec h
  | .fecExpand m => Laws.TableRow.fecExpand m
  | .fecCompress w => Laws.TableRow.fecCompress w
  | .frameEnc p => Laws.TableRow.frameEnc p
  | .frameDec w => Laws.TableRow.frameDec w
  | .frameChk => Laws.TableRow.frameChk
  | .aggPush b => Laws.TableRow.aggPush b
  | .aggTake c => Laws.TableRow.aggTake c
  | .aggRdbuf idx => Laws.TableRow.aggRdbuf idx
  | .trefRebase t n => Laws.TableRow.trefRebase t n
  | .trefGet n => Laws.TableRow.trefGet n
  | .trefIsset => Laws.TableRow.trefIsset

/-- Every operation's code is the code of a row of the map. -/
theorem exists_row_code_eq (i : Instr) : ∃ row ∈ opTable, row.code = i.code := by
  obtain ⟨row, hmem, hcode, -⟩ := tableRow i
  exact ⟨row, hmem, hcode⟩

/-- The decoder is total: a request is illegal under its own code, or an operation with that code (R71). -/
theorem decode_cases (r : Request) :
    decode r = .illegal r.op ∨ ∃ i, decode r = .operation i ∧ i.code = r.op := by
  unfold decode
  split
  case h_20 => exact .inl rfl
  all_goals exact .inr ⟨_, rfl, BitVec.eq_of_toNat_eq (Eq.symm ‹_›)⟩

/-- Every row of the map decodes to an operation, whatever the inputs hold (R70). -/
theorem decode_row (agent : Agent) (x : Operands) :
    ∀ row ∈ opTable, ∃ i, decode ⟨agent, row.code, x⟩ = .operation i := by
  simp [opTable, decode]

/-- A code has no format exactly when it has no row. -/
theorem formatOf_eq_none_iff (op : Byte) : formatOf op = none ↔ ∀ row ∈ opTable, row.code ≠ op := by
  simp [formatOf]

/-- The illegal codes are those without a row (R71). -/
theorem decode_illegal_iff (r : Request) : decode r = .illegal r.op ↔ ∀ row ∈ opTable, row.code ≠ r.op := by
  constructor
  · intro hill row hmem hcode
    obtain ⟨i, hi⟩ := decode_row r.agent r.inputs row hmem
    rw [hcode] at hi
    exact Decoded.noConfusion (hill.symm.trans hi)
  · intro hno
    obtain hill | ⟨i, -, hcode⟩ := decode_cases r
    · exact hill
    · obtain ⟨row, hmem, hrow⟩ := exists_row_code_eq i
      exact absurd (hrow.trans hcode) (hno row hmem)

/-- A reserved code is an illegal one (R71). -/
theorem formatOf_eq_none_iff_decode_illegal (r : Request) : formatOf r.op = none ↔ decode r = .illegal r.op :=
  (formatOf_eq_none_iff r.op).trans (decode_illegal_iff r).symm

/-- Exactly the codes with a format decode to an operation (R70, R71). -/
theorem formatOf_eq_some_iff_decode_operation (r : Request) :
    (∃ f, formatOf r.op = some f) ↔ ∃ i, decode r = .operation i := by
  rw [← Option.ne_none_iff_exists', ne_eq, formatOf_eq_none_iff_decode_illegal]
  obtain hill | ⟨i, hi, -⟩ := decode_cases r
  · simp [hill]
  · simp [hi]

/-- Settles O2: the equivalences from the code map, the step from `step_illegal`; the count runs over the 256 codes. -/
theorem reservedCodesFault : Obligations.ReservedCodesFault := by
  unfold Obligations.ReservedCodesFault
  refine ⟨fun r => formatOf_eq_none_iff r.op, formatOf_eq_none_iff_decode_illegal,
    formatOf_eq_some_iff_decode_operation, ?_, by decide +kernel⟩
  intro s r rest hq hreserved
  exact step_illegal hq ((formatOf_eq_none_iff_decode_illegal r).mp hreserved)

end Sys2Proof
end

section
/-! Runs of several requests and the pseudo-operations (30_encoding.md R74): what every operation leaves of the model's
own bookkeeping, runs of steps that return nothing, and the two operations of `DISPATCH`. -/

namespace Sys2Proof.Machine

open Sys2Proof

/-! ## Runs -/

theorem runSteps_succ {k : Nat} {s t : State} (h : step s = .next t) : runSteps (k + 1) s = runSteps k t := by
  have hcore : core.step s = .next t := h
  simp only [runSteps, Host.Core.run, hcore]
  rfl

theorem runSteps_one {s t : State} (h : step s = .next t) : runSteps 1 s = .next t := runSteps_succ h

/-- A run of `k + 1` steps that completes begins with a step that completes. -/
theorem runSteps_succ_next {k : Nat} {s u : State} (h : runSteps (k + 1) s = .next u) :
    ∃ t, step s = .next t ∧ runSteps k t = .next u := by
  simp only [runSteps, Host.Core.run] at h
  split at h
  · exact ⟨_, ‹_›, h⟩
  · cases h
  · cases h

/-- A run of `j + k` steps is the run of `k` steps from where the first `j` end. -/
theorem runSteps_add {j k : Nat} {s u : State} (h : runSteps j s = .next u) : runSteps (j + k) s = runSteps k u := by
  induction j generalizing s with
  | zero =>
    obtain rfl := Host.Outcome.next.inj h
    rw [Nat.zero_add]
  | succ j ih =>
    obtain ⟨t, hst, htu⟩ := runSteps_succ_next h
    rw [Nat.add_right_comm, runSteps_succ hst, ih htu]

/-! ## The bookkeeping of an operation that completes -/

theorem storeAndAdvance_bookkeeping {b : Byte} {s t : State} (h : storeAndAdvance b s = .ok t) :
    t.requests = s.requests ∧ t.returned = s.returned ∧ t.faults = s.faults := by
  obtain ⟨-, ⟨-, rfl⟩ | ⟨-, rfl⟩⟩ := storeAndAdvance_ok h
  · exact ⟨rfl, rfl, rfl⟩
  · exact ⟨rfl, rfl, rfl⟩

theorem pushByte_bookkeeping {b : Byte} {s t : State} (h : pushByte b s = .ok t) :
    t.requests = s.requests ∧ t.returned = s.returned ∧ t.faults = s.faults := by
  rcases pushByte_ok h with ⟨-, hst⟩ | ⟨-, -, rfl⟩ | ⟨lo, hi, -, -, -, -, hst⟩ | ⟨-, -, -, rfl⟩
  · exact storeAndAdvance_bookkeeping hst
  · exact ⟨rfl, rfl, rfl⟩
  · simpa using storeAndAdvance_bookkeeping hst
  · exact ⟨rfl, rfl, rfl⟩

/-- An operation touches neither the pending requests nor the results and faults noted so far: that is the step's. -/
theorem exec_bookkeeping {i : Instr} {s t : State} (h : exec i s = .next t) :
    t.requests = s.requests ∧ t.returned = s.returned ∧ t.faults = s.faults := by
  cases hw : i.writesNothing with
  | true =>
    obtain ⟨r, rfl⟩ := exec_next_of_writesNothing hw h
    exact ⟨rfl, rfl, rfl⟩
  | false =>
    cases i with
    | aggPush b =>
      obtain ⟨u, hu, rfl⟩ := exec_aggPush_next h
      simpa using pushByte_bookkeeping hu
    | crcUpdate b =>
      obtain ⟨-, rfl⟩ := exec_crcUpdate_next h
      exact ⟨rfl, rfl, rfl⟩
    | crcInit | aggTake | trefRebase =>
      obtain rfl := Host.Outcome.next.inj h
      exact ⟨rfl, rfl, rfl⟩
    | _ => cases hw

/-! ## Steps and runs that return nothing -/

/-- `t` follows `s` with `rest` still to do, nothing returned and no fault recorded on the way. -/
def QuietTo (rest : List Request) (s t : State) : Prop :=
  t.requests = rest ∧ t.returned = s.returned ∧ t.faults = s.faults

theorem QuietTo.trans {mid rest : List Request} {s u t : State} (hsu : QuietTo mid s u) (hut : QuietTo rest u t) :
    QuietTo rest s t := by
  obtain ⟨-, hret, hflt⟩ := hsu
  obtain ⟨hreq, hret', hflt'⟩ := hut
  exact ⟨hreq, hret'.trans hret, hflt'.trans hflt⟩

/-- An operation that returns nothing is noted by nothing. -/
theorem noteReturn_of_result_none {agent : Agent} {s : State} (h : s.result = .none) : s.noteReturn agent = s := by
  have hret : s.returned ++ returnsOf agent s.result = s.returned := by simp [h]
  rw [State.noteReturn, hret]

/-- An operation issued by its encoding that completes: its result is noted for the agent. -/
theorem step_completes {agent : Agent} {i : Instr} {s t : State} {rest : List Request}
    (hq : s.requests = encode agent i :: rest) (hx : exec i { s with requests := rest } = .next t) :
    step s = .next (t.noteReturn agent) := by
  rw [step_operation hq (decode_encode agent i), hx, endOperation_next]
  rfl

/-- An operation that completes and returns nothing makes a quiet step. -/
theorem step_quiet {agent : Agent} {i : Instr} {s t : State} {rest : List Request}
    (hq : s.requests = encode agent i :: rest) (hx : exec i { s with requests := rest } = .next t)
    (hr : t.result = .none) : step s = .next t ∧ QuietTo rest s t := by
  refine ⟨?_, exec_bookkeeping hx⟩
  rw [step_completes hq hx, noteReturn_of_result_none hr]

/-- One kind of request issued for each byte of `m`: when a condition `P` makes every one of them a quiet step that
keeps `P`, the whole run is quiet and keeps `P`. -/
theorem runSteps_map_quiet {P : State → Prop} {f : Byte → Request} {rest : List Request}
    (hstep : ∀ (b : Byte) (q : List Request) (s : State), P s → s.requests = f b :: q →
      ∃ t, step s = .next t ∧ P t ∧ QuietTo q s t)
    (m : List Byte) (s : State) (hP : P s) (hq : s.requests = m.map f ++ rest) :
    ∃ t, runSteps m.length s = .next t ∧ P t ∧ QuietTo rest s t := by
  induction m generalizing s with
  | nil => exact ⟨s, rfl, hP, hq, rfl, rfl⟩
  | cons b m ih =>
    obtain ⟨u, hu, hPu, hsu⟩ := hstep b _ s hP hq
    obtain ⟨t, ht, hPt, hut⟩ := ih u hPu hsu.1
    exact ⟨t, (runSteps_succ hu).trans ht, hPt, hsu.trans hut⟩

/-! ## `AGG.PUSHSEQ` -/

/-- The part of the invariant that a push needs (R27). -/
def IndexInBuffer (s : State) : Prop := s.aggIndex < s.params.cap

/-- Inside the buffer the store completes, and the index stays inside: the byte that would end it hands off. -/
theorem storeAndAdvance_completes {b : Byte} {s : State} (h : IndexInBuffer s) :
    ∃ t, storeAndAdvance b s = .ok t ∧ IndexInBuffer t := by
  unfold IndexInBuffer at h
  refine ⟨_, storeAndAdvance_of_lt h, ?_⟩
  split
  · exact Nat.zero_lt_of_lt h
  · rename_i hc
    have hne : s.aggIndex + 1 ≠ s.params.cap := by
      intro heq
      simp [frameComplete, heq] at hc
    exact Nat.lt_of_le_of_ne h hne

theorem pushByte_completes {b : Byte} {s : State} (h : IndexInBuffer s) :
    ∃ t, pushByte b s = .ok t ∧ IndexInBuffer t := by
  have undecodable : IndexInBuffer (handoff true s.releaseHalf) := Nat.zero_lt_of_lt h
  unfold pushByte
  split_ifs
  · unfold pushSecond
    split
    · exact storeAndAdvance_completes h
    · exact ⟨_, rfl, undecodable⟩
  · exact ⟨_, rfl, h⟩
  · exact storeAndAdvance_completes h

/-- R161: `AGG.PUSH` completes and returns nothing. -/
theorem step_aggPush {b : Byte} {s : State} {rest : List Request} (h : IndexInBuffer s)
    (hq : s.requests = encode .byteSource (.aggPush b) :: rest) :
    ∃ t, step s = .next t ∧ IndexInBuffer t ∧ QuietTo rest s t := by
  obtain ⟨u, hu, hidx⟩ := pushByte_completes (b := b) (s := { s with requests := rest }) h
  have hx : exec (.aggPush b) { s with requests := rest } = .next (u.deliver .none) := by
    simp only [exec, execAggPush, hu]
  obtain ⟨hs, hquiet⟩ := step_quiet hq hx rfl
  exact ⟨_, hs, hidx, hquiet⟩

/-- R74: `AGG.PUSHSEQ` completes and returns nothing. -/
theorem runSteps_pushSeq {m : List Byte} {s : State} {rest : List Request} (h : IndexInBuffer s)
    (hq : s.requests = pushSeq m ++ rest) : ∃ t, runSteps m.length s = .next t ∧ QuietTo rest s t := by
  obtain ⟨t, ht, -, hquiet⟩ := runSteps_map_quiet (fun _ _ _ => step_aggPush) m s h hq
  exact ⟨t, ht, hquiet⟩

/-! ## `CRC.STREAM` -/

theorem step_crcInit {s : State} {rest : List Request} (hq : s.requests = encode .client .crcInit :: rest) :
    ∃ t, step s = .next t ∧ t.crcValid = true ∧ QuietTo rest s t := by
  obtain ⟨hs, hquiet⟩ := step_quiet hq rfl rfl
  exact ⟨_, hs, rfl, hquiet⟩

theorem step_crcUpdate {b : Byte} {s : State} {rest : List Request} (hv : s.crcValid = true)
    (hq : s.requests = encode .client (.crcUpdate b) :: rest) :
    ∃ t, step s = .next t ∧ t.crcValid = true ∧ QuietTo rest s t := by
  have hx : exec (.crcUpdate b) { s with requests := rest } =
      .next ((State.setCrc (crcStep s.params.crcPoly s.crcAcc b) { s with requests := rest }).deliver .none) :=
    if_pos hv
  obtain ⟨hs, hquiet⟩ := step_quiet hq hx rfl
  exact ⟨_, hs, rfl, hquiet⟩

/-- R90 on an initialised register. -/
theorem exec_crcFinal_of_valid {s : State} (hv : s.crcValid = true) :
    exec .crcFinal s = .next (s.deliver (.crc (s.crcAcc ^^^ s.params.crcXorout))) := if_pos hv

/-- The `CRC.INIT` and the updates of a stream return nothing and leave the register initialised. -/
theorem runSteps_crcStream_before_final {m : List Byte} {s : State} {rest : List Request}
    (hq : s.requests = crcStream m ++ rest) :
    ∃ u, runSteps (m.length + 1) s = .next u ∧ u.crcValid = true ∧
      QuietTo (encode .client .crcFinal :: rest) s u := by
  have hq' : s.requests = encode .client .crcInit ::
      ((m.map fun b => encode .client (.crcUpdate b)) ++ encode .client .crcFinal :: rest) := by
    simpa [crcStream] using hq
  obtain ⟨v, hv, hvalid, hsv⟩ := step_crcInit hq'
  obtain ⟨u, hu, huvalid, hvu⟩ :=
    runSteps_map_quiet (P := fun s => s.crcValid = true) (fun _ _ _ => step_crcUpdate) m v hvalid hsv.1
  exact ⟨u, (runSteps_succ hv).trans hu, huvalid, hsv.trans hvu⟩

/-! ## `DISPATCH` -/

theorem correctedResult_ne_none (e : Except Status (List Byte × Bool)) : correctedResult e ≠ .none := by
  cases e <;> exact Result.noConfusion

/-- The bytes `FRAME.CHK` reads have all been written (R149, R164), whatever is pending. -/
theorem memReadRange_frame_of_inv {s : State} (hi : s.Inv) :
    ∃ e, ∀ q, memReadRange { s with requests := q } 0 s.frameLen = .ok e := by
  have hread : ∀ k < s.frameLen, (s.buf.read k).isSome = true := fun k hk =>
    (hi.writtenPrefix k).mpr (Nat.lt_of_lt_of_le hk hi.lenLeWritten)
  refine ⟨List.ofFn fun k : Fin s.frameLen => (s.buf.read k).get (hread k k.isLt),
    fun q => memReadRange_ok.mpr ⟨by simp, ?_⟩⟩
  intro k hk
  have hlen : k < s.frameLen := by simpa using hk
  exact ⟨by simpa using Nat.lt_of_lt_of_le hlen (hi.lenLeWritten.trans hi.writtenLeCap), by simp⟩

/-- R149: under the invariant `FRAME.CHK` completes with a result, the same whatever is pending. -/
theorem exec_frameChk_of_inv {s : State} (hi : s.Inv) :
    ∃ r, r ≠ .none ∧ ∀ q,
      exec .frameChk { s with requests := q } = .next { s with requests := q, result := r } := by
  obtain ⟨e, he⟩ := memReadRange_frame_of_inv hi
  cases hh : readFrameHammingError s with
  | true => exact ⟨.failed .hammingError, Result.noConfusion, fun q => if_pos hh⟩
  | false =>
    refine ⟨correctedResult (withCorrected (readFrameCorrected s) (frameCheck s.params e)),
      correctedResult_ne_none _, fun q => ?_⟩
    have hh' : readFrameHammingError { s with requests := q } = false := hh
    simp only [exec, execFrameChk, hh', he q]
    rfl

/-- The step of `FRAME.CHK` for the client software, and the same result from `exec` before it. -/
theorem step_frameChk {s : State} {rest : List Request} (hi : s.Inv)
    (hq : s.requests = encode .client .frameChk :: rest) :
    ∃ r, exec .frameChk s = .next { s with result := r } ∧
      step s = .next { s with requests := rest, result := r, returned := s.returned ++ [⟨.client, r⟩] } := by
  obtain ⟨r, hr, hx⟩ := exec_frameChk_of_inv hi
  refine ⟨r, hx s.requests, ?_⟩
  simp only [step_completes hq (hx rest), State.noteReturn, returnsOf_of_ne hr]

/-- R172 with the overrun bit kept. -/
theorem exec_aggTake_false (s : State) :
    exec (.aggTake false) s = .next { s with frameReady := false, result := .latch (readLatch s) } := rfl

theorem step_aggTake_false {s : State} {rest : List Request}
    (hq : s.requests = encode .client (.aggTake false) :: rest) :
    step s = .next { s with
      requests := rest
      frameReady := false
      result := .latch (readLatch s)
      returned := s.returned ++ [⟨.client, .latch (readLatch s)⟩] } :=
  step_completes hq (exec_aggTake_false _)

/-- R74: the last two results of the client software are the result of the `DISPATCH`. -/
theorem dispatchResult_of_returned {t : State} {before : List Returned} {check take : Result}
    (h : t.returned = before ++ [⟨.client, check⟩] ++ [⟨.client, take⟩]) :
    t.dispatchResult = some (check, take) := by
  simp [State.dispatchResult, h]

/-! ## The pseudo-operations -/

/-- R74: `CRC.STREAM` completes, and the one result it returns is its `CRC.FINAL`'s. -/
theorem crcStream_returns_crcFinal {m : List Byte} {s : State} {rest : List Request}
    (hq : s.requests = crcStream m ++ rest) :
    ∃ u t c, runSteps (m.length + 1) s = .next u ∧ exec .crcFinal u = .next { u with result := .crc c } ∧
      runSteps (m.length + 2) s = .next t ∧ t.requests = rest ∧ t.faults = s.faults ∧
      t.returned = s.returned ++ [⟨.client, .crc c⟩] := by
  obtain ⟨u, hu, hvalid, hreq, hret, hflt⟩ := runSteps_crcStream_before_final hq
  have hlast := step_completes hreq (exec_crcFinal_of_valid (s := { u with requests := rest }) hvalid)
  exact ⟨u, _, _, hu, exec_crcFinal_of_valid hvalid, (runSteps_add hu).trans (runSteps_one hlast), rfl, hflt,
    congrArg (· ++ _) hret⟩

/-- R74: `DISPATCH` completes, and its result is the pair of the two results, both as of the state it begins in. -/
theorem dispatch_returns_pair {s : State} {rest : List Request} (hi : s.Inv) (hq : s.requests = dispatch ++ rest) :
    ∃ t r l, runSteps 2 s = .next t ∧ t.requests = rest ∧ t.faults = s.faults ∧
      exec .frameChk s = .next { s with result := r } ∧
      exec (.aggTake false) s = .next { s with frameReady := false, result := .latch l } ∧
      t.dispatchResult = some (r, .latch l) := by
  obtain ⟨r, hcheck, hstep⟩ := step_frameChk hi hq
  exact ⟨_, r, readLatch s, (runSteps_succ hstep).trans (runSteps_one (step_aggTake_false rfl)), rfl, rfl, hcheck,
    exec_aggTake_false s, dispatchResult_of_returned rfl⟩

/-- R55, R74: pushes between the two operations of `DISPATCH` leave its result the pair, with the latch after them. -/
theorem dispatch_with_pushes_returns_pair {m : List Byte} {s : State} {rest : List Request} (hi : s.Inv)
    (hq : s.requests = encode .client .frameChk :: pushSeq m ++ encode .client (.aggTake false) :: rest) :
    ∃ u t r l, runSteps (m.length + 1) s = .next u ∧ runSteps (m.length + 2) s = .next t ∧ t.requests = rest ∧
      exec .frameChk s = .next { s with result := r } ∧
      exec (.aggTake false) u = .next { u with frameReady := false, result := .latch l } ∧
      t.dispatchResult = some (r, .latch l) := by
  obtain ⟨r, hcheck, hstep⟩ := step_frameChk hi hq
  obtain ⟨u, hpushes, hreq, hret, -⟩ := runSteps_pushSeq (m := m)
    (s := { s with
      requests := pushSeq m ++ encode .client (.aggTake false) :: rest
      result := r
      returned := s.returned ++ [⟨.client, r⟩] }) hi.indexLtCap rfl
  have hu : runSteps (m.length + 1) s = .next u := (runSteps_succ hstep).trans hpushes
  exact ⟨u, _, r, readLatch u, hu, (runSteps_add hu).trans (runSteps_one (step_aggTake_false hreq)), rfl, hcheck,
    exec_aggTake_false u, dispatchResult_of_returned (congrArg (· ++ _) hret)⟩

/-- Settles O5: the request sequences by their definitions, then one lemma per pseudo-operation. -/
theorem pseudoOperationsReturnTheirResults : Obligations.PseudoOperationsReturnTheirResults := by
  unfold Obligations.PseudoOperationsReturnTheirResults
  exact ⟨fun _ => rfl, fun _ => rfl, rfl, fun _ _ _ hi => runSteps_pushSeq hi.indexLtCap,
    fun _ _ _ => crcStream_returns_crcFinal, fun _ _ => dispatch_returns_pair,
    fun _ _ _ => dispatch_with_pushes_returns_pair⟩

end Sys2Proof.Machine
end

section
/-! The CRC32 generator (40_crc32.md R87, R89 to R91): what each of its operations answers, the zero byte on the zero
register, and `CRC.FINAL` on a register that holds the fold of a message. -/

namespace Sys2Proof.Machine

open Sys2Proof

/-! ## The operations -/

theorem exec_crcInit (s : State) : exec .crcInit s = .next ((s.setCrc s.params.crcInit).deliver .none) := rfl

/-- On an initialised register writing the CRC changes no flag. -/
theorem setCrc_of_valid {s : State} (hv : s.crcValid = true) (acc : Word32) :
    s.setCrc acc = { s with crcAcc := acc } := by
  rw [State.setCrc, ← hv]

theorem exec_crcUpdate_of_valid {s : State} (hv : s.crcValid = true) (b : Byte) :
    exec (.crcUpdate b) s = .next ((s.setCrc (crcStep s.params.crcPoly s.crcAcc b)).deliver .none) := if_pos hv

theorem exec_crcUpdate_of_not_valid {s : State} (hv : s.crcValid = false) (b : Byte) :
    exec (.crcUpdate b) s = .fault .crcNotInitialised := if_neg (Bool.eq_false_iff.mp hv)

theorem exec_crcFinal_of_not_valid {s : State} (hv : s.crcValid = false) :
    exec .crcFinal s = .fault .crcNotInitialised := if_neg (Bool.eq_false_iff.mp hv)

theorem exec_crcBlock (m : List Byte) (s : State) :
    exec (.crcBlock m) s = .next (s.deliver (.okCrc (crc32 s.params m))) := rfl

/-! ## The value of the register -/

theorem crcBit_zero (poly : Word32) : crcBit poly 0 = 0 := by
  simp [crcBit]

/-- R89, R94: a zero byte keeps the zero register, whatever the polynomial: 0 is a fixed point of the bit step. -/
theorem crcStep_zero_zero (poly : Word32) : crcStep poly 0 0x00 = 0 :=
  Function.iterate_fixed (crcBit_zero poly) 8

/-- One more byte after a message is one step of its fold. -/
theorem crcFold_concat (p : Params) (acc : Word32) (m : List Byte) (b : Byte) :
    crcFold p acc (m ++ [b]) = crcStep p.crcPoly (crcFold p acc m) b := by
  rw [crcFold_append, crcFold_cons, crcFold_nil]

/-- `FEC_EN` and `PAYLOAD_MAX` do not enter the CRC, so its values can be computed with those of the reset machine. -/
theorem crcFold_ofSpec (f : Bool) (n : Nat) (acc : Word32) (m : List Byte) :
    crcFold (Params.ofSpec f n) acc m = crcFold Params.ofReset acc m := rfl

theorem crc32_ofSpec (f : Bool) (n : Nat) (m : List Byte) : crc32 (Params.ofSpec f n) m = crc32 Params.ofReset m := rfl

/-- R86: the CRC of the empty message under the parameters of R8. -/
theorem crc32_ofSpec_nil (f : Bool) (n : Nat) : crc32 (Params.ofSpec f n) [] = 0xFFFFFFFF := by
  rw [crc32_ofSpec]
  decide

/-- R90: on a register that holds the fold of `m`, `CRC.FINAL` returns the CRC of `m`. -/
theorem exec_crcFinal_of_crcFold {s : State} {m : List Byte} (hv : s.crcValid = true)
    (hacc : s.crcAcc = crcFold s.params s.params.crcInit m) :
    exec .crcFinal s = .next (s.deliver (.crc (crc32 s.params m))) := by
  rw [exec_crcFinal_of_valid hv, hacc]
  rfl

/-- R87, R90: directly after `CRC.INIT` the register holds the fold of the empty message. -/
theorem exec_crcFinal_after_crcInit {s t : State} (h : exec .crcInit s = .next t) :
    exec .crcFinal t = .next (t.deliver (.crc (crc32 s.params []))) := by
  rw [exec_crcInit] at h
  obtain rfl := Host.Outcome.next.inj h
  exact exec_crcFinal_of_crcFold rfl rfl

/-- R89, R90: a `CRC.FINAL` keeps the register, so a `CRC.UPDATE` after it goes on with the message. -/
theorem exec_crcFinal_after_crcFinal_crcUpdate {s u t : State} {m : List Byte} {b : Byte} (hv : s.crcValid = true)
    (hacc : s.crcAcc = crcFold s.params s.params.crcInit m) (hfinal : exec .crcFinal s = .next u)
    (hupdate : exec (.crcUpdate b) u = .next t) :
    exec .crcFinal t = .next (t.deliver (.crc (crc32 s.params (m ++ [b])))) := by
  rw [exec_crcFinal_of_valid hv] at hfinal
  obtain rfl := Host.Outcome.next.inj hfinal
  obtain ⟨-, rfl⟩ := exec_crcUpdate_next hupdate
  refine exec_crcFinal_of_crcFold rfl ?_
  simp [crcFold_concat, hacc]

/-! ## The obligations -/

/-- Settles O14: the write does not read the register, so a second one writes the same. -/
theorem crcInitWritesRegister : Obligations.CrcInitWritesRegister := by
  unfold Obligations.CrcInitWritesRegister
  refine ⟨exec_crcInit, fun s t h => ?_, fun _ _ => rfl⟩
  rw [exec_crcInit] at h
  obtain rfl := Host.Outcome.next.inj h
  rfl

/-- Settles O16: one lemma for each value of `crc_valid`, and the fixed point for the zero byte. -/
theorem crcUpdateAdvancesRegister : Obligations.CrcUpdateAdvancesRegister := by
  unfold Obligations.CrcUpdateAdvancesRegister
  refine ⟨fun s b hv => ?_, fun _ b hv => exec_crcUpdate_of_not_valid hv b, crcStep_zero_zero, by decide +kernel⟩
  rw [exec_crcUpdate_of_valid hv, setCrc_of_valid hv]
  rfl

/-- Settles O17: one lemma for each value of `crc_valid`, and the fold that the register holds for the two streams. -/
theorem crcFinalReturnsCrc : Obligations.CrcFinalReturnsCrc := by
  unfold Obligations.CrcFinalReturnsCrc
  refine ⟨fun _ => exec_crcFinal_of_valid, fun _ => exec_crcFinal_of_not_valid,
    fun _ _ => exec_crcFinal_after_crcInit, fun _ _ _ _ _ => exec_crcFinal_after_crcFinal_crcUpdate,
    crc32_ofSpec_nil, fun f n => ?_⟩
  rw [crcFold_ofSpec, crc32_ofSpec]
  decide +kernel

/-- Settles O18: the operation reads its operand and the parameters only. -/
theorem crcBlockReturnsCrc : Obligations.CrcBlockReturnsCrc := by
  unfold Obligations.CrcBlockReturnsCrc
  refine ⟨fun s m => exec_crcBlock m s, crc32_ofSpec_nil, fun f n => ?_⟩
  rw [crc32_ofSpec]
  decide +kernel

end Sys2Proof.Machine
end

section
/-! The COBS framer and deframer (41_cobs.md): what the two operations answer (R102, R105), and the length of an
encoding against `COBS_MAXLEN` (R112). -/

namespace Sys2Proof.Machine

open Sys2Proof

/-! ## What the operations answer -/

theorem exec_cobsEnc (p : List Byte) (s : State) :
    exec (.cobsEnc p) s = .next (s.deliver (.okBytes (cobsEncode p))) := rfl

theorem exec_cobsDec (e : List Byte) (s : State) :
    exec (.cobsDec e) s = .next (s.deliver (bytesResult (cobsDecode e))) := rfl

/-- R103: wherever the loop stands, what it still appends ends in the terminator. -/
theorem cobsEncodeFrom_ends_in_terminator (p block : List Byte) (isOpen : Bool) :
    ∃ body, cobsEncodeFrom p block isOpen = body ++ [0x00] := by
  induction p, block, isOpen using cobsEncodeFrom.induct with
  | case1 block isOpen => exact ⟨_, cobsEncodeFrom_nil block isOpen⟩
  | case2 rest block isOpen ih =>
    obtain ⟨body, hbody⟩ := ih
    exact ⟨cobsBlock block ++ body, by rw [cobsEncodeFrom_zero, hbody, List.append_assoc]⟩
  | case3 b rest block isOpen hb hl ih =>
    obtain ⟨body, hbody⟩ := ih
    rw [List.length_append] at hl
    exact ⟨cobsBlock (block ++ [b]) ++ body, by rw [cobsEncodeFrom_full b rest block isOpen hb hl, hbody,
      List.append_assoc]⟩
  | case4 b rest block isOpen hb hl ih =>
    rw [List.length_append] at hl
    rwa [cobsEncodeFrom_data b rest block isOpen hb hl]

/-- R106: the loop of the decoder fails with `DecodeError` only. -/
theorem cobsDecodeBlocks_error {fuel : Nat} {body : List Byte} {st : Status}
    (h : cobsDecodeBlocks fuel body = .error st) : st = .decodeError := by
  induction fuel generalizing body with
  | zero =>
    cases body with
    | nil => cases h
    | cons c rest => exact (Except.error.inj h).symm
  | succ fuel ih =>
    cases body with
    | nil => cases h
    | cons c rest =>
      rw [cobsDecodeBlocks_cons] at h
      split at h
      · exact (Except.error.inj h).symm
      · cases hrest : cobsDecodeBlocks fuel (rest.drop (c.toNat - 1)) with
        | ok out =>
          rw [hrest] at h
          cases h
        | error st' =>
          rw [hrest] at h
          cases h
          exact ih hrest

/-- R106: the decoder fails with `DecodeError` only. -/
theorem cobsDecode_error {e : List Byte} {st : Status} (h : cobsDecode e = .error st) : st = .decodeError := by
  dsimp only [cobsDecode] at h
  split at h
  · exact (Except.error.inj h).symm
  · exact (Except.error.inj h).symm
  · split at h
    · exact (Except.error.inj h).symm
    · exact cobsDecodeBlocks_error h

/-! ## The length of an encoding -/

theorem cobsMaxlen_of_le_blockMax {n : Nat} (h : n ≤ cobsBlockMax) : cobsMaxlen n = n + 2 := by
  unfold cobsBlockMax at h
  unfold cobsMaxlen
  split_ifs <;> omega

/-- A full block before a non-empty rest costs its bytes and one code byte. -/
theorem cobsMaxlen_blockMax_add {n : Nat} (h : 0 < n) :
    cobsMaxlen (cobsBlockMax + n) = cobsBlockMax + 1 + cobsMaxlen n := by
  unfold cobsBlockMax cobsMaxlen
  rw [if_neg (by omega), if_neg (by omega)]
  omega

/-- A block of `k` data bytes closed by a zero takes the `k + 1` bytes it consumes, its code byte in the zero's place, and
`COBS_MAXLEN` grows by at least these. -/
theorem add_cobsMaxlen_le (k n : Nat) : k + 1 + cobsMaxlen n ≤ cobsMaxlen (k + 1 + n) := by
  unfold cobsMaxlen
  rw [if_neg (show k + 1 + n ≠ 0 by omega)]
  split_ifs <;> omega

/-- The byte that fills a block: the encoding has the full block's bytes and its code byte, then the terminator alone
when no input remains, or the encoding of what remains (R103). -/
theorem cobsEncodeFrom_full_length {b : Byte} {rest block : List Byte} (hb : b ≠ 0x00)
    (hl : block.length + 1 = cobsBlockMax) :
    (cobsEncodeFrom (b :: rest) block true).length =
      cobsBlockMax + 1 + if rest = [] then 1 else (cobsEncodeFrom rest [] true).length := by
  rw [cobsEncodeFrom_full b rest block true hb hl]
  cases rest <;> simp [hl, cobsEncodeFrom_nil]

/-- R112 with a block open: what the loop still appends is at most `COBS_MAXLEN` of the bytes collected and to come, and
exactly that when no zero is to come. -/
theorem cobsEncodeFrom_length (p block : List Byte) (hblock : block.length < cobsBlockMax) :
    (cobsEncodeFrom p block true).length ≤ cobsMaxlen (block.length + p.length) ∧
    (0x00 ∉ p → (cobsEncodeFrom p block true).length = cobsMaxlen (block.length + p.length)) := by
  induction p generalizing block with
  | nil =>
    have hlen : (cobsEncodeFrom [] block true).length = cobsMaxlen (block.length + 0) := by
      simp [cobsEncodeFrom_nil, cobsMaxlen_of_le_blockMax hblock.le]
    exact ⟨hlen.le, fun _ => hlen⟩
  | cons b rest ih =>
    obtain ⟨hle, heq⟩ : (cobsEncodeFrom rest [] true).length ≤ cobsMaxlen rest.length ∧
        (0x00 ∉ rest → (cobsEncodeFrom rest [] true).length = cobsMaxlen rest.length) := by
      simpa using ih [] (by decide)
    have hcons : block.length + (b :: rest).length = block.length + 1 + rest.length := by
      rw [List.length_cons, Nat.add_comm rest.length, Nat.add_assoc]
    rw [hcons]
    by_cases hb : b = 0x00
    · subst hb
      refine ⟨?_, fun h => absurd List.mem_cons_self h⟩
      calc (cobsEncodeFrom (0x00 :: rest) block true).length
        _ = block.length + 1 + (cobsEncodeFrom rest [] true).length := by
          rw [cobsEncodeFrom_zero, List.length_append, cobsBlock_length]
        _ ≤ block.length + 1 + cobsMaxlen rest.length := Nat.add_le_add_left hle _
        _ ≤ cobsMaxlen (block.length + 1 + rest.length) := add_cobsMaxlen_le _ _
    · by_cases hl : block.length + 1 = cobsBlockMax
      · rw [cobsEncodeFrom_full_length hb hl, hl]
        cases rest with
        | nil => exact ⟨by decide, fun _ => by decide⟩
        | cons c rest =>
          rw [if_neg (List.cons_ne_nil c rest), cobsMaxlen_blockMax_add (by simp)]
          exact ⟨Nat.add_le_add_left hle _, fun h => by rw [heq (List.not_mem_of_not_mem_cons h)]⟩
      · have hopen := ih (block ++ [b]) (by simp; omega)
        rw [List.length_append, List.length_singleton] at hopen
        rw [cobsEncodeFrom_data b rest block true hb hl]
        exact ⟨hopen.1, fun h => hopen.2 (List.not_mem_of_not_mem_cons h)⟩

/-- R112: no encoding of `n` bytes is longer than `COBS_MAXLEN(n)`. -/
theorem cobsEncode_length_le (p : List Byte) : (cobsEncode p).length ≤ cobsMaxlen p.length := by
  simpa [cobsEncode] using (cobsEncodeFrom_length p [] (by decide)).1

/-- R112: a sequence without a zero reaches `COBS_MAXLEN(n)`. -/
theorem cobsEncode_length_of_zero_free {p : List Byte} (h : 0x00 ∉ p) : (cobsEncode p).length = cobsMaxlen p.length := by
  simpa [cobsEncode] using (cobsEncodeFrom_length p [] (by decide)).2 h

/-! ## The obligations -/

/-- Settles O26: both halves from the length with a block open; `n` ones are a sequence that reaches the maximum. -/
theorem cobsMaxlenIsTheMaximum : Obligations.CobsMaxlenIsTheMaximum := by
  unfold Obligations.CobsMaxlenIsTheMaximum
  refine ⟨rfl, fun n hn => if_neg (by omega), cobsEncode_length_le, fun p => cobsEncode_length_of_zero_free, fun n => ?_⟩
  have hones : 0x00 ∉ List.replicate n (0x01 : Byte) := fun h => absurd (List.eq_of_mem_replicate h) (by decide)
  exact ⟨List.replicate n 0x01, List.length_replicate, by
    rw [cobsEncode_length_of_zero_free hones, List.length_replicate]⟩

/-- Settles O22: the operations deliver what the pure functions give, and the decoder's only failure is
`DecodeError`. -/
theorem cobsOperationsComplete : Obligations.CobsOperationsComplete := by
  unfold Obligations.CobsOperationsComplete
  refine ⟨fun s p => ⟨exec_cobsEnc p s, cobsEncodeFrom_ends_in_terminator p [] true⟩, fun s e => ?_, by decide, by decide⟩
  cases h : cobsDecode e with
  | ok p => exact .inl ⟨p, rfl, by rw [exec_cobsDec, h]; rfl⟩
  | error st =>
    obtain rfl := cobsDecode_error h
    exact .inr ⟨rfl, by rw [exec_cobsDec, h]; rfl⟩

end Sys2Proof.Machine
end

section
/-! The Hamming codec and the FEC expander and compressor (42_hamming.md R120, R126, R128): the bits of a code word, the
expansion index by index, and what the loop of the compressor gives for a sequence of pairs. -/

namespace Sys2Proof.Machine

open Sys2Proof

/-! ## What the operations answer -/

theorem exec_hamEnc (v : Nibble) (s : State) : exec (.hamEnc v) s = .next (s.deliver (.codeWord (hamEnc v))) := rfl

theorem exec_fecExpand (m : List Byte) (s : State) :
    exec (.fecExpand m) s = .next (s.deliver (.okBytes (fecExpand m))) := rfl

theorem exec_fecCompress (w : List Byte) (s : State) :
    exec (.fecCompress w) s = .next (s.deliver (correctedResult (fecCompress w))) := rfl

/-! ## The bits of a code word -/

theorem nibbleOfBits_getLsbD (b3 b2 b1 b0 : Bool) (i : Nat) :
    (nibbleOfBits b3 b2 b1 b0).getLsbD i = [b0, b1, b2, b3].getD i false := by
  match i with
  | 0 | 1 | 2 | 3 =>
    revert b3 b2 b1 b0
    decide
  | i + 4 => simp [nibbleOfBits]

/-- R64: the layout of a code word, from bit 0 to bit 7. -/
theorem codeWordOfBits_getLsbD (p8 d4 d3 d2 p4 d1 p2 p1 : Bool) (i : Nat) :
    (codeWordOfBits p8 d4 d3 d2 p4 d1 p2 p1).getLsbD i = [p1, p2, d1, p4, d2, d3, d4, p8].getD i false := by
  simp only [codeWordOfBits, BitVec.getLsbD_append, nibbleOfBits_getLsbD]
  match i with
  | 0 | 1 | 2 | 3 => rfl
  | i + 4 => simp

/-- R66: a nibble join is an or of the nibbles, each at its place. -/
theorem joinNibbles_eq_or (lo hi : Nibble) : joinNibbles lo hi = lo.setWidth 8 ||| (hi.setWidth 8 <<< 4) := by
  rw [joinNibbles, ← BitVec.setWidth_eq (hi ++ lo), BitVec.setWidth_append_eq_shiftLeft_setWidth_or, BitVec.or_comm]

/-! ## The expander -/

theorem fecExpand_length (m : List Byte) : (fecExpand m).length = 2 * m.length := by
  induction m with
  | nil => rfl
  | cons b m ih => simp [fecExpand_cons, ih, Nat.mul_succ]

/-- R126: byte `k` of the input gives the bytes `2k` and `2k + 1` of the expansion. -/
theorem fecExpand_getElem? (m : List Byte) (k : Nat) :
    (fecExpand m)[2 * k]? = m[k]?.map (fun b => hamEnc (lowNibble b)) ∧
      (fecExpand m)[2 * k + 1]? = m[k]?.map (fun b => hamEnc (highNibble b)) := by
  induction m generalizing k with
  | nil => simp [fecExpand_nil]
  | cons b m ih =>
    cases k with
    | zero => exact ⟨rfl, rfl⟩
    | succ k => exact ih k

/-! ## The loop of the compressor -/

theorem fecCompress_of_odd {w : List Byte} (h : w.length % 2 = 1) : fecCompress w = .error .badLength := if_pos h

theorem fecCompress_of_even {w : List Byte} (h : w.length % 2 = 0) : fecCompress w = fecCompressPairs w :=
  if_neg (by omega)

/-- A sequence of pairs is built from nothing by putting a pair in front. -/
theorem pairs_induction {P : (w : List Byte) → w.length % 2 = 0 → Prop} (nil : P [] rfl)
    (pair : ∀ w0 w1 rest (hrest : rest.length % 2 = 0) (hw : (w0 :: w1 :: rest).length % 2 = 0), P rest hrest →
      P (w0 :: w1 :: rest) hw) (w : List Byte) (hw : w.length % 2 = 0) : P w hw := by
  match w with
  | [] => exact nil
  | [_] => cases hw
  | w0 :: w1 :: rest =>
    have hrest : rest.length % 2 = 0 := by
      simp only [List.length_cons] at hw
      omega
    exact pair w0 w1 rest hrest hw (pairs_induction nil pair rest hrest)

/-- R128: a pair in front of a sequence that the loop accepts is decodable, and adds its byte and its correction bit. -/
theorem fecCompressPairs_cons_ok {w0 w1 : Byte} {rest m : List Byte} {c : Bool}
    (h : fecCompressPairs (w0 :: w1 :: rest) = .ok (m, c)) :
    ∃ lo hi m' c', hamDec w0 = some lo ∧ hamDec w1 = some hi ∧ fecCompressPairs rest = .ok (m', c') ∧
      m = joinNibbles lo.v hi.v :: m' ∧ c = (lo.corrected || hi.corrected || c') := by
  rw [fecCompressPairs_cons] at h
  cases hlo : hamDec w0 with
  | none =>
    rw [joinPair_undecodable _ (.inl hlo)] at h
    cases h
  | some lo =>
    cases hhi : hamDec w1 with
    | none =>
      rw [joinPair_undecodable _ (.inr hhi)] at h
      cases h
    | some hi =>
      rw [hlo, hhi, joinPair_decodable] at h
      cases hrest : fecCompressPairs rest with
      | error st =>
        rw [hrest] at h
        cases h
      | ok r =>
        rw [hrest] at h
        cases h
        exact ⟨lo, hi, r.1, r.2, rfl, rfl, rfl, rfl, rfl⟩

/-- R128: an undecodable byte fails the whole, wherever it stands. -/
theorem fecCompressPairs_of_undecodable {w : List Byte} (hw : w.length % 2 = 0) (h : ∃ x ∈ w, hamDec x = none) :
    fecCompressPairs w = .error .hammingError := by
  induction w, hw using pairs_induction with
  | nil => simp at h
  | pair w0 w1 rest _ _ ih =>
    rw [fecCompressPairs_cons]
    by_cases hpair : hamDec w0 = none ∨ hamDec w1 = none
    · exact joinPair_undecodable _ hpair
    · obtain ⟨h0, h1⟩ := not_or.mp hpair
      obtain ⟨lo, hlo⟩ := Option.ne_none_iff_exists'.mp h0
      obtain ⟨hi, hhi⟩ := Option.ne_none_iff_exists'.mp h1
      have hrest : ∃ x ∈ rest, hamDec x = none := by simpa [h0, h1] using h
      rw [hlo, hhi, joinPair_decodable, ih hrest]
      rfl

/-- R128: the loop accepts a sequence whose bytes are all decodable. -/
theorem fecCompressPairs_of_decodable {w : List Byte} (hw : w.length % 2 = 0) (h : ∀ x ∈ w, hamDec x ≠ none) :
    ∃ m c, fecCompressPairs w = .ok (m, c) := by
  induction w, hw using pairs_induction with
  | nil => exact ⟨[], false, rfl⟩
  | pair w0 w1 rest _ _ ih =>
    simp only [List.forall_mem_cons] at h
    obtain ⟨h0, h1, hrest⟩ := h
    obtain ⟨lo, hlo⟩ := Option.ne_none_iff_exists'.mp h0
    obtain ⟨hi, hhi⟩ := Option.ne_none_iff_exists'.mp h1
    obtain ⟨m, c, hok⟩ := ih hrest
    exact ⟨_, _, by rw [fecCompressPairs_cons, hlo, hhi, joinPair_decodable, hok]; rfl⟩

theorem fecCompressPairs_length {w m : List Byte} {c : Bool} (hw : w.length % 2 = 0)
    (h : fecCompressPairs w = .ok (m, c)) : 2 * m.length = w.length := by
  induction w, hw using pairs_induction generalizing m c with
  | nil =>
    cases h
    rfl
  | pair w0 w1 rest _ _ ih =>
    obtain ⟨lo, hi, m', c', -, -, hrest, rfl, -⟩ := fecCompressPairs_cons_ok h
    simp [← ih hrest, Nat.mul_succ]

/-- R128: byte `k` of the output is joined from the data of the bytes `2k` and `2k + 1`. -/
theorem fecCompressPairs_getElem? {w m : List Byte} {c : Bool} {k : Nat} {lo hi : HamDecoded}
    (hw : w.length % 2 = 0) (h : fecCompressPairs w = .ok (m, c)) (hlo : w[2 * k]?.bind hamDec = some lo)
    (hhi : w[2 * k + 1]?.bind hamDec = some hi) : m[k]? = some (joinNibbles lo.v hi.v) := by
  induction w, hw using pairs_induction generalizing m c k with
  | nil => cases hlo
  | pair w0 w1 rest _ _ ih =>
    obtain ⟨lo', hi', m', c', hlo', hhi', hrest, rfl, -⟩ := fecCompressPairs_cons_ok h
    cases k with
    | zero =>
      obtain rfl : lo' = lo := Option.some.inj (hlo'.symm.trans hlo)
      obtain rfl : hi' = hi := Option.some.inj (hhi'.symm.trans hhi)
      rfl
    | succ k => exact ih (m := m') (k := k) hrest hlo hhi

/-- R128: `corrected` is set exactly when some code word was corrected. -/
theorem fecCompressPairs_corrected {w m : List Byte} {c : Bool} (hw : w.length % 2 = 0)
    (h : fecCompressPairs w = .ok (m, c)) : c = true ↔ ∃ x ∈ w, ∃ d, hamDec x = some d ∧ d.corrected = true := by
  induction w, hw using pairs_induction generalizing m c with
  | nil =>
    cases h
    simp
  | pair w0 w1 rest _ _ ih =>
    obtain ⟨lo, hi, m', c', hlo, hhi, hrest, -, rfl⟩ := fecCompressPairs_cons_ok h
    simp [hlo, hhi, ih hrest, or_assoc]

/-! ## The obligations -/

/-- Settles O31: the length and the two bytes of each input byte by induction on the sequence. -/
theorem fecExpandInterleavesCodeWords : Obligations.FecExpandInterleavesCodeWords := by
  unfold Obligations.FecExpandInterleavesCodeWords
  refine ⟨fun s m => ⟨fecExpand m, exec_fecExpand m s, fecExpand_length m, fun k hk => ?_⟩, by decide +kernel⟩
  obtain ⟨hlow, hhigh⟩ := fecExpand_getElem? m k
  rw [hlow, hhigh, List.getElem?_eq_getElem hk]
  exact ⟨rfl, rfl⟩

/-- Settles O32: the odd length by the first test, and the other two cases by the loop over the pairs. -/
theorem fecCompressJoinsPairs : Obligations.FecCompressJoinsPairs := by
  unfold Obligations.FecCompressJoinsPairs
  refine ⟨fun s w hw => ?_, fun s w hw hbad => ?_, fun s w hw hgood => ?_, by decide +kernel⟩
  · rw [exec_fecCompress, fecCompress_of_odd hw]
    rfl
  · rw [exec_fecCompress, fecCompress_of_even hw, fecCompressPairs_of_undecodable hw hbad]
    rfl
  · obtain ⟨m, c, h⟩ := fecCompressPairs_of_decodable hw hgood
    refine ⟨m, c, ?_, fecCompressPairs_length hw h, fun k lo hi hlo hhi => ?_, fecCompressPairs_corrected hw h⟩
    · rw [exec_fecCompress, fecCompress_of_even hw, h]
      rfl
    · rw [fecCompressPairs_getElem? hw h hlo hhi, joinNibbles_eq_or]

/-- Settles O28: each bit is read off the layout of the code word. -/
theorem hamEncComputesParities : Obligations.HamEncComputesParities := by
  unfold Obligations.HamEncComputesParities
  refine ⟨fun s v => ⟨hamEnc v, exec_hamEnc v s, ?_⟩, by decide⟩
  simp only [hamEnc, codeWordOfBits_getLsbD]
  exact ⟨rfl, rfl, rfl, rfl, rfl, rfl, rfl, rfl⟩

end Sys2Proof.Machine
end

section
/-! The frame codec (43_frame_codec.md): what `FRAME.ENC` and `FRAME.DEC` answer (R141, R143, R145), the verdict of
`frame_check` by what the COBS stage gives (R146), and the statuses the stages can name (R147). -/

namespace Sys2Proof.Machine

open Sys2Proof

/-! ## What the operations answer -/

/-- R141: within `PAYLOAD_MAX` the frame of the payload. -/
theorem exec_frameEnc_of_le {p : List Byte} {s : State} (h : p.length ≤ s.params.payloadMax) :
    exec (.frameEnc p) s = .next (s.deliver (.okBytes (frameEncode s.params p))) := if_neg (Nat.not_lt.mpr h)

/-- R143: beyond `PAYLOAD_MAX` the capacity fault. -/
theorem exec_frameEnc_of_lt {p : List Byte} {s : State} (h : s.params.payloadMax < p.length) :
    exec (.frameEnc p) s = .fault (.capacityFault p.length) := if_pos h

theorem exec_frameDec (w : List Byte) (s : State) :
    exec (.frameDec w) s = .next (s.deliver (correctedResult (frameDecode s.params w))) := rfl

/-! ## The trailer -/

/-- R43: the trailer of the order `little`, reversed under any other order. -/
theorem crcTrailer_eq_ite (o : TrailerOrder) (c : Word32) :
    crcTrailer o c = if o = .little then crcTrailer .little c else (crcTrailer .little c).reverse := by
  cases o <;> rfl

/-- R66: under `little` the stored CRC is an or of the trailer's bytes, each at its place. -/
theorem storedCrc_little (t0 t1 t2 t3 : Byte) :
    storedCrc .little [t0, t1, t2, t3] =
      some (t0.setWidth 32 ||| (t1.setWidth 32 <<< 8) ||| (t2.setWidth 32 <<< 16) ||| (t3.setWidth 32 <<< 24)) := by
  have hor : t3 ++ t2 ++ t1 ++ t0 =
      t0.setWidth 32 ||| (t1.setWidth 32 <<< 8) ||| (t2.setWidth 32 <<< 16) ||| (t3.setWidth 32 <<< 24) := by
    apply BitVec.eq_of_getLsbD_eq
    intro i hi
    simp only [BitVec.getLsbD_append, BitVec.getLsbD_or, BitVec.getLsbD_shiftLeft, BitVec.getLsbD_setWidth]
    grind
  exact congrArg some hor

/-! ## The verdict of `frame_check` -/

/-- R146: a failure of the COBS stage is the verdict. -/
theorem frameCheck_of_cobsDecode_error {e : List Byte} {st : Status} (p : Params) (h : cobsDecode e = .error st) :
    frameCheck p e = .error st := by
  simp only [frameCheck, h]

/-- R146: plain bytes too few for a trailer are a CRC error. -/
theorem frameCheck_of_short {e plain : List Byte} (p : Params) (h : cobsDecode e = .ok plain)
    (hshort : plain.length < crcBytes) : frameCheck p e = .error .crcError := by
  simp only [frameCheck, h, if_pos hshort]

/-- R146: plain bytes that end in a trailer are judged by the CRC it stores. -/
theorem frameCheck_of_trailer {e m trailer : List Byte} (p : Params) (h : cobsDecode e = .ok (m ++ trailer))
    (ht : trailer.length = crcBytes) :
    frameCheck p e = if storedCrc p.trailerOrder trailer = some (crc32 p m) then .ok m else .error .crcError := by
  have hlen : (m ++ trailer).length = m.length + crcBytes := by rw [List.length_append, ht]
  simp only [frameCheck, h, hlen, Nat.add_sub_cancel, List.take_left, List.drop_left]
  exact if_neg (Nat.not_lt.mpr (Nat.le_add_left _ _))

/-- R147: `frame_check` fails with the status of the COBS stage or of the CRC stage. -/
theorem frameCheck_error {p : Params} {e : List Byte} {st : Status} (h : frameCheck p e = .error st) :
    st = .decodeError ∨ st = .crcError := by
  cases hdec : cobsDecode e with
  | error st' =>
    rw [frameCheck_of_cobsDecode_error p hdec] at h
    exact .inl (cobsDecode_error (hdec.trans h))
  | ok plain =>
    right
    simp only [frameCheck, hdec] at h
    split_ifs at h <;> exact (Except.error.inj h).symm

/-! ## The stages of `FRAME.DEC` -/

/-- R128: the compressor fails with `BadLength` or with `HammingError` only. -/
theorem fecCompress_error {w : List Byte} {st : Status} (h : fecCompress w = .error st) :
    st = .badLength ∨ st = .hammingError := by
  rcases Nat.mod_two_eq_zero_or_one w.length with hw | hw
  · right
    rw [fecCompress_of_even hw] at h
    by_cases hbad : ∃ x ∈ w, hamDec x = none
    · rw [fecCompressPairs_of_undecodable hw hbad] at h
      exact (Except.error.inj h).symm
    · obtain ⟨m, c, hok⟩ := fecCompressPairs_of_decodable hw fun x hx hnone => hbad ⟨x, hx, hnone⟩
      rw [hok] at h
      cases h
  · rw [fecCompress_of_odd hw] at h
    exact .inl (Except.error.inj h).symm

/-- R145: with FEC a failing compressor names the status. -/
theorem frameDecode_of_fecCompress_error {p : Params} {w : List Byte} {st : Status} (hf : p.fecEn = true)
    (h : fecCompress w = .error st) : frameDecode p w = .error st := by
  simp only [frameDecode, hf, h, if_true]

/-- R145: with FEC the compressed bytes go to `frame_check`, the correction bit beside the verdict. -/
theorem frameDecode_of_fecCompress_ok {p : Params} {w e : List Byte} {c : Bool} (hf : p.fecEn = true)
    (h : fecCompress w = .ok (e, c)) : frameDecode p w = withCorrected c (frameCheck p e) := by
  simp only [frameDecode, hf, h, if_true]

/-- R145: without FEC the bytes go to `frame_check` as they are. -/
theorem frameDecode_plain {p : Params} (w : List Byte) (hf : p.fecEn = false) :
    frameDecode p w = withCorrected false (frameCheck p w) := by
  simp only [frameDecode, hf, Bool.false_eq_true, if_false]

/-! ## The obligations -/

/-- Settles O34: the two arms of the operation, with the trailer written out by the order. -/
theorem frameEncBuildsFrame : Obligations.FrameEncBuildsFrame := by
  unfold Obligations.FrameEncBuildsFrame
  refine ⟨fun s p hp => ?_, fun s p hp => exec_frameEnc_of_lt hp, by decide +kernel, by decide +kernel⟩
  rw [exec_frameEnc_of_le hp, frameEncode, framePlain, crcTrailer_eq_ite]
  rfl

/-- Settles O38: the three exits of the check; under `little` the stored CRC is the or of the trailer's bytes. -/
theorem frameCheckComparesTrailer : Obligations.FrameCheckComparesTrailer := by
  unfold Obligations.FrameCheckComparesTrailer
  refine ⟨fun p e => frameCheck_of_cobsDecode_error p, fun p e plain => frameCheck_of_short p,
    fun p e m t0 t1 t2 t3 ho h => ?_⟩
  rw [frameCheck_of_trailer p h rfl, ho, storedCrc_little]
  simp only [Option.some.injEq, eq_comm]

/-- Settles O37: the Hamming stage decides alone when it fails, and otherwise hands its bytes to the check. -/
theorem frameDecRunsStagesInOrder : Obligations.FrameDecRunsStagesInOrder := by
  unfold Obligations.FrameDecRunsStagesInOrder
  refine ⟨fun s w st hf h => ⟨?_, fecCompress_error h⟩, fun s w e c hstage => ?_, by decide +kernel⟩
  · rw [exec_frameDec, frameDecode_of_fecCompress_error hf h]
    rfl
  · have hdec : frameDecode s.params w = withCorrected c (frameCheck s.params e) := by
      obtain ⟨hf, h⟩ | ⟨hf, rfl, rfl⟩ := hstage
      · exact frameDecode_of_fecCompress_ok hf h
      · exact frameDecode_plain _ hf
    refine ⟨fun p h => ?_, fun st h => ⟨?_, frameCheck_error h⟩⟩ <;>
    · rw [exec_frameDec, hdec, h]
      rfl

end Sys2Proof.Machine
end

section
/-! The frame aggregator (44_frame_aggregator.md): `AGG.PUSH` forward, case by case, with the next state written out
(R163, R165, R168), and what `AGG.RDBUF` (R175, R176) and `AGG.TAKE` (R172) answer. -/

namespace Sys2Proof.Machine

open Sys2Proof

/-! ## The shared operations, written out -/

theorem frameComplete_iff {b : Byte} {index : Nat} {p : Params} :
    frameComplete b index p = true ↔ b = 0x00 ∨ index = p.cap := by simp [frameComplete]

/-- R168 when `FEC_EN = 0`: there is no correction flag to hand over or to clear. -/
theorem handoff_plain {s : State} (e : Bool) (hf : s.params.fecEn = false) :
    handoff e s = { s with
      frameReady := true
      frameLen := s.aggIndex
      frameCorrected := false
      frameHammingError := e
      frameOverrun := s.frameReady || s.frameOverrun
      aggIndex := 0 } := by
  simp [handoff, State.setLatch, State.setAggIndex, State.setAggCorrected, readAggCorrected, overrunAfterHandoff, hf]

/-- R168 when `FEC_EN = 1`: the correction flag moves to the latch and starts the next frame clear. -/
theorem handoff_fec {s : State} (e : Bool) (hf : s.params.fecEn = true) :
    handoff e s = { s with
      frameReady := true
      frameLen := s.aggIndex
      frameCorrected := s.aggCorrected
      frameHammingError := e
      frameOverrun := s.frameReady || s.frameOverrun
      aggIndex := 0
      aggCorrected := false } := by
  simp [handoff, State.setLatch, State.setAggIndex, State.setAggCorrected, readAggCorrected, overrunAfterHandoff, hf]

/-! ## The body of `AGG.PUSH`, case by case -/

theorem exec_aggPush_of_ok {b : Byte} {s t : State} (h : pushByte b s = .ok t) :
    exec (.aggPush b) s = .next (t.deliver .none) := by
  simp only [exec, execAggPush, h]

/-- A push whose byte to store is `v`: the state after the store and the advance, handed off when the frame is
complete. -/
theorem exec_aggPush_of_store {b v : Byte} {s u : State} (h : pushByte b s = storeAndAdvance v u)
    (hi : u.aggIndex < u.params.cap) :
    exec (.aggPush b) s = .next (
      if v = 0x00 ∨ u.aggIndex + 1 = u.params.cap then (handoff false (advanced v u)).deliver .none
      else (advanced v u).deliver .none) := by
  rw [exec_aggPush_of_ok (h.trans (storeAndAdvance_of_lt hi))]
  simp only [frameComplete_iff, apply_ite (State.deliver .none)]

theorem pushByte_plain {b : Byte} {s : State} (hf : s.params.fecEn = false) : pushByte b s = storeAndAdvance b s := by
  simp [pushByte, hf]

theorem pushByte_firstOfPair {b : Byte} {s : State} (hf : s.params.fecEn = true) (hv : s.aggHalfValid = false) :
    pushByte b s = .ok (s.holdHalf b) := by
  simp [pushByte, hf, hv]

theorem pushByte_secondOfPair {b : Byte} {s : State} (hf : s.params.fecEn = true) (hv : s.aggHalfValid = true) :
    pushByte b s = pushSecond b s := by
  rw [pushByte, if_pos hf, if_pos hv]

theorem pushSecond_undecodable {b : Byte} {s : State} (hn : hamDec s.aggHalf = none ∨ hamDec b = none) :
    pushSecond b s = .ok (handoff true s.releaseHalf) := by
  unfold pushSecond
  split
  · rename_i hlo hhi
    rcases hn with hn | hn
    · cases hn.symm.trans hlo
    · cases hn.symm.trans hhi
  · rfl

theorem pushSecond_decoded {b : Byte} {s : State} {lo hi : HamDecoded} (hf : s.params.fecEn = true)
    (hlo : hamDec s.aggHalf = some lo) (hhi : hamDec b = some hi) :
    pushSecond b s = storeAndAdvance (lo.v.setWidth 8 ||| (hi.v.setWidth 8 <<< 4)) { s with
      aggHalfValid := false
      aggCorrected := s.aggCorrected || lo.corrected || hi.corrected } := by
  have hset (c : Bool) : s.releaseHalf.setAggCorrected c = { s with aggHalfValid := false, aggCorrected := c } := by
    simp [State.releaseHalf, State.setAggCorrected, hf]
  have hread : readAggCorrected s = s.aggCorrected := by simp [readAggCorrected, hf]
  unfold pushSecond
  rw [hlo, hhi, ← joinNibbles_eq_or, ← hset, ← hread]

/-! ## What `AGG.RDBUF` answers -/

theorem exec_aggRdbuf_of_cap_le {s : State} {idx : Nat} (h : s.params.cap ≤ idx) :
    exec (.aggRdbuf idx) s = .fault (.bufferIndexFault idx) := if_pos h

theorem exec_aggRdbuf_of_written_le {s : State} {idx : Nat} (h : idx < s.params.cap) (hw : s.bufWritten ≤ idx) :
    exec (.aggRdbuf idx) s = .fault (.unwrittenRead idx) := by
  simp only [exec, execAggRdbuf, if_neg (Nat.not_le.mpr h), if_pos hw]

theorem exec_aggRdbuf_of_read {s : State} {idx : Nat} {b : Byte} (h : idx < s.params.cap) (hw : idx < s.bufWritten)
    (hb : s.buf.read idx = some b) : exec (.aggRdbuf idx) s = .next (s.deliver (.byte b)) := by
  simp only [exec, execAggRdbuf, if_neg (Nat.not_le.mpr h), if_neg (Nat.not_le.mpr hw), memRead_ok.mpr ⟨h, hb⟩]

/-- R26: under the invariant every index below `buf_written` holds a byte and lies in the buffer. -/
theorem State.Inv.exists_read {s : State} (hi : s.Inv) {idx : Nat} (hw : idx < s.bufWritten) :
    ∃ b, s.buf.read idx = some b ∧ idx < s.params.cap := by
  obtain ⟨b, hb⟩ := Option.isSome_iff_exists.mp ((hi.writtenPrefix idx).mpr hw)
  exact ⟨b, hb, Nat.lt_of_lt_of_le hw hi.writtenLeCap⟩

/-! ## The obligations -/

/-- Settles O44: the byte itself is stored, and the hand-off has no flags of the FEC to pass on. -/
theorem pushStoresWireByte : Obligations.PushStoresWireByte := by
  unfold Obligations.PushStoresWireByte
  intro s b hf hi stored
  rw [exec_aggPush_of_store (pushByte_plain hf) hi, handoff_plain]
  · rfl
  · exact hf

/-- Settles O45: a held byte, a hand-off without a store, and the store of the joined byte as without FEC. -/
theorem pushDecodesPairs : Obligations.PushDecodesPairs := by
  unfold Obligations.PushDecodesPairs
  refine ⟨fun s b hf hv => ?_, fun s b hf hv hn => ?_, ?_⟩
  · exact exec_aggPush_of_ok (pushByte_firstOfPair hf hv)
  · have hpush := (pushByte_secondOfPair hf hv).trans (pushSecond_undecodable hn)
    rw [exec_aggPush_of_ok hpush, handoff_fec]
    · rfl
    · exact hf
  · intro s b lo hi hf hv hlo hhi hidx byte corrected stored
    have hpush := (pushByte_secondOfPair hf hv).trans (pushSecond_decoded hf hlo hhi)
    rw [exec_aggPush_of_store hpush hidx, handoff_fec]
    · rfl
    · exact hf

/-- Settles O50: one lemma for each range of the index, and the written prefix of the invariant. -/
theorem rdbufReadsWrittenBytes : Obligations.RdbufReadsWrittenBytes := by
  unfold Obligations.RdbufReadsWrittenBytes
  exact ⟨fun _ _ => exec_aggRdbuf_of_cap_le, fun _ _ => exec_aggRdbuf_of_written_le,
    fun _ _ _ => exec_aggRdbuf_of_read, fun _ _ hi hw => hi.exists_read hw⟩

/-- Settles O49: the two values of the operand, each with its overrun bit. -/
theorem takeReadsAndClears : Obligations.TakeReadsAndClears := by
  unfold Obligations.TakeReadsAndClears
  intro s c
  cases c with
  | false => exact exec_aggTake_false s
  | true => rfl

end Sys2Proof.Machine
end

section
/-! The time reference (45_time_reference.md): what `TREF.REBASE` (R187), `TREF.GET` (R189, R191, R192) and
`TREF.ISSET` (R193) answer. -/

namespace Sys2Proof.Machine

open Sys2Proof

/-! ## What the operations answer -/

theorem exec_trefRebase (t n : Word64) (s : State) :
    exec (.trefRebase t n) s = .next ((s.setReference t n).deliver .none) := rfl

theorem exec_trefGet_of_lt {s : State} {n : Word64} (h : n.toNat < s.rtcReference.toNat) :
    exec (.trefGet n) s = .fault (.timeUnderflow n s.rtcReference) := if_pos h

/-- From the reference on, `TREF.GET` depends on the sum alone. -/
theorem exec_trefGet_of_le {s : State} {n : Word64} (h : s.rtcReference.toNat ≤ n.toNat) :
    exec (.trefGet n) s =
      if 2 ^ 64 ≤ s.utcReference.toNat + elapsedSeconds n s.rtcReference then
        .fault (.timeOverflow s.utcReference (elapsedSeconds n s.rtcReference))
      else .next (s.deliver (.time (.ofNat 64 (s.utcReference.toNat + elapsedSeconds n s.rtcReference)))) :=
  if_neg (Nat.not_lt.mpr h)

theorem exec_trefGet_of_overflow {s : State} {n : Word64} (h : s.rtcReference.toNat ≤ n.toNat)
    (hsum : 2 ^ 64 ≤ s.utcReference.toNat + elapsedSeconds n s.rtcReference) :
    exec (.trefGet n) s = .fault (.timeOverflow s.utcReference (elapsedSeconds n s.rtcReference)) :=
  (exec_trefGet_of_le h).trans (if_pos hsum)

theorem exec_trefGet_of_sum_lt {s : State} {n : Word64} (h : s.rtcReference.toNat ≤ n.toNat)
    (hsum : s.utcReference.toNat + elapsedSeconds n s.rtcReference < 2 ^ 64) :
    exec (.trefGet n) s =
      .next (s.deliver (.time (.ofNat 64 (s.utcReference.toNat + elapsedSeconds n s.rtcReference)))) :=
  (exec_trefGet_of_le h).trans (if_neg (Nat.not_le.mpr hsum))

theorem exec_trefIsset (s : State) : exec .trefIsset s = .next (s.deliver (.isSet (timeIsSet s))) := rfl

theorem timeIsSet_of_zero {s : State} (h : s.utcReference = 0) : timeIsSet s = false := by simp [timeIsSet, h]

theorem timeIsSet_of_ne_zero {s : State} (h : s.utcReference ≠ 0) : timeIsSet s = true := bne_iff_ne.mpr h

/-! ## The obligations -/

/-- Settles O53: both registers are written, then nothing is returned. -/
theorem rebaseWritesReference : Obligations.RebaseWritesReference := by
  unfold Obligations.RebaseWritesReference
  exact fun s t n => exec_trefRebase t n s

/-- Settles O55: one lemma for each range of the tick count and the sum; a sum below 2^64 fits the result, and the
example is the third case with the sum 1060. -/
theorem getComputesVirtualTime : Obligations.GetComputesVirtualTime := by
  unfold Obligations.GetComputesVirtualTime
  refine ⟨fun _ _ => exec_trefGet_of_lt, fun _ _ => exec_trefGet_of_overflow, fun s n h hsum => ?_, fun s hu hr => ?_⟩
  · exact ⟨_, exec_trefGet_of_sum_lt h hsum, (BitVec.toNat_ofNat _ _).trans (Nat.mod_eq_of_lt hsum)⟩
  · have hle : s.rtcReference.toNat ≤ (65000 : Word64).toNat := by rw [hr]; decide
    have hsum : s.utcReference.toNat + elapsedSeconds 65000 s.rtcReference = 1060 := by rw [hu, hr]; decide
    rw [exec_trefGet_of_sum_lt hle (hsum.trans_lt (by decide)), hsum]
    rfl

/-- Settles O57: the two values of the test of `utc_reference`. -/
theorem issetTestsUtcReference : Obligations.IssetTestsUtcReference := by
  unfold Obligations.IssetTestsUtcReference
  refine ⟨fun s h => ?_, fun s h => ?_⟩
  · rw [exec_trefIsset, timeIsSet_of_zero h]
    rfl
  · rw [exec_trefIsset, timeIsSet_of_ne_zero h]
    rfl

end Sys2Proof.Machine
end

section
/-! The statuses that operations return (60_exceptions.md R200): what an operation with tests delivers when it completes,
the operation that a failure names as its producer, and that only operations without writes return a status. -/

namespace Sys2Proof.Machine

open Sys2Proof

/-! ## What the operations with tests deliver when they complete -/

theorem exec_crcFinal_next {s t : State} (h : exec .crcFinal s = .next t) : ∃ c, t = s.deliver (.crc c) := by
  cases hv : s.crcValid with
  | false => cases (exec_crcFinal_of_not_valid hv).symm.trans h
  | true => exact ⟨_, Host.Outcome.next.inj (h.symm.trans (exec_crcFinal_of_valid hv))⟩

theorem exec_frameEnc_next {p : List Byte} {s t : State} (h : exec (.frameEnc p) s = .next t) :
    ∃ m, t = s.deliver (.okBytes m) := by
  rcases Nat.lt_or_ge s.params.payloadMax p.length with hp | hp
  · cases (exec_frameEnc_of_lt hp).symm.trans h
  · exact ⟨_, Host.Outcome.next.inj (h.symm.trans (exec_frameEnc_of_le hp))⟩

/-- R149: `FRAME.CHK` returns the Hamming failure of the latch, or the verdict of the check on some bytes. -/
theorem exec_frameChk_next {s t : State} (h : exec .frameChk s = .next t) :
    t = s.deliver (.failed .hammingError) ∨
      ∃ c e, t = s.deliver (correctedResult (withCorrected c (frameCheck s.params e))) := by
  simp only [exec, execFrameChk] at h
  split_ifs at h
  · exact .inl (Host.Outcome.next.inj h).symm
  · split at h
    · cases h
    · exact .inr ⟨_, _, (Host.Outcome.next.inj h).symm⟩

theorem exec_aggRdbuf_next {idx : Nat} {s t : State} (h : exec (.aggRdbuf idx) s = .next t) :
    ∃ b, t = s.deliver (.byte b) := by
  simp only [exec, execAggRdbuf] at h
  split_ifs at h
  split at h
  · cases h
  · exact ⟨_, (Host.Outcome.next.inj h).symm⟩

theorem exec_trefGet_next {n : Word64} {s t : State} (h : exec (.trefGet n) s = .next t) :
    ∃ r, t = s.deliver (.time r) := by
  simp only [exec, execTrefGet] at h
  split_ifs at h
  exact ⟨_, (Host.Outcome.next.inj h).symm⟩

/-! ## Results that carry a status -/

/-- R200: a status other than `Ok` stands alone in its result. -/
theorem eq_failed_of_status? {r : Result} {st : Status} (h : r.status? = some st) (hst : st ≠ .ok) :
    r = .failed st := by
  cases r with
  | failed st' => exact congrArg Result.failed (Option.some.inj h)
  | okCrc | okBytes | okCorrected => exact absurd (Option.some.inj h).symm hst
  | none | crc | codeWord | decoded | latch | byte | time | isSet => cases h

theorem bytesResult_status?_isSome (e : Except Status (List Byte)) : (bytesResult e).status?.isSome = true := by
  cases e <;> rfl

theorem correctedResult_status?_isSome (e : Except Status (List Byte × Bool)) :
    (correctedResult e).status?.isSome = true := by
  cases e <;> rfl

theorem bytesResult_eq_failed {e : Except Status (List Byte)} {st : Status} (h : bytesResult e = .failed st) :
    e = .error st := by
  cases e with
  | ok m => cases h
  | error st' => exact congrArg Except.error (Result.failed.inj h)

theorem correctedResult_eq_failed {e : Except Status (List Byte × Bool)} {st : Status}
    (h : correctedResult e = .failed st) : e = .error st := by
  cases e with
  | ok m => cases h
  | error st' => exact congrArg Except.error (Result.failed.inj h)

/-- R147: with the correction bit beside it the check fails as before. -/
theorem withCorrected_frameCheck_error {p : Params} {c : Bool} {e : List Byte} {st : Status}
    (h : withCorrected c (frameCheck p e) = .error st) : st = .decodeError ∨ st = .crcError := by
  cases hcheck : frameCheck p e with
  | ok m =>
    rw [hcheck] at h
    cases h
  | error st' =>
    rw [hcheck] at h
    obtain rfl := Except.error.inj h
    exact frameCheck_error hcheck

/-- R145, R147: `FRAME.DEC` fails with a status of the Hamming stage, with FEC only, or of the check. -/
theorem frameDecode_error {p : Params} {w : List Byte} {st : Status} (h : frameDecode p w = .error st) :
    (p.fecEn = true ∧ (st = .badLength ∨ st = .hammingError)) ∨ st = .decodeError ∨ st = .crcError := by
  cases hf : p.fecEn with
  | false =>
    rw [frameDecode_plain w hf] at h
    exact .inr (withCorrected_frameCheck_error h)
  | true =>
    cases hfec : fecCompress w with
    | error st' =>
      rw [frameDecode_of_fecCompress_error hf hfec] at h
      obtain rfl := Except.error.inj h
      exact .inl ⟨rfl, fecCompress_error hfec⟩
    | ok r =>
      rw [frameDecode_of_fecCompress_ok hf hfec] at h
      exact .inr (withCorrected_frameCheck_error h)

/-! ## Which operations return a status -/

/-- The operations that return a status (R200). -/
def returnsStatus : Instr → Bool
  | .crcBlock _ | .cobsEnc _ | .cobsDec _ | .fecExpand _ | .fecCompress _ | .frameEnc _ | .frameDec _ | .frameChk => true
  | _ => false

/-- R200: they are those of format S and `FRAME.CHK`. -/
theorem returnsStatus_iff (i : Instr) : returnsStatus i = true ↔ formatOf i.code = some .S ∨ i = .frameChk := by
  cases i <;> simp [returnsStatus, formatOf, opTable, Instr.code]

theorem writesNothing_of_returnsStatus {i : Instr} (h : returnsStatus i = true) : i.writesNothing = true := by
  cases i with
  | crcInit | crcUpdate | aggPush | aggTake | trefRebase => cases h
  | _ => rfl

/-- The table of R200 read by status: `i` is one of the operations that can fail with it, under the parameters `p`. -/
def FailureOf (p : Params) (i : Instr) : Status → Prop
  | .ok | .deserializeError | .validationError => False
  | .decodeError => i = .frameChk ∨ ∃ e, i = .cobsDec e ∨ i = .frameDec e
  | .crcError => i = .frameChk ∨ ∃ e, i = .frameDec e
  | .hammingError => i = .frameChk ∨ ∃ w, i = .fecCompress w ∨ i = .frameDec w
  | .badLength => (∃ w, i = .fecCompress w) ∨ (p.fecEn = true ∧ ∃ w, i = .frameDec w)

theorem failureOf_frameDec {p : Params} {w : List Byte} {st : Status} (h : frameDecode p w = .error st) :
    FailureOf p (.frameDec w) st := by
  rcases frameDecode_error h with ⟨hf, rfl | rfl⟩ | rfl | rfl
  · exact .inr ⟨hf, w, rfl⟩
  · exact .inr ⟨w, .inr rfl⟩
  · exact .inr ⟨w, .inr rfl⟩
  · exact .inr ⟨w, rfl⟩

/-- R200: an operation that completes returns a status exactly when it is one of those that do, and fails only with a
status that the table gives it. -/
theorem exec_next_status {i : Instr} {s t : State} (h : exec i s = .next t) :
    t.result.status?.isSome = returnsStatus i ∧ ∀ st, t.result = .failed st → FailureOf s.params i st := by
  cases i with
  | cobsDec e =>
    obtain rfl := Host.Outcome.next.inj h
    refine ⟨bytesResult_status?_isSome _, fun st hst => ?_⟩
    obtain rfl := cobsDecode_error (bytesResult_eq_failed hst)
    exact .inr ⟨e, .inl rfl⟩
  | fecCompress w =>
    obtain rfl := Host.Outcome.next.inj h
    refine ⟨correctedResult_status?_isSome _, fun st hst => ?_⟩
    obtain rfl | rfl := fecCompress_error (correctedResult_eq_failed hst)
    · exact .inl ⟨w, rfl⟩
    · exact .inr ⟨w, .inl rfl⟩
  | frameDec w =>
    obtain rfl := Host.Outcome.next.inj h
    exact ⟨correctedResult_status?_isSome _, fun st hst => failureOf_frameDec (correctedResult_eq_failed hst)⟩
  | frameChk =>
    obtain rfl | ⟨c, e, rfl⟩ := exec_frameChk_next h
    · refine ⟨rfl, fun st hst => ?_⟩
      obtain rfl := Result.failed.inj hst
      exact .inl rfl
    · refine ⟨correctedResult_status?_isSome _, fun st hst => ?_⟩
      obtain rfl | rfl := withCorrected_frameCheck_error (correctedResult_eq_failed hst)
      · exact .inl rfl
      · exact .inl rfl
  | crcUpdate b =>
    obtain ⟨-, rfl⟩ := exec_crcUpdate_next h
    exact ⟨rfl, nofun⟩
  | aggPush b =>
    obtain ⟨u, -, rfl⟩ := exec_aggPush_next h
    exact ⟨rfl, nofun⟩
  | crcFinal =>
    obtain ⟨c, rfl⟩ := exec_crcFinal_next h
    exact ⟨rfl, nofun⟩
  | frameEnc p =>
    obtain ⟨m, rfl⟩ := exec_frameEnc_next h
    exact ⟨rfl, nofun⟩
  | aggRdbuf idx =>
    obtain ⟨b, rfl⟩ := exec_aggRdbuf_next h
    exact ⟨rfl, nofun⟩
  | trefGet n =>
    obtain ⟨r, rfl⟩ := exec_trefGet_next h
    exact ⟨rfl, nofun⟩
  | crcInit | crcBlock | cobsEnc | hamEnc | hamDec | fecExpand | aggTake | trefRebase | trefIsset =>
    obtain rfl := Host.Outcome.next.inj h
    exact ⟨rfl, nofun⟩

/-- R200: an operation that fails has written no state. -/
theorem exec_next_of_failed {i : Instr} {s t : State} {st : Status} (h : exec i s = .next t)
    (hst : t.result = .failed st) : t = s.deliver (.failed st) := by
  have hsome : returnsStatus i = true := by
    rw [← (exec_next_status h).1, hst]
    rfl
  obtain ⟨r, rfl⟩ := exec_next_of_writesNothing (writesNothing_of_returnsStatus hsome) h
  rw [← hst, deliver_result]

/-! ## The obligation -/

/-- Settles O59: a status other than `Ok` is a failure, a failure writes nothing, and its row of the table names the
operation. -/
theorem statusesOfOperations : Obligations.StatusesOfOperations := by
  unfold Obligations.StatusesOfOperations
  refine ⟨fun i s t h => ?_, rfl, rfl, rfl, rfl, rfl, rfl, rfl⟩
  obtain ⟨hsome, hfail⟩ := exec_next_status h
  have hrow (st : Status) (hne : st ≠ .ok) (hst : t.result.status? = some st) : FailureOf s.params i st :=
    hfail st (eq_failed_of_status? hst hne)
  refine ⟨?_, fun st hst hne => exec_next_of_failed h (eq_failed_of_status? hst hne),
    hrow .deserializeError (by decide), hrow .validationError (by decide), hfail .ok, hrow .decodeError (by decide),
    hrow .crcError (by decide), hrow .hammingError (by decide), hrow .badLength (by decide)⟩
  rw [hsome]
  exact returnsStatus_iff i

end Sys2Proof.Machine
end

section
/-! The faults (60_exceptions.md R203, R204): the table row by row for an operation, that every other operation completes
under the invariant, and the step that records a fault. -/

namespace Sys2Proof.Machine

open Sys2Proof

/-! ## The fault table -/

/-- The rows of R204 for an operation: in state `s` it ends in the fault `f`. -/
def Raises (s : State) (f : Fault) : Instr → Prop
  | .crcUpdate _ | .crcFinal => s.crcValid = false ∧ f = .crcNotInitialised
  | .frameEnc p => s.params.payloadMax < p.length ∧ f = .capacityFault p.length
  | .aggRdbuf idx =>
    (s.params.cap ≤ idx ∧ f = .bufferIndexFault idx) ∨
    (idx < s.params.cap ∧ s.bufWritten ≤ idx ∧ f = .unwrittenRead idx)
  | .trefGet n =>
    (n.toNat < s.rtcReference.toNat ∧ f = .timeUnderflow n s.rtcReference) ∨
    (s.rtcReference.toNat ≤ n.toNat ∧ 2 ^ 64 ≤ s.utcReference.toNat + elapsedSeconds n s.rtcReference ∧
      f = .timeOverflow s.utcReference (elapsedSeconds n s.rtcReference))
  | _ => False

/-- The next request meets a row of the table, that of the reserved codes included, and `f` is the row's fault. -/
def NextRaises (s : State) (f : Fault) : Prop :=
  ∃ r rest, s.requests = r :: rest ∧
    ((formatOf r.op = none ∧ f = .illegalOperation r.op) ∨ ∃ i, decode r = .operation i ∧ Raises s f i)

/-- R204: an operation that meets a row of the table ends in the row's fault, which is one that a run goes on after. -/
theorem exec_of_raises {i : Instr} {s : State} {f : Fault} (h : Raises s f i) :
    exec i s = .fault f ∧ f.isRaised = true := by
  cases i with
  | crcUpdate b =>
    obtain ⟨hv, rfl⟩ := h
    exact ⟨exec_crcUpdate_of_not_valid hv b, rfl⟩
  | crcFinal =>
    obtain ⟨hv, rfl⟩ := h
    exact ⟨exec_crcFinal_of_not_valid hv, rfl⟩
  | frameEnc p =>
    obtain ⟨hp, rfl⟩ := h
    exact ⟨exec_frameEnc_of_lt hp, rfl⟩
  | aggRdbuf idx =>
    obtain ⟨hcap, rfl⟩ | ⟨hcap, hw, rfl⟩ := h
    · exact ⟨exec_aggRdbuf_of_cap_le hcap, rfl⟩
    · exact ⟨exec_aggRdbuf_of_written_le hcap hw, rfl⟩
  | trefGet n =>
    obtain ⟨hn, rfl⟩ | ⟨hn, hsum, rfl⟩ := h
    · exact ⟨exec_trefGet_of_lt hn, rfl⟩
    · exact ⟨exec_trefGet_of_overflow hn hsum, rfl⟩
  | _ => exact h.elim

/-- R204: under the invariant an operation that meets no row of the table completes. -/
theorem exec_completes_of_not_raises {i : Instr} {s : State} (hi : s.Inv) (h : ∀ f, ¬ Raises s f i) :
    ∃ t, exec i s = .next t := by
  cases i with
  | crcUpdate b =>
    have hv : s.crcValid = true := Bool.eq_true_of_not_eq_false fun hv => h _ ⟨hv, rfl⟩
    exact ⟨_, exec_crcUpdate_of_valid hv b⟩
  | crcFinal =>
    have hv : s.crcValid = true := Bool.eq_true_of_not_eq_false fun hv => h _ ⟨hv, rfl⟩
    exact ⟨_, exec_crcFinal_of_valid hv⟩
  | frameEnc p => exact ⟨_, exec_frameEnc_of_le (Nat.le_of_not_lt fun hp => h _ ⟨hp, rfl⟩)⟩
  | frameChk =>
    obtain ⟨r, -, hx⟩ := exec_frameChk_of_inv hi
    exact ⟨_, hx s.requests⟩
  | aggPush b =>
    obtain ⟨t, ht, -⟩ := pushByte_completes (b := b) hi.indexLtCap
    exact ⟨_, exec_aggPush_of_ok ht⟩
  | aggRdbuf idx =>
    have hcap : idx < s.params.cap := Nat.lt_of_not_le fun hcap => h _ (.inl ⟨hcap, rfl⟩)
    have hw : idx < s.bufWritten := Nat.lt_of_not_le fun hw => h _ (.inr ⟨hcap, hw, rfl⟩)
    obtain ⟨b, hb, -⟩ := hi.exists_read hw
    exact ⟨_, exec_aggRdbuf_of_read hcap hw hb⟩
  | trefGet n =>
    have hn : s.rtcReference.toNat ≤ n.toNat := Nat.le_of_not_lt fun hn => h _ (.inl ⟨hn, rfl⟩)
    exact ⟨_, exec_trefGet_of_sum_lt hn (Nat.lt_of_not_le fun hsum => h _ (.inr ⟨hn, hsum, rfl⟩))⟩
  | crcInit | crcBlock | cobsEnc | cobsDec | hamEnc | hamDec | fecExpand | fecCompress | frameDec | aggTake |
      trefRebase | trefIsset => exact ⟨_, rfl⟩

/-- R204: the rows for operations, each with the request that meets it written out. -/
theorem exists_operation_raises_iff {r : Request} {s : State} {f : Fault} :
    (∃ i, decode r = .operation i ∧ Raises s f i) ↔
      (s.crcValid = false ∧ f = .crcNotInitialised ∧
        (decode r = .operation .crcFinal ∨ ∃ b, decode r = .operation (.crcUpdate b))) ∨
      (∃ p, decode r = .operation (.frameEnc p) ∧ s.params.payloadMax < p.length ∧ f = .capacityFault p.length) ∨
      (∃ idx, decode r = .operation (.aggRdbuf idx) ∧ s.params.cap ≤ idx ∧ f = .bufferIndexFault idx) ∨
      (∃ idx, decode r = .operation (.aggRdbuf idx) ∧ idx < s.params.cap ∧ s.bufWritten ≤ idx ∧
        f = .unwrittenRead idx) ∨
      (∃ n, decode r = .operation (.trefGet n) ∧ n.toNat < s.rtcReference.toNat ∧
        f = .timeUnderflow n s.rtcReference) ∨
      (∃ n, decode r = .operation (.trefGet n) ∧ s.rtcReference.toNat ≤ n.toNat ∧
        2 ^ 64 ≤ s.utcReference.toNat + elapsedSeconds n s.rtcReference ∧
        f = .timeOverflow s.utcReference (elapsedSeconds n s.rtcReference)) := by
  constructor
  · rintro ⟨i, hd, hr⟩
    cases i with
    | crcUpdate b => exact .inl ⟨hr.1, hr.2, .inr ⟨b, hd⟩⟩
    | crcFinal => exact .inl ⟨hr.1, hr.2, .inl hd⟩
    | frameEnc p => exact .inr (.inl ⟨p, hd, hr⟩)
    | aggRdbuf idx =>
      obtain hcap | hw := hr
      · exact .inr (.inr (.inl ⟨idx, hd, hcap⟩))
      · exact .inr (.inr (.inr (.inl ⟨idx, hd, hw⟩)))
    | trefGet n =>
      obtain hlt | hsum := hr
      · exact .inr (.inr (.inr (.inr (.inl ⟨n, hd, hlt⟩))))
      · exact .inr (.inr (.inr (.inr (.inr ⟨n, hd, hsum⟩))))
    | _ => exact hr.elim
  · rintro (⟨hv, hf, hd | ⟨b, hd⟩⟩ | ⟨p, hd, hr⟩ | ⟨idx, hd, hr⟩ | ⟨idx, hd, hr⟩ | ⟨n, hd, hr⟩ | ⟨n, hd, hr⟩)
    · exact ⟨_, hd, hv, hf⟩
    · exact ⟨_, hd, hv, hf⟩
    · exact ⟨_, hd, hr⟩
    · exact ⟨_, hd, .inl hr⟩
    · exact ⟨_, hd, .inr hr⟩
    · exact ⟨_, hd, .inl hr⟩
    · exact ⟨_, hd, .inr hr⟩

/-! ## The step -/

/-- The invariant does not speak of the pending requests. -/
theorem State.Inv.with_requests {s : State} (hi : s.Inv) (q : List Request) : State.Inv { s with requests := q } :=
  ⟨hi.bufWf, hi.writtenPrefix, hi.writtenLeCap, hi.indexLtCap, hi.indexLeWritten, hi.lenLeWritten,
    hi.emptyFrameFailed, hi.fecOnly⟩

/-- R203: a step on a request that meets a row of the table takes the request and records the fault, nothing else. -/
theorem step_of_nextRaises {s : State} {f : Fault} (h : NextRaises s f) :
    step s = .next { s with requests := s.requests.tail, result := .none, faults := s.faults ++ [f] } := by
  obtain ⟨r, rest, hq, hrow⟩ := h
  have htail : s.requests.tail = rest := congrArg List.tail hq
  rw [htail]
  obtain ⟨hreserved, rfl⟩ | ⟨i, hd, hr⟩ := hrow
  · exact step_illegal hq ((formatOf_eq_none_iff_decode_illegal r).mp hreserved)
  · have hr' : Raises { s with requests := rest } f i := hr
    obtain ⟨hx, hraised⟩ := exec_of_raises hr'
    rw [step_operation hq hd, hx]
    exact endOperation_raised _ hraised

/-- Under the invariant every other step goes on and leaves the record of faults. -/
theorem step_of_not_nextRaises {s : State} (hi : s.Inv) (h : ∀ f, ¬ NextRaises s f) :
    ∃ t, step s = .next t ∧ t.faults = s.faults := by
  cases hq : s.requests with
  | nil => exact ⟨s, step_idle hq, rfl⟩
  | cons r rest =>
    obtain hill | ⟨i, hd, -⟩ := decode_cases r
    · exact absurd ⟨r, rest, hq, .inl ⟨(formatOf_eq_none_iff_decode_illegal r).mpr hill, rfl⟩⟩ (h _)
    · have hno (f : Fault) : ¬ Raises { s with requests := rest } f i := fun hr => h f ⟨r, rest, hq, .inr ⟨i, hd, hr⟩⟩
      obtain ⟨u, hu⟩ := exec_completes_of_not_raises (hi.with_requests rest) hno
      obtain ⟨-, -, hfaults⟩ := exec_bookkeeping hu
      exact ⟨u.noteReturn r.agent, by rw [step_operation hq hd, hu, endOperation_next], hfaults⟩

/-- R203: under the invariant every step goes on; either the next request meets a row of the table, and the step records
that row's fault and nothing else, or it meets none and the record stays. -/
theorem step_records_nextRaises {s : State} (hi : s.Inv) :
    ∃ t, step s = .next t ∧ (t.faults = s.faults ∨ ∃ f, t.faults = s.faults ++ [f]) ∧
      (∀ f, t.faults = s.faults ++ [f] →
        t = { s with requests := s.requests.tail, result := .none, faults := s.faults ++ [f] }) ∧
      ∀ f, t.faults = s.faults ++ [f] ↔ NextRaises s f := by
  by_cases hrow : ∃ f, NextRaises s f
  · obtain ⟨f, hf⟩ := hrow
    have hs := step_of_nextRaises hf
    have hsame {g : Fault} (hg : s.faults ++ [f] = s.faults ++ [g]) : f = g := by simpa using hg
    refine ⟨_, hs, .inr ⟨f, rfl⟩, fun g hg => by rw [hsame hg], fun g => ⟨fun hg => hsame hg ▸ hf, fun hg => ?_⟩⟩
    exact congrArg State.faults (Host.Outcome.next.inj (hs.symm.trans (step_of_nextRaises hg)))
  · have hno := not_exists.mp hrow
    obtain ⟨t, hs, hfaults⟩ := step_of_not_nextRaises hi hno
    have hne (f : Fault) : t.faults ≠ s.faults ++ [f] := by simp [hfaults]
    exact ⟨t, hs, .inl hfaults, fun f h => absurd h (hne f), fun f => iff_of_false (hne f) (hno f)⟩

/-! ## The obligation -/

/-- Settles O60: the step's record against `NextRaises`, with the rows of the table written out. -/
theorem faultsAreExactlyTheTable : Obligations.FaultsAreExactlyTheTable := by
  unfold Obligations.FaultsAreExactlyTheTable
  intro s hi
  simpa only [NextRaises, exists_operation_raises_iff, elapsedSeconds, ticksPerSecond] using step_records_nextRaises hi

end Sys2Proof.Machine
end

section
/-! The state after reset (70_reset_and_hazards.md R225): what `FRAME.CHK` answers about an empty frame (R149), and the
registers and the reads of unspecified state of every reset state. -/

namespace Sys2Proof.Machine

open Sys2Proof

/-! ## What `FRAME.CHK` answers -/

/-- R149: a frame without Hamming failure is judged by `frame_check` on the bytes that were read. -/
theorem exec_frameChk_of_read {s : State} {e : List Byte} (hh : readFrameHammingError s = false)
    (he : memReadRange s 0 s.frameLen = .ok e) :
    exec .frameChk s =
      .next (s.deliver (correctedResult (withCorrected (readFrameCorrected s) (frameCheck s.params e)))) := by
  simp only [exec, execFrameChk, hh, he, Bool.false_eq_true, if_false]

/-- R106, exit (a): without a byte there is no terminator. -/
theorem cobsDecode_nil : cobsDecode [] = .error .decodeError := rfl

/-- R149: an empty frame reads no byte of `buf` and fails the COBS stage. -/
theorem exec_frameChk_of_empty {s : State} (hh : readFrameHammingError s = false) (hl : s.frameLen = 0) :
    exec .frameChk s = .next (s.deliver (.failed .decodeError)) := by
  have hread : memReadRange s 0 s.frameLen = .ok [] := by rw [hl]; rfl
  rw [exec_frameChk_of_read hh hread, frameCheck_of_cobsDecode_error _ cobsDecode_nil]
  rfl

/-! ## Reads of a reset state -/

theorem exec_aggRdbuf_resetFor {p : Params} {idx : Nat} (h : idx < p.cap) :
    exec (.aggRdbuf idx) (State.resetFor p) = .fault (.unwrittenRead idx) :=
  exec_aggRdbuf_of_written_le h (Nat.zero_le idx)

theorem exec_crcFinal_resetFor (p : Params) : exec .crcFinal (State.resetFor p) = .fault .crcNotInitialised :=
  exec_crcFinal_of_not_valid rfl

theorem exec_trefIsset_resetFor (p : Params) :
    exec .trefIsset (State.resetFor p) = .next ((State.resetFor p).deliver (.isSet false)) := by
  rw [exec_trefIsset, timeIsSet_of_zero rfl]

theorem exec_frameChk_resetFor (p : Params) :
    exec .frameChk (State.resetFor p) = .next ((State.resetFor p).deliver (.failed .decodeError)) :=
  exec_frameChk_of_empty (Bool.and_false _) rfl

/-! ## The obligation -/

/-- Settles O6: the registers by the definition of the reset state, then one lemma for each read of it. -/
theorem resetValues : Obligations.ResetValues := by
  unfold Obligations.ResetValues
  refine ⟨fun p => ⟨rfl, rfl, rfl, rfl, rfl, rfl, rfl, rfl, rfl, rfl, rfl, rfl, rfl, ?_, ?_, ?_, ?_⟩, rfl⟩
  · exact fun _ => exec_aggRdbuf_resetFor
  · exact exec_crcFinal_resetFor p
  · exact exec_trefIsset_resetFor p
  · exact exec_frameChk_resetFor p

end Sys2Proof.Machine
end

section
/-! The encoder against the decoder (30_encoding.md R69, R70): a request that decodes is the encoding of its operation,
once the inputs outside its format are at rest. -/

namespace Sys2Proof

open Sys2Proof.Machine

/-- R69: what the decoder reads under an operation's code are the inputs of the code's format. -/
theorem operands_of_decode {agent : Agent} {i j : Instr} {x : Operands}
    (h : decode ⟨agent, i.code, x⟩ = .operation j) :
    ∃ f, formatOf i.code = some f ∧ j.operands = x.restrict f := by
  cases i <;>
  · cases h
    exact ⟨_, rfl, rfl⟩

/-- Settles O1: one direction by the cases of the operation, the other by the code of what was decoded. -/
theorem decodeAgreesWithEncode : Obligations.DecodeAgreesWithEncode := by
  unfold Obligations.DecodeAgreesWithEncode
  refine ⟨decode_encode, fun r i h => ?_⟩
  obtain hill | ⟨i', hi', hcode⟩ := decode_cases r
  · cases hill.symm.trans h
  · obtain rfl := Decoded.operation.inj (hi'.symm.trans h)
    obtain ⟨agent, op, x⟩ := r
    obtain rfl : i'.code = op := hcode
    obtain ⟨f, hf, hx⟩ := operands_of_decode h
    exact ⟨f, hf, congrArg (Request.mk agent i'.code) hx⟩

/-- Settles O3: the eight words are closed terms, run through the decoder. -/
theorem codeMapWordsDecode : Obligations.CodeMapWordsDecode := by
  unfold Obligations.CodeMapWordsDecode
  decide

end Sys2Proof
end

section
/-! COBS encodings as sequences of blocks (30_encoding.md R63, 41_cobs.md R103, R106, R108, R113): the decoder on one block,
the blocks of an encoding, and the bytes they stand for. -/

namespace Sys2Proof.Machine

open Sys2Proof

/-! ## One block -/

/-- R63: the data bytes of a block that has a code byte and no terminator. -/
def CobsData (d : List Byte) : Prop := d.length ≤ 254 ∧ 0x00 ∉ d

theorem cobsCode_toNat {d : List Byte} (h : d.length ≤ 254) : (BitVec.ofNat 8 (d.length + 1)).toNat = d.length + 1 :=
  (BitVec.toNat_ofNat _ _).trans (Nat.mod_eq_of_lt (by omega))

/-- R63: the code byte `FF` is that of a full block. -/
theorem cobsCode_eq_ff_iff {d : List Byte} (h : d.length ≤ 254) :
    BitVec.ofNat 8 (d.length + 1) = 0xFF ↔ d.length = cobsBlockMax := by
  rw [← BitVec.toNat_inj, cobsCode_toNat h]
  exact Nat.succ_inj

/-- A code byte is not the terminator. -/
theorem zero_not_mem_cobsBlock {d : List Byte} (h : CobsData d) : 0x00 ∉ cobsBlock d := by
  obtain ⟨hlen, hzero⟩ := h
  intro hmem
  obtain hcode | hmem := List.mem_cons.mp hmem
  · have := congrArg BitVec.toNat hcode
    rw [cobsCode_toNat hlen] at this
    cases this
  · exact hzero hmem

/-- A code byte that is not the terminator opens a block of its data bytes. -/
theorem cons_take_eq_cobsBlock {c : Byte} {rest : List Byte} (hc : c ≠ 0x00) (hlen : c.toNat - 1 ≤ rest.length) :
    c :: rest.take (c.toNat - 1) = cobsBlock (rest.take (c.toNat - 1)) := by
  have hpos : c.toNat ≠ 0 := fun h => hc (BitVec.eq_of_toNat_eq h)
  rw [cobsBlock, List.length_take, Nat.min_eq_left hlen, Nat.sub_add_cancel (Nat.pos_of_ne_zero hpos),
    BitVec.ofNat_toNat, BitVec.setWidth_eq]

/-- R63: what the first block of a sequence contributes. -/
theorem cobsMeaning_cons (d : List Byte) (blocks : List (List Byte)) :
    cobsMeaning (d :: blocks) =
      d ++ (if d.length ≠ cobsBlockMax ∧ blocks ≠ [] then [0x00] else []) ++ cobsMeaning blocks := by
  cases blocks with
  | nil => simp [cobsMeaning]
  | cons d' blocks => simp [cobsMeaning]

/-- R106: one turn of the decoding loop, on a block with anything behind it. -/
theorem cobsDecodeBlocks_cobsBlock {d : List Byte} (h : d.length ≤ 254) (fuel : Nat) (rest : List Byte) :
    cobsDecodeBlocks (fuel + 1) (cobsBlock d ++ rest) = (cobsDecodeBlocks fuel rest).map fun out =>
      d ++ (if d.length ≠ cobsBlockMax ∧ rest ≠ [] then [0x00] else []) ++ out := by
  have hn : (BitVec.ofNat 8 (d.length + 1)).toNat - 1 = d.length := by
    rw [cobsCode_toNat h, Nat.add_sub_cancel]
  rw [cobsBlock, List.cons_append, cobsDecodeBlocks_cons, hn, List.drop_left, List.take_left, if_neg (by simp)]
  simp only [ne_eq, cobsCode_eq_ff_iff h]

/-! ## Sequences of blocks -/

theorem flatMap_cobsBlock_eq_nil_iff {blocks : List (List Byte)} : blocks.flatMap cobsBlock = [] ↔ blocks = [] := by
  cases blocks <;> simp [cobsBlock]

theorem zero_not_mem_flatMap_cobsBlock {blocks : List (List Byte)} (h : ∀ d ∈ blocks, CobsData d) :
    0x00 ∉ blocks.flatMap cobsBlock := by
  intro hmem
  obtain ⟨d, hd, hzero⟩ := List.mem_flatMap.mp hmem
  exact zero_not_mem_cobsBlock (h d hd) hzero

/-- R106: with fuel for every block the loop returns what a sequence of blocks stands for. -/
theorem cobsDecodeBlocks_of_blocks {blocks : List (List Byte)} (h : ∀ d ∈ blocks, CobsData d) {fuel : Nat}
    (hfuel : blocks.length ≤ fuel) : cobsDecodeBlocks fuel (blocks.flatMap cobsBlock) = .ok (cobsMeaning blocks) := by
  induction blocks generalizing fuel with
  | nil => exact cobsDecodeBlocks_nil fuel
  | cons d blocks ih =>
    obtain ⟨fuel, rfl⟩ := Nat.exists_eq_add_of_le' (Nat.le_trans (Nat.le_add_left 1 _) hfuel)
    obtain ⟨hd, hblocks⟩ := List.forall_mem_cons.mp h
    rw [List.flatMap_cons, cobsDecodeBlocks_cobsBlock hd.1, ih hblocks (Nat.le_of_succ_le_succ hfuel), cobsMeaning_cons]
    simp only [ne_eq, flatMap_cobsBlock_eq_nil_iff]
    rfl

/-- R106: a body that the loop accepts is a sequence of blocks. -/
theorem blocks_of_cobsDecodeBlocks {fuel : Nat} {body p : List Byte} (hzero : 0x00 ∉ body)
    (h : cobsDecodeBlocks fuel body = .ok p) :
    ∃ blocks : List (List Byte), (∀ d ∈ blocks, CobsData d) ∧ body = blocks.flatMap cobsBlock := by
  induction fuel generalizing body p with
  | zero =>
    cases body with
    | nil => exact ⟨[], nofun, rfl⟩
    | cons c rest => cases h
  | succ fuel ih =>
    cases body with
    | nil => exact ⟨[], nofun, rfl⟩
    | cons c rest =>
      rw [cobsDecodeBlocks_cons] at h
      obtain ⟨hc, hrest⟩ := not_or.mp (mt List.mem_cons.mpr hzero)
      split at h
      · cases h
      rename_i hlen
      cases hdrop : cobsDecodeBlocks fuel (rest.drop (c.toNat - 1)) with
      | error st =>
        rw [hdrop] at h
        cases h
      | ok out =>
        obtain ⟨blocks, hblocks, hbody⟩ := ih (fun hmem => hrest (List.mem_of_mem_drop hmem)) hdrop
        have hd : CobsData (rest.take (c.toNat - 1)) := by
          refine ⟨?_, fun hmem => hrest (List.mem_of_mem_take hmem)⟩
          have := c.isLt
          rw [List.length_take]
          omega
        refine ⟨rest.take (c.toNat - 1) :: blocks, List.forall_mem_cons.mpr ⟨hd, hblocks⟩, ?_⟩
        rw [List.flatMap_cons, ← cons_take_eq_cobsBlock (Ne.symm hc) (Nat.le_of_not_lt hlen), ← hbody,
          List.cons_append, List.take_append_drop]

/-! ## The decoder -/

/-- R106: the decoder on a zero-free body with its terminator is exit (c) and the loop. -/
theorem cobsDecode_append_zero {body : List Byte} (h : 0x00 ∉ body) :
    cobsDecode (body ++ [0x00]) = if body = [] then .error .decodeError else cobsDecodeBlocks body.length body := by
  have hbody : ∀ b ∈ body, decide (b ≠ 0x00) = true := fun b hb => decide_eq_true fun hz => h (hz ▸ hb)
  simp only [cobsDecode, List.takeWhile_append_of_pos hbody, List.dropWhile_append_of_pos hbody]
  simp

/-- R106, exits (a) and (b): what the decoder accepts is a zero-free body with its terminator. -/
theorem exists_body_of_cobsDecode_ok {e p : List Byte} (h : cobsDecode e = .ok p) :
    ∃ body, 0x00 ∉ body ∧ e = body ++ [0x00] := by
  have hbody : 0x00 ∉ e.takeWhile (· ≠ 0x00) := fun hmem => by simpa using List.mem_takeWhile_imp hmem
  refine ⟨_, hbody, ?_⟩
  dsimp only [cobsDecode] at h
  split at h
  · cases h
  · cases h
  · rename_i z hz
    have hzero : z = 0x00 := by
      have hhead := List.head?_dropWhile_not (· ≠ (0x00 : Byte)) e
      rw [hz] at hhead
      simpa using hhead
    calc e = e.takeWhile (· ≠ 0x00) ++ e.dropWhile (· ≠ 0x00) := List.takeWhile_append_dropWhile.symm
      _ = e.takeWhile (· ≠ 0x00) ++ [0x00] := by rw [hz, hzero]

/-- R63, R106: a non-empty sequence of blocks and the terminator decode to what the blocks stand for. -/
theorem cobsDecode_of_blocks {blocks : List (List Byte)} (hne : blocks ≠ []) (h : ∀ d ∈ blocks, CobsData d) :
    cobsDecode (blocks.flatMap cobsBlock ++ [0x00]) = .ok (cobsMeaning blocks) := by
  have hfuel : blocks.length ≤ (blocks.flatMap cobsBlock).length := by
    rw [List.length_flatMap, ← List.length_map (f := fun d => (cobsBlock d).length)]
    refine List.length_le_sum_of_one_le _ fun n hn => ?_
    obtain ⟨d, -, rfl⟩ := List.mem_map.mp hn
    exact Nat.le_add_left 1 d.length
  rw [cobsDecode_append_zero (zero_not_mem_flatMap_cobsBlock h), if_neg (mt flatMap_cobsBlock_eq_nil_iff.mp hne),
    cobsDecodeBlocks_of_blocks h hfuel]

/-- R106: what the decoder accepts is a non-empty sequence of blocks and the terminator. -/
theorem blocks_of_cobsDecode_ok {e p : List Byte} (h : cobsDecode e = .ok p) :
    ∃ blocks : List (List Byte), blocks ≠ [] ∧ (∀ d ∈ blocks, CobsData d) ∧ e = blocks.flatMap cobsBlock ++ [0x00] := by
  obtain ⟨body, hzero, rfl⟩ := exists_body_of_cobsDecode_ok h
  rw [cobsDecode_append_zero hzero] at h
  split_ifs at h with hne
  obtain ⟨blocks, hblocks, rfl⟩ := blocks_of_cobsDecodeBlocks hzero h
  exact ⟨blocks, mt flatMap_cobsBlock_eq_nil_iff.mpr hne, hblocks, rfl⟩

/-! ## The encoder -/

/-- R103 with a block open: what the loop still appends is a sequence of blocks, for the bytes collected and to come. -/
theorem cobsEncodeFrom_eq_blocks (p block : List Byte) (hlen : block.length < cobsBlockMax) (hzero : 0x00 ∉ block) :
    ∃ blocks : List (List Byte), blocks ≠ [] ∧ (∀ d ∈ blocks, CobsData d) ∧
      cobsEncodeFrom p block true = blocks.flatMap cobsBlock ++ [0x00] ∧ cobsMeaning blocks = block ++ p := by
  induction p generalizing block with
  | nil =>
    have hd : CobsData block := ⟨hlen.le, hzero⟩
    exact ⟨[block], by simp, by simpa using hd, by simp [cobsEncodeFrom_nil], by simp [cobsMeaning]⟩
  | cons b rest ih =>
    by_cases hb : b = 0x00
    · subst hb
      obtain ⟨blocks, hne, hblocks, henc, hmean⟩ := ih [] (by decide) (by simp)
      have hd : CobsData block := ⟨hlen.le, hzero⟩
      refine ⟨block :: blocks, by simp, List.forall_mem_cons.mpr ⟨hd, hblocks⟩, ?_, ?_⟩
      · rw [cobsEncodeFrom_zero, henc, List.flatMap_cons, List.append_assoc]
      · simp [cobsMeaning_cons, hmean, hne, hlen.ne]
    · have hmem : 0x00 ∉ block ++ [b] := fun h =>
        (List.mem_append.mp h).elim hzero fun h => hb (List.mem_singleton.mp h).symm
      by_cases hl : block.length + 1 = cobsBlockMax
      · have hfull : (block ++ [b]).length = cobsBlockMax := by rw [List.length_append, List.length_singleton, hl]
        have hd : CobsData (block ++ [b]) := ⟨hfull.le, hmem⟩
        rw [cobsEncodeFrom_full b rest block true hb hl]
        cases rest with
        | nil => exact ⟨[block ++ [b]], by simp, by simpa using hd, by simp [cobsEncodeFrom_nil], by simp [cobsMeaning]⟩
        | cons c rest =>
          obtain ⟨blocks, hne, hblocks, henc, hmean⟩ := ih [] (by decide) (by simp)
          refine ⟨(block ++ [b]) :: blocks, by simp, List.forall_mem_cons.mpr ⟨hd, hblocks⟩, ?_, ?_⟩
          · rw [List.flatMap_cons, List.append_assoc, ← henc]
            rfl
          · simp [cobsMeaning_cons, hmean, hl]
      · obtain ⟨blocks, hne, hblocks, henc, hmean⟩ := ih (block ++ [b]) (by simp; omega) hmem
        refine ⟨blocks, hne, hblocks, ?_, by simp [hmean]⟩
        rw [cobsEncodeFrom_data b rest block true hb hl, henc]

/-- R103: an encoding is a sequence of blocks that stands for its input, and the terminator. -/
theorem cobsEncode_eq_blocks (p : List Byte) :
    ∃ blocks : List (List Byte), blocks ≠ [] ∧ (∀ d ∈ blocks, CobsData d) ∧
      cobsEncode p = blocks.flatMap cobsBlock ++ [0x00] ∧ cobsMeaning blocks = p :=
  cobsEncodeFrom_eq_blocks p [] (by decide) (by simp)

/-- R103: an encoding is a non-empty body without a zero, and the terminator. -/
theorem cobsEncode_eq_body (p : List Byte) : ∃ body, cobsEncode p = body ++ [0x00] ∧ 0x00 ∉ body ∧ body ≠ [] := by
  obtain ⟨blocks, hne, hblocks, henc, -⟩ := cobsEncode_eq_blocks p
  exact ⟨_, henc, zero_not_mem_flatMap_cobsBlock hblocks, mt flatMap_cobsBlock_eq_nil_iff.mp hne⟩

/-- R108: the blocks of an encoding stand for its input, and the decoder returns what they stand for. -/
theorem cobsDecode_cobsEncode (p : List Byte) : cobsDecode (cobsEncode p) = .ok p := by
  obtain ⟨blocks, hne, hblocks, henc, hmean⟩ := cobsEncode_eq_blocks p
  rw [henc, cobsDecode_of_blocks hne hblocks, hmean]

/-- R113 with a block open: while no block can fill, each byte costs one byte, and the code byte and the terminator two. -/
theorem cobsEncodeFrom_length_of_short (p block : List Byte) (h : block.length + p.length < cobsBlockMax) :
    (cobsEncodeFrom p block true).length = block.length + p.length + 2 := by
  induction p generalizing block with
  | nil => simp [cobsEncodeFrom_nil]
  | cons b rest ih =>
    rw [List.length_cons] at h ⊢
    by_cases hb : b = 0x00
    · subst hb
      rw [cobsEncodeFrom_zero, List.length_append, cobsBlock_length, ih [] (by simp; omega), List.length_nil]
      omega
    · rw [cobsEncodeFrom_data b rest block true hb (by omega), ih (block ++ [b]) (by simp; omega), List.length_append,
        List.length_singleton]
      omega

theorem cobsEncode_length_of_short {p : List Byte} (h : p.length < 254) : (cobsEncode p).length = p.length + 2 := by
  simpa [cobsEncode] using cobsEncodeFrom_length_of_short p [] (by simpa [cobsBlockMax] using h)

/-! ## The obligations -/

/-- Settles O25: the input of the encoder is what the blocks of its output stand for. -/
theorem cobsRoundTrip : Obligations.CobsRoundTrip := by
  unfold Obligations.CobsRoundTrip
  exact cobsDecode_cobsEncode

/-- Settles O24: the loop on a sequence of blocks one way, and the blocks that the loop has split off the other way. -/
theorem cobsDecodesExactlyBlockSequences : Obligations.CobsDecodesExactlyBlockSequences := by
  unfold Obligations.CobsDecodesExactlyBlockSequences
  refine ⟨fun e p => ⟨fun h => ?_, ?_⟩, fun e st => cobsDecode_error⟩
  · obtain ⟨blocks, hne, hblocks, rfl⟩ := blocks_of_cobsDecode_ok h
    have hp := h.symm.trans (cobsDecode_of_blocks hne hblocks)
    exact ⟨blocks, hne, hblocks, rfl, Except.ok.inj hp⟩
  · rintro ⟨blocks, hne, hblocks, rfl, rfl⟩
    exact cobsDecode_of_blocks hne hblocks

/-- Settles O23: the blocks of an encoding have no zero byte. -/
theorem cobsEncodingIsZeroFree : Obligations.CobsEncodingIsZeroFree := by
  unfold Obligations.CobsEncodingIsZeroFree
  exact cobsEncode_eq_body

/-- Settles O27: the length with a block open, from the empty block. -/
theorem shortCobsLengthIsContentFree : Obligations.ShortCobsLengthIsContentFree := by
  unfold Obligations.ShortCobsLengthIsContentFree
  exact fun _ => cobsEncode_length_of_short

end Sys2Proof.Machine
end

section
/-! What every operation can do, said once (10_state.md R20 to R38): the completion of `AGG.PUSH` register by register, and
the completions of all operations, one case for each group of registers. -/

namespace Sys2Proof.Machine

open Sys2Proof

/-! ## What a push stores -/

theorem pushStores_plain {b : Byte} {s : State} (hf : s.params.fecEn = false) :
    pushStores b s = some (s.aggIndex, b) := by
  simp [pushStores, hf]

theorem pushStores_firstOfPair {b : Byte} {s : State} (hf : s.params.fecEn = true) (hv : s.aggHalfValid = false) :
    pushStores b s = none := by
  simp [pushStores, hf, hv]

theorem pushStores_decodedPair {b : Byte} {s : State} {lo hi : HamDecoded} (hf : s.params.fecEn = true)
    (hv : s.aggHalfValid = true) (hlo : hamDec s.aggHalf = some lo) (hhi : hamDec b = some hi) :
    pushStores b s = some (s.aggIndex, joinNibbles lo.v hi.v) := by
  simp [pushStores, hf, hv, hlo, hhi]

theorem pushStores_undecodablePair {b : Byte} {s : State} (hf : s.params.fecEn = true)
    (hv : s.aggHalfValid = true) (hn : hamDec s.aggHalf = none ∨ hamDec b = none) : pushStores b s = none := by
  rcases hn with hn | hn
  · simp [pushStores, hf, hv, hn]
  · cases hlo : hamDec s.aggHalf <;> simp [pushStores, hf, hv, hlo, hn]

/-- What is stored goes to the current index. -/
theorem pushStores_index {b v : Byte} {i : Nat} {s : State} (h : pushStores b s = some (i, v)) : i = s.aggIndex := by
  unfold pushStores at h
  split_ifs at h
  · split at h
    · exact (Prod.mk.inj (Option.some.inj h)).1.symm
    · cases h
  · exact (Prod.mk.inj (Option.some.inj h)).1.symm

/-- A push hands off when the byte it stores completes the frame. -/
theorem pushHandsOff_of_some {b v : Byte} {i : Nat} {s : State} (h : pushStores b s = some (i, v)) :
    pushHandsOff b s = frameComplete v (i + 1) s.params := by
  simp only [pushHandsOff, h]

/-! ## `AGG.PUSH`, register by register -/

/-- How many bytes the push stores. -/
def pushCount (b : Byte) (s : State) : Nat := if (pushStores b s).isSome then 1 else 0

/-- The correction flag collected with the push, before a hand-off takes it (R165): a pair that decodes adds its own. -/
def pushCorrected (b : Byte) (s : State) : Bool :=
  s.aggCorrected || (s.params.fecEn && (pushStores b s).isSome &&
    ((hamDec s.aggHalf).any (·.corrected) || (hamDec b).any (·.corrected)))

/-- The state in which a push that completes ends, but for its result (R163, R165, R168). -/
def pushedState (b : Byte) (s : State) : State :=
  { s with
    buf := (pushStores b s).elim s.buf fun c => s.buf.write c.1 c.2
    bufWritten := if (pushStores b s).isSome then max s.bufWritten (s.aggIndex + 1) else s.bufWritten
    aggIndex := if pushHandsOff b s then 0 else s.aggIndex + pushCount b s
    aggCorrected := if s.params.fecEn && pushHandsOff b s then false else pushCorrected b s
    aggHalfValid := s.params.fecEn ^^ s.aggHalfValid
    aggHalf := if s.params.fecEn && !s.aggHalfValid then b else s.aggHalf
    frameReady := pushHandsOff b s || s.frameReady
    frameLen := if pushHandsOff b s then s.aggIndex + pushCount b s else s.frameLen
    frameCorrected := if pushHandsOff b s then s.params.fecEn && pushCorrected b s else s.frameCorrected
    frameHammingError := if pushHandsOff b s then (pushStores b s).isNone else s.frameHammingError
    frameOverrun := (pushHandsOff b s && s.frameReady) || s.frameOverrun }

/-- The pair registers after a push that stores a byte: the phase is toggled with FEC, and no byte is held. -/
def storeState (b : Byte) (s : State) : State :=
  { s with aggHalfValid := s.params.fecEn ^^ s.aggHalfValid, aggCorrected := pushCorrected b s }

/-- R163, R165: a push that stores ends as the store of its byte does, with or without the hand-off. -/
theorem pushedState_of_some {b v : Byte} {s : State} (hst : pushStores b s = some (s.aggIndex, v))
    (hhalf : (s.params.fecEn && !s.aggHalfValid) = false) :
    pushedState b s =
      if frameComplete v (s.aggIndex + 1) s.params then handoff false (advanced v (storeState b s))
      else advanced v (storeState b s) := by
  have hoff := pushHandsOff_of_some hst
  split_ifs with hc
  · cases hf : s.params.fecEn with
    | false =>
      rw [handoff_plain _ (show (advanced v (storeState b s)).params.fecEn = false from hf)]
      simp [pushedState, pushCount, advanced, storeState, State.setBuf, State.setAggIndex, hf, hst, hoff, hc]
    | true =>
      rw [handoff_fec _ (show (advanced v (storeState b s)).params.fecEn = true from hf)]
      have hv : s.aggHalfValid = true := by simpa [hf] using hhalf
      simp [pushedState, pushCount, advanced, storeState, State.setBuf, State.setAggIndex, hf, hv, hst, hoff, hc]
  · simp [pushedState, pushCount, advanced, storeState, State.setBuf, State.setAggIndex, hst, hoff, hc, hhalf]

/-- A push that stores completes when its index lies in the buffer, and stops otherwise (log 12). -/
theorem pushByte_of_some {b v : Byte} {s : State} (hst : pushStores b s = some (s.aggIndex, v))
    (hhalf : (s.params.fecEn && !s.aggHalfValid) = false)
    (hpush : pushByte b s = storeAndAdvance v (storeState b s)) :
    pushByte b s =
      if s.aggIndex < s.params.cap then .ok (pushedState b s) else .error (.storeOutOfRange s.aggIndex) := by
  rw [hpush]
  split_ifs with hi
  · rw [pushedState_of_some hst hhalf]
    exact storeAndAdvance_of_lt hi
  · exact storeAndAdvance_of_le (Nat.le_of_not_lt hi)

/-- R163, R165: `AGG.PUSH` stops when it would store past the buffer (log 12), and else completes in `pushedState`. -/
theorem pushByte_eq (b : Byte) (s : State) :
    pushByte b s =
      if (pushStores b s).isSome = true → s.aggIndex < s.params.cap then .ok (pushedState b s)
      else .error (.storeOutOfRange s.aggIndex) := by
  cases hf : s.params.fecEn with
  | false =>
    have hst := pushStores_plain (b := b) hf
    have hstate : storeState b s = s := by simp [storeState, pushCorrected, hf]
    rw [pushByte_of_some hst (by rw [hf]; rfl) (by rw [hstate, pushByte_plain hf])]
    simp [hst]
  | true =>
    cases hv : s.aggHalfValid with
    | false =>
      have hst := pushStores_firstOfPair (b := b) hf hv
      have hend : pushedState b s = s.holdHalf b := by
        simp [pushedState, pushCount, pushCorrected, State.holdHalf, hf, hv, hst, pushHandsOff_firstOfPair hf hv]
      rw [pushByte_firstOfPair hf hv, hend]
      simp [hst]
    | true =>
      by_cases hn : hamDec s.aggHalf = none ∨ hamDec b = none
      · have hst := pushStores_undecodablePair hf hv hn
        have hend : pushedState b s = handoff true s.releaseHalf := by
          rw [handoff_fec _ (show s.releaseHalf.params.fecEn = true from hf)]
          simp [pushedState, pushCount, pushCorrected, State.releaseHalf, hf, hv, hst, pushHandsOff_undecodablePair hf hv hn]
        rw [pushByte_secondOfPair hf hv, pushSecond_undecodable hn, hend]
        simp [hst]
      · obtain ⟨hlo, hhi⟩ := not_or.mp hn
        obtain ⟨lo, hlo⟩ := Option.ne_none_iff_exists'.mp hlo
        obtain ⟨hi, hhi⟩ := Option.ne_none_iff_exists'.mp hhi
        have hst := pushStores_decodedPair hf hv hlo hhi
        have hpush : pushByte b s = storeAndAdvance (joinNibbles lo.v hi.v) (storeState b s) := by
          rw [pushByte_secondOfPair hf hv, pushSecond_decoded hf hlo hhi, joinNibbles_eq_or]
          simp [storeState, pushCorrected, hf, hv, hst, hlo, hhi, Bool.or_assoc]
        rw [pushByte_of_some hst (by rw [hv, Bool.not_true, Bool.and_false]) hpush]
        simp [hst]

/-- A push that completes stores inside the buffer, if at all, and ends in `pushedState`. -/
theorem exec_aggPush_pushedState {b : Byte} {s t : State} (h : exec (.aggPush b) s = .next t) :
    ((pushStores b s).isSome = true → s.aggIndex < s.params.cap) ∧ t = (pushedState b s).deliver .none := by
  obtain ⟨u, hu, rfl⟩ := exec_aggPush_next h
  rw [pushByte_eq] at hu
  split_ifs at hu with hi
  exact ⟨hi, congrArg _ (Except.ok.inj hu).symm⟩

/-! ## All operations -/

/-- The operation `i` completes from `s` in `t`, by the registers that it writes (R21, R24 to R36). -/
inductive Completes (s : State) : Instr → State → Prop
  | reads {i : Instr} (r : Result) (hi : i.writesNothing = true) : Completes s i (s.deliver r)
  | crcInit : Completes s .crcInit ((s.setCrc s.params.crcInit).deliver .none)
  | crcUpdate (b : Byte) (hv : s.crcValid = true) :
    Completes s (.crcUpdate b) ((s.setCrc (crcStep s.params.crcPoly s.crcAcc b)).deliver .none)
  | aggPush (b : Byte) (hi : (pushStores b s).isSome = true → s.aggIndex < s.params.cap) :
    Completes s (.aggPush b) ((pushedState b s).deliver .none)
  | aggTake (c : Bool) : Completes s (.aggTake c) ((takeRequest c s).deliver (.latch (readLatch s)))
  | trefRebase (u n : Word64) : Completes s (.trefRebase u n) ((s.setReference u n).deliver .none)

/-- Everything an operation that completes can have done. -/
theorem completes_of_exec {i : Instr} {s t : State} (h : exec i s = .next t) : Completes s i t := by
  cases hw : i.writesNothing with
  | true =>
    obtain ⟨r, rfl⟩ := exec_next_of_writesNothing hw h
    exact .reads r hw
  | false =>
    cases i with
    | crcInit =>
      obtain rfl := Host.Outcome.next.inj h
      exact .crcInit
    | crcUpdate b =>
      obtain ⟨hv, rfl⟩ := exec_crcUpdate_next h
      exact .crcUpdate b hv
    | aggPush b =>
      obtain ⟨hi, rfl⟩ := exec_aggPush_pushedState h
      exact .aggPush b hi
    | aggTake c =>
      obtain rfl := Host.Outcome.next.inj h
      exact .aggTake c
    | trefRebase u n =>
      obtain rfl := Host.Outcome.next.inj h
      exact .trefRebase u n
    | _ => cases hw

theorem exec_params {i : Instr} {s t : State} (h : exec i s = .next t) : t.params = s.params := by
  cases completes_of_exec h <;> rfl

/-- R24: the CRC register is written by `CRC.INIT` and `CRC.UPDATE`. -/
theorem exec_crc_writers {i : Instr} {s t : State} (h : exec i s = .next t)
    (hne : t.crcAcc ≠ s.crcAcc ∨ t.crcValid ≠ s.crcValid) : i = .crcInit ∨ ∃ b, i = .crcUpdate b := by
  cases completes_of_exec h with
  | crcInit => exact .inl rfl
  | crcUpdate b => exact .inr ⟨b, rfl⟩
  | reads | aggPush | aggTake | trefRebase => exact absurd hne (not_or.mpr ⟨not_not.mpr rfl, not_not.mpr rfl⟩)

theorem exec_crc_kept {i : Instr} {s t : State} (h : exec i s = .next t) (hinit : i ≠ .crcInit)
    (hupdate : ∀ b, i ≠ .crcUpdate b) : t.crcAcc = s.crcAcc ∧ t.crcValid = s.crcValid := by
  have hno : ¬ (i = .crcInit ∨ ∃ b, i = .crcUpdate b) := by simp [hinit, hupdate]
  simpa using mt (exec_crc_writers h) hno

/-- R25: `crc_valid` is never cleared. -/
theorem exec_crcValid {i : Instr} {s t : State} (h : exec i s = .next t) (hv : s.crcValid = true) :
    t.crcValid = true := by
  cases completes_of_exec h with
  | crcInit | crcUpdate => rfl
  | reads | aggPush | aggTake | trefRebase => exact hv

/-- R35: the reference pair is written by `TREF.REBASE`. -/
theorem exec_reference_writers {i : Instr} {s t : State} (h : exec i s = .next t)
    (hne : t.utcReference ≠ s.utcReference ∨ t.rtcReference ≠ s.rtcReference) : ∃ u n, i = .trefRebase u n := by
  cases completes_of_exec h with
  | trefRebase u n => exact ⟨u, n, rfl⟩
  | reads | crcInit | crcUpdate | aggPush | aggTake =>
    exact absurd hne (not_or.mpr ⟨not_not.mpr rfl, not_not.mpr rfl⟩)

/-- R26 to R33: the buffer, the registers of the frame being received and the latch's length and flags are written by
`AGG.PUSH`. -/
theorem exec_aggregator_writers {i : Instr} {s t : State} (h : exec i s = .next t)
    (hne : t.buf ≠ s.buf ∨ t.bufWritten ≠ s.bufWritten ∨ t.aggIndex ≠ s.aggIndex ∨ t.aggCorrected ≠ s.aggCorrected ∨
      t.aggHalfValid ≠ s.aggHalfValid ∨ t.aggHalf ≠ s.aggHalf ∨ t.frameLen ≠ s.frameLen ∨
      t.frameCorrected ≠ s.frameCorrected ∨ t.frameHammingError ≠ s.frameHammingError) : ∃ b, i = .aggPush b := by
  cases completes_of_exec h with
  | aggPush b => exact ⟨b, rfl⟩
  | reads | crcInit | crcUpdate | aggTake | trefRebase => simp at hne

/-- R31, R34: the request and the overrun bit are written by `AGG.PUSH` and `AGG.TAKE`. -/
theorem exec_request_writers {i : Instr} {s t : State} (h : exec i s = .next t)
    (hne : t.frameReady ≠ s.frameReady ∨ t.frameOverrun ≠ s.frameOverrun) :
    (∃ b, i = .aggPush b) ∨ ∃ c, i = .aggTake c := by
  cases completes_of_exec h with
  | aggPush b => exact .inl ⟨b, rfl⟩
  | aggTake c => exact .inr ⟨c, rfl⟩
  | reads | crcInit | crcUpdate | trefRebase => simp at hne

/-- R26: `buf_written` never decreases. -/
theorem exec_bufWritten_le {i : Instr} {s t : State} (h : exec i s = .next t) : s.bufWritten ≤ t.bufWritten := by
  cases completes_of_exec h with
  | aggPush b =>
    simp only [deliver_bufWritten, pushedState]
    split
    · exact Nat.le_max_left _ _
    · exact Nat.le_refl _
  | reads | crcInit | crcUpdate | aggTake | trefRebase => exact Nat.le_refl _

/-- R38: no step writes the parameters. -/
theorem step_params {s t : State} (h : step s = .next t) : t.params = s.params := by
  obtain ⟨-, rfl⟩ | ⟨r, rest, -, ⟨i, u, -, hx, rfl⟩ | ⟨i, f, -, -, -, rfl⟩ | ⟨op, -, rfl⟩⟩ := step_next h
  · rfl
  · have hu := exec_params hx
    exact hu
  · rfl
  · rfl

/-! ## What an operation without writes can read -/

/-- Every operation that writes nothing sees the same in `s` and `s'` (R50): the parameters, the buffer, the latch, the
reference pair, and the CRC register once it is initialised (R25). -/
structure SameReadable (s s' : State) : Prop where
  params : s'.params = s.params
  crcValid : s'.crcValid = s.crcValid
  crcAcc : s.crcValid = true → s'.crcAcc = s.crcAcc
  buf : s'.buf = s.buf
  bufWritten : s'.bufWritten = s.bufWritten
  frameLen : s'.frameLen = s.frameLen
  frameCorrected : s'.frameCorrected = s.frameCorrected
  frameHammingError : s'.frameHammingError = s.frameHammingError
  utcReference : s'.utcReference = s.utcReference
  rtcReference : s'.rtcReference = s.rtcReference

/-- The outcome of an operation that writes nothing, delivered on another state. -/
def outcomeOn (s' : State) : Host.Outcome State Fault Refusal → Host.Outcome State Fault Refusal
  | .next t => .next (s'.deliver t.result)
  | .fault f => .fault f
  | .refused x => .refused x

theorem memRead_congr {s s' : State} (h : SameReadable s s') (a : Nat) : memRead a s' = memRead a s := by
  rw [memRead, memRead, h.params, h.buf]

theorem memReadRange_congr {s s' : State} (h : SameReadable s s') (a n : Nat) :
    memReadRange s' a n = memReadRange s a n := by
  induction n generalizing a with
  | zero => rfl
  | succ n ih => simp only [memReadRange, memRead_congr h, ih]

/-- R50: an operation that writes nothing ends the same in states that look the same to it. -/
theorem exec_of_sameReadable {i : Instr} {s s' : State} (hw : i.writesNothing = true) (h : SameReadable s s') :
    exec i s' = outcomeOn s' (exec i s) := by
  cases i with
  | crcInit | crcUpdate | aggPush | aggTake | trefRebase => cases hw
  | cobsEnc | cobsDec | hamEnc | hamDec | fecExpand | fecCompress => rfl
  | crcBlock m =>
    rw [exec_crcBlock, h.params]
    rfl
  | frameDec w =>
    rw [exec_frameDec, h.params]
    rfl
  | trefIsset =>
    rw [exec_trefIsset, timeIsSet, h.utcReference]
    rfl
  | crcFinal =>
    cases hv : s.crcValid with
    | false => rw [exec_crcFinal_of_not_valid hv, exec_crcFinal_of_not_valid (h.crcValid.trans hv), outcomeOn]
    | true =>
      rw [exec_crcFinal_of_valid hv, exec_crcFinal_of_valid (h.crcValid.trans hv), h.crcAcc hv, h.params]
      rfl
  | frameEnc p =>
    simp only [exec, execFrameEnc, h.params]
    split_ifs <;> rfl
  | frameChk =>
    have hhamming : readFrameHammingError s' = readFrameHammingError s := by
      rw [readFrameHammingError, readFrameHammingError, h.params, h.frameHammingError]
    have hcorrected : readFrameCorrected s' = readFrameCorrected s := by
      rw [readFrameCorrected, readFrameCorrected, h.params, h.frameCorrected]
    simp only [exec, execFrameChk]
    rw [hhamming, hcorrected, memReadRange_congr h, h.params, h.frameLen]
    split_ifs
    · rfl
    · split <;> rfl
  | aggRdbuf idx =>
    simp only [exec, execAggRdbuf, memRead_congr h, h.params, h.bufWritten]
    split_ifs
    · rfl
    · rfl
    · split <;> rfl
  | trefGet n =>
    simp only [exec, execTrefGet, h.utcReference, h.rtcReference]
    split_ifs <;> rfl

/-- R50: an operation without state sees the parameters only. -/
theorem exec_of_stateless {i : Instr} {s s' : State} (hi : i.stateless = true) (hp : s'.params = s.params) :
    exec i s' = outcomeOn s' (exec i s) := by
  cases i with
  | cobsEnc | cobsDec | hamEnc | hamDec | fecExpand | fecCompress => rfl
  | crcBlock m =>
    rw [exec_crcBlock, hp]
    rfl
  | frameDec w =>
    rw [exec_frameDec, hp]
    rfl
  | frameEnc p =>
    simp only [exec, execFrameEnc, hp]
    split_ifs <;> rfl
  | _ => cases hi

/-! ## The unspecified reset values -/

theorem sameReadable_deliver (s : State) (r : Result) : SameReadable s (s.deliver r) where
  params := rfl
  crcValid := rfl
  crcAcc := fun _ => rfl
  buf := rfl
  bufWritten := rfl
  frameLen := rfl
  frameCorrected := rfl
  frameHammingError := rfl
  utcReference := rfl
  rtcReference := rfl

/-- R25: an uninitialised CRC register cannot be read. -/
theorem sameReadable_crcAcc {s : State} (x : Word32) (hv : s.crcValid = false) :
    SameReadable s { s with crcAcc := x } :=
  { sameReadable_deliver s s.result with crcAcc := fun h => absurd (hv.symm.trans h) Bool.false_ne_true }

/-- R29: no operation that writes nothing reads the held byte. -/
theorem sameReadable_aggHalf (s : State) (x : Byte) : SameReadable s { s with aggHalf := x } :=
  { sameReadable_deliver s s.result with }

/-- `AGG.PUSH` stops when it would store past the buffer (log 12), and else completes in `pushedState`. -/
theorem exec_aggPush_eq (b : Byte) (s : State) :
    exec (.aggPush b) s =
      if (pushStores b s).isSome = true → s.aggIndex < s.params.cap then .next ((pushedState b s).deliver .none)
      else .fault (.storeOutOfRange s.aggIndex) := by
  simp only [exec, execAggPush, pushByte_eq]
  split_ifs <;> rfl

/-- R225: no operation reads `crc_acc` before `CRC.INIT` has written it. -/
theorem exec_crcAcc_unread (i : Instr) {s : State} (x : Word32) (hv : s.crcValid = false) :
    (∀ f, exec i s = .fault f → exec i { s with crcAcc := x } = .fault f) ∧
    ∀ t, exec i s = .next t →
      ∃ y, exec i { s with crcAcc := x } = .next { t with crcAcc := y } ∧ (t.crcValid = true → y = t.crcAcc) := by
  have hinvalid {y : Word32} {t : State} (ht : t.crcValid = s.crcValid) : t.crcValid = true → y = t.crcAcc :=
    fun h => absurd ((ht.trans hv).symm.trans h) Bool.false_ne_true
  cases hw : i.writesNothing with
  | true =>
    rw [exec_of_sameReadable hw (sameReadable_crcAcc x hv)]
    refine ⟨fun f h => by rw [h, outcomeOn], fun t h => ?_⟩
    obtain ⟨r, rfl⟩ := exec_next_of_writesNothing hw h
    exact ⟨x, by rw [h]; rfl, hinvalid rfl⟩
  | false =>
    cases i with
    | crcInit =>
      refine ⟨nofun, fun t h => ?_⟩
      obtain rfl := Host.Outcome.next.inj h
      exact ⟨_, rfl, fun _ => rfl⟩
    | crcUpdate b =>
      rw [exec_crcUpdate_of_not_valid hv]
      exact ⟨fun f h => (exec_crcUpdate_of_not_valid (s := { s with crcAcc := x }) hv b).trans h, fun t h => by cases h⟩
    | aggPush b =>
      rw [exec_aggPush_eq, exec_aggPush_eq]
      refine ⟨fun f h => ?_, fun t h => ?_⟩
      · split_ifs at h with hi
        exact (if_neg hi).trans h
      · split_ifs at h with hi
        obtain rfl := Host.Outcome.next.inj h
        exact ⟨x, if_pos hi, hinvalid rfl⟩
    | aggTake | trefRebase =>
      refine ⟨nofun, fun t h => ?_⟩
      obtain rfl := Host.Outcome.next.inj h
      exact ⟨x, rfl, hinvalid rfl⟩
    | _ => cases hw

/-- R29: while no byte is held, a push stores without looking at the held byte. -/
theorem pushStores_aggHalf_unread (b : Byte) {s : State} (x : Byte) (hv : s.aggHalfValid = false) :
    pushStores b { s with aggHalf := x } = pushStores b s := by
  simp [pushStores, hv]

/-- R29: while no byte is held, a push replaces the held byte with FEC, and keeps it without. -/
theorem pushedState_aggHalf_unread (b : Byte) {s : State} (x : Byte) (hv : s.aggHalfValid = false) :
    pushedState b { s with aggHalf := x } =
      { pushedState b s with aggHalf := if s.params.fecEn then b else x } := by
  have hst := pushStores_aggHalf_unread b x hv
  have hoff : pushHandsOff b { s with aggHalf := x } = pushHandsOff b s := by simp only [pushHandsOff, hst]
  simp only [pushedState, pushCount, pushCorrected, hst, hoff]
  cases hf : s.params.fecEn with
  | false => simp
  | true => simp [hv, pushStores_firstOfPair hf hv]

/-- R225: no operation reads `agg_half` while no byte is held. -/
theorem exec_aggHalf_unread (i : Instr) {s : State} (x : Byte) (hv : s.aggHalfValid = false) :
    (∀ f, exec i s = .fault f → exec i { s with aggHalf := x } = .fault f) ∧
    ∀ t, exec i s = .next t →
      ∃ y, exec i { s with aggHalf := x } = .next { t with aggHalf := y } ∧
        (t.aggHalfValid = true → y = t.aggHalf) := by
  have hinvalid {y : Byte} {t : State} (ht : t.aggHalfValid = s.aggHalfValid) : t.aggHalfValid = true → y = t.aggHalf :=
    fun h => absurd ((ht.trans hv).symm.trans h) Bool.false_ne_true
  cases hw : i.writesNothing with
  | true =>
    rw [exec_of_sameReadable hw (sameReadable_aggHalf s x)]
    refine ⟨fun f h => by rw [h, outcomeOn], fun t h => ?_⟩
    obtain ⟨r, rfl⟩ := exec_next_of_writesNothing hw h
    exact ⟨x, by rw [h]; rfl, hinvalid rfl⟩
  | false =>
    cases i with
    | crcUpdate b =>
      obtain hc | hc := Bool.eq_false_or_eq_true s.crcValid
      · rw [exec_crcUpdate_of_valid hc]
        refine ⟨fun f h => (by cases h), fun t h => ?_⟩
        obtain rfl := Host.Outcome.next.inj h
        exact ⟨x, exec_crcUpdate_of_valid (s := { s with aggHalf := x }) hc b, hinvalid rfl⟩
      · rw [exec_crcUpdate_of_not_valid hc]
        exact ⟨fun f h => (exec_crcUpdate_of_not_valid (s := { s with aggHalf := x }) hc b).trans h,
          fun t h => by cases h⟩
    | aggPush b =>
      rw [exec_aggPush_eq, exec_aggPush_eq, pushStores_aggHalf_unread b x hv, pushedState_aggHalf_unread b x hv]
      refine ⟨fun f h => ?_, fun t h => ?_⟩
      · split_ifs at h with hi
        exact (if_neg hi).trans h
      · split_ifs at h with hi
        obtain rfl := Host.Outcome.next.inj h
        refine ⟨_, if_pos hi, fun hhalf => ?_⟩
        have hf : s.params.fecEn = true := by simpa [pushedState, hv] using hhalf
        simp [pushedState, hf, hv]
    | crcInit | aggTake | trefRebase =>
      refine ⟨nofun, fun t h => ?_⟩
      obtain rfl := Host.Outcome.next.inj h
      exact ⟨x, rfl, hinvalid rfl⟩
    | _ => cases hw

/-! ## The obligations on all operations -/

/-- Settles O4: the three ends of a step, by what `exec` answers. -/
theorem stepPerformsNextRequest : Obligations.StepPerformsNextRequest := by
  unfold Obligations.StepPerformsNextRequest
  refine ⟨fun s => step_idle, fun s r rest i t hq hd hx => ?_, fun s r rest i f hq hd hx => ⟨fun hf => ?_, fun hf => ?_⟩⟩
  · rw [step_operation hq hd, hx, endOperation_next]
    rfl
  · rw [step_operation hq hd, hx, endOperation_raised _ hf]
    rfl
  · rw [step_operation hq hd, hx, endOperation_stop _ hf]

/-- Settles O9: one lemma on its writers for each group of registers. -/
theorem registersHaveOnlyTheirWriters : Obligations.RegistersHaveOnlyTheirWriters := by
  unfold Obligations.RegistersHaveOnlyTheirWriters
  refine ⟨fun i s t h => ?_, fun s t => step_params⟩
  obtain ⟨hreq, hret, hflt⟩ := exec_bookkeeping h
  exact ⟨exec_params h, hreq, hret, hflt, exec_crc_writers h, exec_crcValid h, exec_reference_writers h,
    exec_aggregator_writers h, exec_request_writers h, exec_bufWritten_le h⟩

/-- Settles O11: the pair registers of the pushed state, and no other writer. -/
theorem pairPhaseTogglesOnPushOnly : Obligations.PairPhaseTogglesOnPushOnly := by
  unfold Obligations.PairPhaseTogglesOnPushOnly
  intro i s t h
  have kept (hpush : ∀ b, i ≠ .aggPush b) :
      t.aggCorrected = s.aggCorrected ∧ t.aggHalfValid = s.aggHalfValid ∧ t.aggHalf = s.aggHalf := by
    have hno := mt (exec_aggregator_writers h) (not_exists.mpr hpush)
    simp only [not_or, not_not] at hno
    obtain ⟨-, -, -, hc, hv, hh, -⟩ := hno
    exact ⟨hc, hv, hh⟩
  refine ⟨fun hf => ⟨?_, fun hpush => (kept hpush).2⟩, fun hf => ?_⟩
  · rintro b rfl
    obtain ⟨-, rfl⟩ := exec_aggPush_pushedState h
    cases hv : s.aggHalfValid <;> simp [pushedState, hf, hv]
  · by_cases hpush : ∃ b, i = .aggPush b
    · obtain ⟨b, rfl⟩ := hpush
      obtain ⟨-, rfl⟩ := exec_aggPush_pushedState h
      simp [pushedState, pushCorrected, hf]
    · obtain ⟨hc, hv, hh⟩ := kept (not_exists.mp hpush)
      exact ⟨hv, hh, hc⟩

/-- Settles O12: one lemma for each of the two registers. -/
theorem unspecifiedResetValuesAreNeverRead : Obligations.UnspecifiedResetValuesAreNeverRead := by
  unfold Obligations.UnspecifiedResetValuesAreNeverRead
  exact ⟨fun i _ => exec_crcAcc_unread i, fun i _ => exec_aggHalf_unread i⟩

/-- Settles O13: what the operation can see is the same in the state it has left and, for one without state, in every
state with the parameters; every completion with a result but that of `AGG.TAKE` changes the result alone. -/
theorem readsHaveNoSideEffect : Obligations.ReadsHaveNoSideEffect := by
  unfold Obligations.ReadsHaveNoSideEffect
  refine ⟨fun i s t hw h => ?_, fun i s s' t hi hp h => ?_, fun i s t h hres hne => ?_⟩
  · obtain ⟨r, rfl⟩ := exec_next_of_writesNothing hw h
    refine ⟨rfl, ?_⟩
    rw [exec_of_sameReadable hw (sameReadable_deliver s r), h]
    rfl
  · rw [exec_of_stateless hi hp, h]
    rfl
  · cases completes_of_exec h with
    | aggTake c => exact ⟨c, rfl⟩
    | reads r => exact absurd rfl hne
    | crcInit | crcUpdate | aggPush | trefRebase => exact absurd rfl hres

end Sys2Proof.Machine
end

section
/-! The frame aggregator over one push and one step (44_frame_aggregator.md R161, R164, R168, R170): the invariant, the
frame of `AGG.PUSH` and its hand-off, each read off the state in which a push ends. -/

namespace Sys2Proof.Machine

open Sys2Proof

/-! ## The invariant -/

/-- R51: the command buffer is never empty. -/
theorem cap_pos (p : Params) : 0 < p.cap := by
  have hlen : 0 < cobsMaxlen (p.payloadMax + crcBytes) := by
    unfold cobsMaxlen
    split_ifs <;> omega
  have hexp : 0 < p.fecExpansion := by
    unfold Params.fecExpansion
    split_ifs <;> decide
  exact Nat.mul_pos hlen hexp

/-- R225: the invariant holds in every reset state. -/
theorem inv_resetFor (p : Params) : (State.resetFor p).Inv where
  bufWf := memory_wf_nil
  writtenPrefix := fun a => by simp [State.resetFor, memory_read_nil]
  writtenLeCap := Nat.zero_le _
  indexLtCap := cap_pos p
  indexLeWritten := Nat.le_refl _
  lenLeWritten := Nat.le_refl _
  emptyFrameFailed := fun h => absurd h Bool.false_ne_true
  fecOnly := fun _ => ⟨rfl, rfl, rfl, rfl⟩

/-- The registers that the invariant speaks of. -/
def invRegisters (s : State) : Params × Memory × Nat × Nat × Nat × Bool × Bool × Bool × Bool × Bool :=
  (s.params, s.buf, s.bufWritten, s.aggIndex, s.frameLen, s.frameReady, s.frameHammingError, s.frameCorrected,
    s.aggCorrected, s.aggHalfValid)

theorem State.Inv.of_invRegisters_eq {s t : State} (hi : s.Inv) (h : invRegisters t = invRegisters s) : t.Inv := by
  simp only [invRegisters, Prod.mk.injEq] at h
  obtain ⟨hp, hb, hw, hidx, hlen, hready, hham, hcor, hagg, hhalf⟩ := h
  obtain ⟨bufWf, writtenPrefix, writtenLeCap, indexLtCap, indexLeWritten, lenLeWritten, emptyFrameFailed, fecOnly⟩ := hi
  constructor <;> simpa only [hp, hb, hw, hidx, hlen, hready, hham, hcor, hagg, hhalf]

/-- Where exactly the first `n` bytes are written, a store at or below `n` extends them to cover its own byte. -/
theorem writtenPrefix_write {m : Memory} {n a : Nat} (v : Byte) (h : ∀ k, (m.read k).isSome = true ↔ k < n)
    (ha : a ≤ n) (k : Nat) : ((m.write a v).read k).isSome = true ↔ k < max n (a + 1) := by
  by_cases hk : k = a
  · subst hk
    simp
  · rw [memory_read_write_other m a k v hk, h]
    omega

/-- The buffer after a push that completes: `agg_index` and `buf_written` are advanced by the bytes stored. -/
theorem pushedState_stores (b : Byte) (s : State) :
    (pushStores b s = none ∧ pushCount b s = 0 ∧ (pushedState b s).buf = s.buf ∧
      (pushedState b s).bufWritten = s.bufWritten) ∨
    ∃ v, pushStores b s = some (s.aggIndex, v) ∧ pushCount b s = 1 ∧
      (pushedState b s).buf = s.buf.write s.aggIndex v ∧
      (pushedState b s).bufWritten = max s.bufWritten (s.aggIndex + 1) := by
  cases hst : pushStores b s with
  | none => exact .inl ⟨rfl, by simp [pushCount, hst], by simp [pushedState, hst], by simp [pushedState, hst]⟩
  | some c =>
    obtain ⟨i, v⟩ := c
    obtain rfl := pushStores_index hst
    exact .inr ⟨v, rfl, by simp [pushCount, hst], by simp [pushedState, hst], by simp [pushedState, hst]⟩

/-- R169: a byte stored without a hand-off leaves room for the next one. -/
theorem index_lt_cap_of_not_handsOff {b : Byte} {s : State} (hi : s.aggIndex < s.params.cap)
    (hoff : pushHandsOff b s = false) : s.aggIndex + pushCount b s < s.params.cap := by
  obtain ⟨-, hcount, -⟩ | ⟨v, hst, hcount, -⟩ := pushedState_stores b s
  · rwa [hcount]
  · rw [pushHandsOff_of_some hst] at hoff
    have hne : s.aggIndex + 1 ≠ s.params.cap := fun heq => by simp [frameComplete, heq] at hoff
    omega

/-- R26, R27, R32, R164: a push keeps the invariant. -/
theorem pushedState_inv {s : State} (b : Byte) (hi : s.Inv) : (pushedState b s).Inv := by
  obtain ⟨bufWf, writtenPrefix, writtenLeCap, indexLtCap, indexLeWritten, lenLeWritten, emptyFrameFailed, fecOnly⟩ := hi
  have hstores := pushedState_stores b s
  have hend : s.aggIndex + pushCount b s ≤ (pushedState b s).bufWritten ∧ s.bufWritten ≤ (pushedState b s).bufWritten := by
    obtain ⟨-, hcount, -, hw⟩ | ⟨v, -, hcount, -, hw⟩ := hstores
    · rw [hcount, hw]
      exact ⟨indexLeWritten, Nat.le_refl _⟩
    · rw [hcount, hw]
      exact ⟨Nat.le_max_right _ _, Nat.le_max_left _ _⟩
  constructor
  case bufWf =>
    obtain ⟨-, -, hb, -⟩ | ⟨v, -, -, hb, -⟩ := hstores
    · rwa [hb]
    · rw [hb]
      exact memory_write_wf _ _ _ bufWf
  case writtenPrefix =>
    obtain ⟨-, -, hb, hw⟩ | ⟨v, -, -, hb, hw⟩ := hstores
    · rwa [hb, hw]
    · rw [hb, hw]
      exact writtenPrefix_write v writtenPrefix indexLeWritten
  case writtenLeCap =>
    obtain ⟨-, -, -, hw⟩ | ⟨v, -, -, -, hw⟩ := hstores
    · rwa [hw]
    · rw [hw]
      exact Nat.max_le.mpr ⟨writtenLeCap, indexLtCap⟩
  case indexLtCap =>
    cases hoff : pushHandsOff b s with
    | true => simpa [pushedState, hoff] using cap_pos s.params
    | false => simpa [pushedState, hoff] using index_lt_cap_of_not_handsOff indexLtCap hoff
  case indexLeWritten =>
    cases hoff : pushHandsOff b s with
    | true => simp only [pushedState, hoff, if_true, Nat.zero_le]
    | false => exact (Nat.le_of_eq (by simp [pushedState, hoff])).trans hend.1
  case lenLeWritten =>
    cases hoff : pushHandsOff b s with
    | true => exact (Nat.le_of_eq (by simp [pushedState, hoff])).trans hend.1
    | false => exact (Nat.le_of_eq (by simp [pushedState, hoff])).trans (lenLeWritten.trans hend.2)
  case emptyFrameFailed =>
    cases hoff : pushHandsOff b s with
    | true =>
      obtain ⟨hst, -⟩ | ⟨v, -, hcount, -⟩ := hstores
      · simp [pushedState, hoff, hst]
      · simp [pushedState, hoff, hcount]
    | false => simpa [pushedState, hoff] using emptyFrameFailed
  case fecOnly =>
    intro hf
    obtain ⟨hagg, hhalf, hcor, hham⟩ := fecOnly hf
    have hplain : s.params.fecEn = false := hf
    simp [pushedState, pushCorrected, pushStores_plain hplain, hplain, hagg, hhalf, hcor, hham]

/-- R164: every operation keeps the invariant; `AGG.TAKE` clears the request, and all but it and `AGG.PUSH` leave the
aggregator alone. -/
theorem exec_inv {i : Instr} {s t : State} (hi : s.Inv) (h : exec i s = .next t) : t.Inv := by
  cases completes_of_exec h with
  | aggPush b => exact (pushedState_inv b hi).of_invRegisters_eq rfl
  | aggTake c =>
    have htaken : State.Inv { s with frameReady := false } :=
      { hi with emptyFrameFailed := fun h => absurd h Bool.false_ne_true }
    exact htaken.of_invRegisters_eq rfl
  | reads | crcInit | crcUpdate | trefRebase => exact hi.of_invRegisters_eq rfl

/-- R164: every step keeps the invariant. -/
theorem step_inv {s t : State} (hi : s.Inv) (h : step s = .next t) : t.Inv := by
  obtain ⟨-, rfl⟩ | ⟨r, rest, -, ⟨i, u, -, hx, rfl⟩ | ⟨i, f, -, -, -, rfl⟩ | ⟨op, -, rfl⟩⟩ := step_next h
  · exact hi
  · exact (exec_inv (hi.with_requests rest) hx).of_invRegisters_eq rfl
  · exact hi.of_invRegisters_eq rfl
  · exact hi.of_invRegisters_eq rfl

/-! ## The obligations -/

/-- Settles O7: an empty buffer, and everything else at 0. -/
theorem invHoldsAtReset : Obligations.InvHoldsAtReset := by
  unfold Obligations.InvHoldsAtReset
  exact ⟨inv_resetFor, inv_resetFor _⟩

/-- Settles O8: the step's three ends, each through what it leaves of the invariant's registers. -/
theorem stepKeepsInv : Obligations.StepKeepsInv := by
  unfold Obligations.StepKeepsInv
  exact fun s t => step_inv

/-- Settles O43: the index of the invariant lies in the buffer, so the push completes. -/
theorem pushAlwaysCompletes : Obligations.PushAlwaysCompletes := by
  unfold Obligations.PushAlwaysCompletes
  intro s b hi
  exact ⟨_, (exec_aggPush_eq b s).trans (if_pos fun _ => hi.indexLtCap), rfl⟩

/-- Settles O46: each register of the pushed state, by what is stored and whether it hands off. -/
theorem pushFrame : Obligations.PushFrame := by
  unfold Obligations.PushFrame
  intro s t b h
  obtain ⟨hcap, rfl⟩ := exec_aggPush_pushedState h
  refine ⟨fun hst => ?_, fun i v hst => ?_, fun hoff => ⟨?_, ?_, fun hst => ?_⟩, fun hoff => ?_, fun hf => ?_,
    fun hf => ⟨?_, fun hv => ?_⟩, rfl, rfl, rfl, rfl, rfl, rfl, rfl, rfl⟩
  · simp [pushedState, hst]
  · obtain rfl := pushStores_index hst
    refine ⟨rfl, hcap (by rw [hst]; rfl), ?_, fun a ha => ?_, ?_⟩
    · simp [pushedState, hst]
    · simpa [pushedState, hst] using memory_read_write_other _ _ _ v ha
    · simp [pushedState, hst]
  · simp [sameLatch, pushedState, hoff]
  · simp [pushedState, pushCount, hoff]
  · simp [pushedState, pushCorrected, hoff, hst]
  · simp [pushedState, hoff]
  · simp [pushedState, pushCorrected, hf]
  · simp [pushedState, hf]
  · simp [pushedState, hv]

/-- Settles O47: the latch of the pushed state; a byte other than the stored one reads as before. -/
theorem handoffWritesLatch : Obligations.HandoffWritesLatch := by
  unfold Obligations.HandoffWritesLatch
  intro s t b h hoff
  obtain ⟨-, rfl⟩ := exec_aggPush_pushedState h
  refine ⟨?_, ?_, ?_, ?_, ?_, ?_, fun hf => ⟨?_, ?_⟩, fun a ha => ?_⟩
  · simp [pushedState, hoff]
  · simp [pushedState, pushCount, hoff]
  · simp [pushedState, hoff]
  · cases hf : s.params.fecEn <;> simp [pushedState, pushCorrected, hoff, hf]
  · simp [pushedState, hoff]
  · simp [pushedState, hoff]
  · simp [pushedState, hoff, hf]
  · have hv : s.aggHalfValid = true :=
      Bool.eq_true_of_not_eq_false fun hv => by simp [pushHandsOff_firstOfPair hf hv] at hoff
    simp [pushedState, hf, hv]
  · cases hst : pushStores b s with
    | none => simp [pushedState, hst]
    | some c => simpa [pushedState, hst] using memory_read_write_other _ _ _ c.2 (ha c.1 c.2 hst)

/-- Settles O48: the flags after a push and after a take, and the latch that the next take reads. -/
theorem overrunIsCoalescedAndReported : Obligations.OverrunIsCoalescedAndReported := by
  unfold Obligations.OverrunIsCoalescedAndReported
  refine ⟨fun s t b hready hoff h => ?_, fun s t u b c hover htake hoff hpush => ?_⟩
  · obtain ⟨hready', hover'⟩ := exec_aggPush_flags h
    rw [hready, Bool.true_or] at hready'
    rw [hready, hoff, Bool.and_true, Bool.or_true] at hover'
    obtain ⟨-, rfl⟩ := exec_aggPush_pushedState h
    refine ⟨hready', by simp [pushedState, pushCount, hoff], fun c => ⟨_, rfl, _, rfl, hready', hover', rfl⟩⟩
  · obtain ⟨hready, hkept⟩ := exec_aggTake_flags htake
    obtain ⟨hready', hover'⟩ := exec_aggPush_flags hpush
    rw [hready', hover', hready, hkept, hover, hoff]
    exact ⟨rfl, by cases c <;> rfl⟩

end Sys2Proof.Machine
end

section
/-! The CRC over messages and runs (40_crc32.md R88, R92 to R94): linearity and injectivity of the byte step, and the run
of a stream with other operations between its own. -/

namespace Sys2Proof.Machine

open Sys2Proof

/-! ## Linearity -/

theorem xor_xor_xor_comm (a b c d : Word32) : a ^^^ b ^^^ (c ^^^ d) = a ^^^ c ^^^ (b ^^^ d) := by ac_rfl

theorem crcBit_xor (poly a b : Word32) : crcBit poly (a ^^^ b) = crcBit poly a ^^^ crcBit poly b := by
  simp only [crcBit, BitVec.getLsbD_xor, BitVec.shiftLeft_xor_distrib]
  cases a.getLsbD 31 with
  | false =>
    cases b.getLsbD 31 with
    | false => rfl
    | true => exact BitVec.xor_assoc _ _ _
  | true =>
    cases b.getLsbD 31 with
    | false =>
      have h := xor_xor_xor_comm (a <<< 1) poly (b <<< 1) 0#32
      rw [BitVec.xor_zero, BitVec.xor_zero] at h
      exact h.symm
    | true =>
      have h := xor_xor_xor_comm (a <<< 1) poly (b <<< 1) poly
      rw [BitVec.xor_self, BitVec.xor_zero] at h
      exact h.symm

theorem crcBit_iterate_xor (poly a b : Word32) (n : Nat) :
    (crcBit poly)^[n] (a ^^^ b) = (crcBit poly)^[n] a ^^^ (crcBit poly)^[n] b := by
  induction n generalizing a b with
  | zero => rfl
  | succ n ih => rw [Function.iterate_succ_apply, Function.iterate_succ_apply, Function.iterate_succ_apply, crcBit_xor, ih]

/-- R88: the bits of the register and of the byte enter the same linear map. -/
theorem crcStep_xor (poly a a' : Word32) (b b' : Byte) :
    crcStep poly (a ^^^ a') (b ^^^ b') = crcStep poly a b ^^^ crcStep poly a' b' := by
  rw [crcStep, BitVec.setWidth_xor, BitVec.shiftLeft_xor_distrib, xor_xor_xor_comm, crcBit_iterate_xor]
  rfl

/-! ## Injectivity -/

/-- A polynomial with a constant term leaves bit 0 set whenever it is applied, so only 0 is sent to 0. -/
theorem eq_zero_of_crcBit_eq_zero {poly a : Word32} (hpoly : poly.getLsbD 0 = true) (h : crcBit poly a = 0) : a = 0 := by
  have hbit (i : Nat) : (crcBit poly a).getLsbD i = false := by rw [h]; exact BitVec.getLsbD_zero
  cases htop : a.getLsbD 31 with
  | true =>
    have hlow := hbit 0
    rw [crcBit, if_pos htop, BitVec.getLsbD_xor, hpoly, BitVec.getLsbD_shiftLeft] at hlow
    simp at hlow
  | false =>
    apply BitVec.eq_of_getLsbD_eq
    intro i hi
    by_cases hlast : i = 31
    · simpa [hlast] using htop
    · have hi' : i + 1 < 32 := by omega
      have hnext := hbit (i + 1)
      rw [crcBit, if_neg (Bool.eq_false_iff.mp htop), BitVec.getLsbD_shiftLeft] at hnext
      simpa [hi'] using hnext

theorem crcBit_injective {poly : Word32} (hpoly : poly.getLsbD 0 = true) : Function.Injective (crcBit poly) := by
  intro a b h
  have hzero : crcBit poly (a ^^^ b) = 0 := by rw [crcBit_xor, h, BitVec.xor_self]; rfl
  exact BitVec.xor_eq_zero_iff.mp (eq_zero_of_crcBit_eq_zero hpoly hzero)

theorem crcStep_injective_register {poly : Word32} (hpoly : poly.getLsbD 0 = true) (b : Byte) :
    Function.Injective fun acc => crcStep poly acc b :=
  fun _ _ h => (BitVec.xor_left_inj _).mp ((crcBit_injective hpoly).iterate 8 h)

/-- The byte enters the top of the register whole. -/
theorem crcStep_injective_byte {poly : Word32} (hpoly : poly.getLsbD 0 = true) (acc : Word32) :
    Function.Injective (crcStep poly acc) := by
  intro b b' h
  have htop := (BitVec.xor_right_inj _).mp ((crcBit_injective hpoly).iterate 8 h)
  apply BitVec.eq_of_getLsbD_eq
  intro i hi
  have hbit := congrArg (fun w : Word32 => w.getLsbD (24 + i)) htop
  have hi' : 24 + i < 32 := by omega
  simpa [hi'] using hbit

theorem crcFold_injective_register {p : Params} (hpoly : p.crcPoly.getLsbD 0 = true) (m : List Byte) :
    Function.Injective fun acc => crcFold p acc m := by
  induction m with
  | nil => exact Function.injective_id
  | cons b m ih => exact ih.comp (crcStep_injective_register hpoly b)

theorem crc32_ne_of_crcFold_ne {p : Params} {m m' : List Byte} (h : crcFold p p.crcInit m ≠ crcFold p p.crcInit m') :
    crc32 p m ≠ crc32 p m' :=
  fun heq => h ((BitVec.xor_left_inj _).mp heq)

/-! ## One flipped bit -/

theorem flipBit_zero (b : Byte) (m : List Byte) (k : Nat) : flipBit (b :: m) 0 k = (b ^^^ (1#8 <<< k)) :: m := rfl

theorem flipBit_succ (b : Byte) (m : List Byte) (j k : Nat) : flipBit (b :: m) (j + 1) k = b :: flipBit m j k := rfl

theorem byte_flip_ne (b : Byte) {k : Nat} (hk : k < 8) : b ^^^ (1#8 <<< k) ≠ b := by
  intro h
  have hbit := congrArg (fun w : Byte => w.getLsbD k) h
  simp [hk] at hbit

/-- R93: at the flipped byte the registers part, and no later byte joins them again. -/
theorem crcFold_flipBit_ne {p : Params} (hpoly : p.crcPoly.getLsbD 0 = true) {m : List Byte} {j k : Nat}
    (hj : j < m.length) (hk : k < 8) (acc : Word32) : crcFold p acc (flipBit m j k) ≠ crcFold p acc m := by
  induction m generalizing j acc with
  | nil => exact absurd hj (Nat.not_lt_zero j)
  | cons b m ih =>
    cases j with
    | zero =>
      rw [flipBit_zero, crcFold_cons, crcFold_cons]
      exact (crcFold_injective_register hpoly m).ne ((crcStep_injective_byte hpoly acc).ne (byte_flip_ne b hk))
    | succ j =>
      rw [flipBit_succ, crcFold_cons, crcFold_cons]
      exact ih (Nat.lt_of_succ_lt_succ hj) _

theorem crc32_flipBit_ne {p : Params} (hpoly : p.crcPoly.getLsbD 0 = true) {m : List Byte} {j k : Nat}
    (hj : j < m.length) (hk : k < 8) : crc32 p (flipBit m j k) ≠ crc32 p m :=
  crc32_ne_of_crcFold_ne (crcFold_flipBit_ne hpoly hj hk _)

/-! ## Leading zeros -/

/-- R94: from the register 0 a leading zero byte leaves the CRC as it is. -/
theorem crc32_zero_cons {p : Params} (h : p.crcInit = 0) (m : List Byte) : crc32 p (0x00 :: m) = crc32 p m := by
  rw [crc32, crc32, crcFold_cons, h, crcStep_zero_zero]

/-! ## Streams -/

/-- The CRC register with the parameters it is computed with (R24, R25). -/
def crcRegister (s : State) : Params × Bool × Word32 := (s.params, s.crcValid, s.crcAcc)

theorem code_eq_of_decode {r : Request} {i : Instr} (h : decode r = .operation i) : i.code = r.op := by
  obtain hill | ⟨j, hj, hcode⟩ := decode_cases r
  · cases hill.symm.trans h
  · rwa [Decoded.operation.inj (hj.symm.trans h)] at hcode

/-- R24: a step on a request whose code is none of the three leaves the CRC register. -/
theorem step_crcRegister_kept {s t : State} {r : Request} {rest : List Request} (hq : s.requests = r :: rest)
    (hr : r.touchesCrc = false) (h : step s = .next t) : t.requests = rest ∧ crcRegister t = crcRegister s := by
  obtain ⟨hnil, -⟩ | ⟨r', rest', hq', hend⟩ := step_next h
  · cases hnil.symm.trans hq
  · obtain ⟨rfl, rfl⟩ := List.cons.inj (hq'.symm.trans hq)
    obtain ⟨i, u, hd, hx, rfl⟩ | ⟨i, f, -, -, -, rfl⟩ | ⟨op, -, rfl⟩ := hend
    · have hcode := code_eq_of_decode hd
      have hinit : i ≠ .crcInit := by
        rintro rfl
        simp [Request.touchesCrc, ← hcode, Instr.code] at hr
      have hupdate (b : Byte) : i ≠ .crcUpdate b := by
        rintro rfl
        simp [Request.touchesCrc, ← hcode, Instr.code] at hr
      obtain ⟨hreq, -, -⟩ := exec_bookkeeping hx
      obtain ⟨hacc, hvalid⟩ := exec_crc_kept hx hinit hupdate
      have hparams := exec_params hx
      exact ⟨hreq, by simp [crcRegister, hacc, hvalid, hparams]⟩
    · exact ⟨rfl, rfl⟩
    · exact ⟨rfl, rfl⟩

/-- A run over requests that leave the CRC register alone, and what it goes on with. -/
theorem runSteps_crcRegister_kept {s t : State} {pre rest : List Request} {k : Nat} (hq : s.requests = pre ++ rest)
    (hpre : ∀ r ∈ pre, r.touchesCrc = false) (h : runSteps (pre.length + k) s = .next t) :
    ∃ u, runSteps k u = .next t ∧ u.requests = rest ∧ crcRegister u = crcRegister s := by
  induction pre generalizing s with
  | nil => exact ⟨s, by simpa using h, hq, rfl⟩
  | cons r pre ih =>
    obtain ⟨hr, hpre⟩ := List.forall_mem_cons.mp hpre
    rw [List.length_cons, Nat.add_right_comm] at h
    obtain ⟨v, hs, hv⟩ := runSteps_succ_next h
    obtain ⟨hreq, hcrc⟩ := step_crcRegister_kept hq hr hs
    obtain ⟨u, hu, hrest, hcrc'⟩ := ih hreq hpre hv
    exact ⟨u, hu, hrest, hcrc'.trans hcrc⟩

/-- The run over `q` up to and with its next CRC operation `r`: `v` is the state behind `r`, `post` what follows. -/
theorem runSteps_next_crcOperation {s t : State} {q rest ops : List Request} {r : Request}
    (hq : s.requests = q ++ rest) (hops : q.filter Request.touchesCrc = r :: ops)
    (h : runSteps q.length s = .next t) :
    ∃ post u v, post.filter Request.touchesCrc = ops ∧ (post ≠ [] → post.getLast? = q.getLast?) ∧
      u.requests = r :: (post ++ rest) ∧ crcRegister u = crcRegister s ∧ step u = .next v ∧
      runSteps post.length v = .next t := by
  obtain ⟨pre, post, rfl, hpre, -, hpost⟩ := List.filter_eq_cons_iff.mp hops
  rw [List.append_assoc] at hq
  rw [List.length_append] at h
  obtain ⟨u, hu, hreq, hcrc⟩ := runSteps_crcRegister_kept hq (by simpa using hpre) h
  obtain ⟨v, hs, hv⟩ := runSteps_succ_next hu
  refine ⟨post, u, v, hpost, fun hne => ?_, hreq, hcrc, hs, hv⟩
  rw [List.getLast?_append_of_ne_nil _ (List.cons_ne_nil r post), List.getLast?_cons_of_ne_nil hne]

/-- R89, R92: on an initialised register, a run whose CRC operations are the updates of `m` and a last `CRC.FINAL` returns
the fold of `m` from the register. -/
theorem result_of_updates_and_final {s t : State} {q rest : List Request} {m : List Byte} (hv : s.crcValid = true)
    (hq : s.requests = q ++ rest)
    (hops : q.filter Request.touchesCrc = (m.map fun b => encode .client (.crcUpdate b)) ++ [encode .client .crcFinal])
    (hlast : q.getLast? = some (encode .client .crcFinal)) (h : runSteps q.length s = .next t) :
    t.result = .crc (crcFold s.params s.crcAcc m ^^^ s.params.crcXorout) := by
  induction m generalizing s q with
  | nil =>
    obtain ⟨post, u, v, hpost, hend, hreq, hcrc, hs, hrun⟩ := runSteps_next_crcOperation hq hops h
    obtain ⟨hparams, huv, hacc⟩ : u.params = s.params ∧ u.crcValid = s.crcValid ∧ u.crcAcc = s.crcAcc := by
      simpa [crcRegister] using hcrc
    obtain rfl : post = [] := by
      by_contra hne
      have hmem := List.mem_of_getLast? ((hend hne).trans hlast)
      exact absurd rfl (List.filter_eq_nil_iff.mp hpost _ hmem)
    have hfinal := step_completes hreq (exec_crcFinal_of_valid (s := { u with requests := [] ++ rest }) (huv.trans hv))
    obtain rfl := Host.Outcome.next.inj (hs.symm.trans hfinal)
    obtain rfl := Host.Outcome.next.inj hrun
    simp [hparams, hacc, crcFold_nil]
  | cons b m ih =>
    obtain ⟨post, u, v, hpost, hend, hreq, hcrc, hs, hrun⟩ := runSteps_next_crcOperation hq hops h
    obtain ⟨hparams, huv, hacc⟩ : u.params = s.params ∧ u.crcValid = s.crcValid ∧ u.crcAcc = s.crcAcc := by
      simpa [crcRegister] using hcrc
    have hne : post ≠ [] := by
      rintro rfl
      simp at hpost
    have hupdate := step_completes hreq
      (exec_crcUpdate_of_valid (s := { u with requests := post ++ rest }) (huv.trans hv) b)
    obtain rfl := Host.Outcome.next.inj (hs.symm.trans hupdate)
    have hfold := ih rfl rfl hpost ((hend hne).trans hlast) hrun
    simpa [hparams, hacc, crcFold_cons] using hfold

/-- R92: a run whose CRC operations are those of a stream, the last request among them, returns the CRC of the message. -/
theorem result_of_crcStream {s t : State} {q rest : List Request} {m : List Byte} (hq : s.requests = q ++ rest)
    (hops : q.filter Request.touchesCrc = crcStream m) (hlast : q.getLast? = some (encode .client .crcFinal))
    (h : runSteps q.length s = .next t) : t.result = .crc (crc32 s.params m) := by
  obtain ⟨post, u, v, hpost, hend, hreq, hcrc, hs, hrun⟩ := runSteps_next_crcOperation hq hops h
  have hparams : u.params = s.params := congrArg Prod.fst hcrc
  have hne : post ≠ [] := by
    rintro rfl
    simp at hpost
  have hinit := step_completes hreq (exec_crcInit { u with requests := post ++ rest })
  obtain rfl := Host.Outcome.next.inj (hs.symm.trans hinit)
  have hfold := result_of_updates_and_final rfl rfl hpost ((hend hne).trans hlast) hrun
  simpa [hparams, crc32] using hfold

theorem crcStream_filter (m : List Byte) : (crcStream m).filter Request.touchesCrc = crcStream m := by
  rw [List.filter_eq_self]
  intro r hr
  simp only [crcStream, List.cons_append, List.mem_cons, List.mem_append, List.mem_map, List.not_mem_nil, or_false] at hr
  obtain rfl | ⟨b, -, rfl⟩ | rfl := hr <;> rfl

theorem crcStream_getLast? (m : List Byte) : (crcStream m).getLast? = some (encode .client .crcFinal) :=
  List.getLast?_concat

theorem crcStream_length (m : List Byte) : (crcStream m).length = m.length + 2 := by
  simp [crcStream]

/-! ## The obligations -/

/-- Settles O15: the linear map, and its values at three bytes. -/
theorem crcStepIsLinear : Obligations.CrcStepIsLinear := by
  unfold Obligations.CrcStepIsLinear
  exact ⟨crcStep_xor, by decide +kernel, by decide +kernel, by decide +kernel⟩

/-- Settles O19: the stream completes by its steps, and what a run with its CRC operations returns is the CRC. -/
theorem streamingEqualsBlock : Obligations.StreamingEqualsBlock := by
  unfold Obligations.StreamingEqualsBlock
  refine ⟨fun s m rest hq => ?_, fun s t m hops hlast h => ?_, fun s m => exec_crcBlock m s⟩
  · obtain ⟨-, t, -, -, -, ht, hreq, -⟩ := crcStream_returns_crcFinal hq
    rw [← crcStream_length] at ht ⊢
    exact ⟨t, ht, hreq, result_of_crcStream hq (crcStream_filter m) (crcStream_getLast? m) ht⟩
  · exact result_of_crcStream (List.append_nil _).symm hops hlast h

/-- Settles O20: the registers part at the flipped byte; the polynomial of the spec has its constant term. -/
theorem crcDetectsEverySingleBitFlip : Obligations.CrcDetectsEverySingleBitFlip := by
  unfold Obligations.CrcDetectsEverySingleBitFlip
  exact ⟨fun p hpoly m j k hj hk => crc32_flipBit_ne hpoly hj hk,
    fun _ _ => (by decide : (0x04C11DB7 : Word32).getLsbD 0 = true)⟩

/-- Settles O21: the zero byte on the zero register, and the examples of the spec. -/
theorem crcIgnoresLeadingZeros : Obligations.CrcIgnoresLeadingZeros := by
  unfold Obligations.CrcIgnoresLeadingZeros
  refine ⟨fun p h m => ⟨crcStep_zero_zero _, crc32_zero_cons h m⟩, fun f n => ?_⟩
  simp only [crc32_ofSpec]
  exact ⟨rfl, by decide +kernel⟩

end Sys2Proof.Machine
end

section
/-! Errors in code words and frames (42_hamming.md R122, R124, R129; 43_frame_codec.md R142, R144, R148, R149, R151, R152):
what the Hamming decoder makes of flipped bits, and what a frame is as wire bytes and to the check. -/

namespace Sys2Proof.Machine

open Sys2Proof

/-! ## The Hamming decoder by syndrome and parity -/

theorem exec_hamDec (h : Byte) (s : State) : exec (.hamDec h) s = .next (s.deliver (.decoded (hamDec h))) := rfl

theorem hamDec_of_even_clean {h : Byte} (hodd : hamOdd h = false) (hi : hamSyndrome h = 0) :
    hamDec h = some ⟨codeWordData h, false⟩ := by
  unfold hamDec
  dsimp only
  rw [hodd, decide_eq_true hi]

theorem hamDec_of_odd_clean {h : Byte} (hodd : hamOdd h = true) (hi : hamSyndrome h = 0) :
    hamDec h = some ⟨codeWordData h, true⟩ := by
  unfold hamDec
  dsimp only
  rw [hodd, decide_eq_true hi]

theorem natCast_one_shiftLeft (n : Nat) : ((1 <<< n : Nat) : Byte) = 1#8 <<< n := by
  apply BitVec.eq_of_toNat_eq
  simp

theorem hamDec_of_odd_syndrome {h : Byte} (hodd : hamOdd h = true) (hi : hamSyndrome h ≠ 0) :
    hamDec h = some ⟨codeWordData (h ^^^ (1#8 <<< (hamSyndrome h - 1))), true⟩ := by
  unfold hamDec
  dsimp only
  rw [hodd, decide_eq_false hi, natCast_one_shiftLeft]

theorem hamDec_of_even_syndrome {h : Byte} (hodd : hamOdd h = false) (hi : hamSyndrome h ≠ 0) : hamDec h = none := by
  unfold hamDec
  dsimp only
  rw [hodd, decide_eq_false hi]

/-- R124: odd parity is always taken for one flipped bit. -/
theorem exists_hamDec_of_odd {h : Byte} (hodd : hamOdd h = true) : ∃ v, hamDec h = some ⟨v, true⟩ := by
  by_cases hi : hamSyndrome h = 0
  · exact ⟨_, hamDec_of_odd_clean hodd hi⟩
  · exact ⟨_, hamDec_of_odd_syndrome hodd hi⟩

theorem codeWordData_getLsbD (h : Byte) (i : Nat) :
    (codeWordData h).getLsbD i = [h.getLsbD 2, h.getLsbD 4, h.getLsbD 5, h.getLsbD 6].getD i false :=
  nibbleOfBits_getLsbD _ _ _ _ i

/-! ## Flipped bits of a code word -/

/-- R124, over the sixteen code words. -/
theorem hamDec_hamEnc (v : Nibble) : hamDec (hamEnc v) = some ⟨v, false⟩ := by
  revert v
  decide +kernel

/-- R124, over the code words and the eight positions. -/
theorem hamDec_one_flip : ∀ (v : Nibble), ∀ b < 8, hamDec (hamEnc v ^^^ (1#8 <<< b)) = some ⟨v, true⟩ := by
  decide +kernel

/-- R124, over the code words and the pairs of positions. -/
theorem hamDec_two_flips :
    ∀ (v : Nibble), ∀ b < 8, ∀ c < 8, b ≠ c → hamDec (hamEnc v ^^^ (1#8 <<< b) ^^^ (1#8 <<< c)) = none := by
  decide +kernel

/-- R129: a byte with at most one flipped bit gives the nibble, and is corrected when it is not the code word. -/
theorem hamDec_of_oneFlip {v : Nibble} {x : Byte} (h : hamEnc v = x ∨ ∃ k < 8, x = hamEnc v ^^^ (1#8 <<< k)) :
    hamDec x = some ⟨v, decide (x ≠ hamEnc v)⟩ := by
  obtain rfl | ⟨k, hk, rfl⟩ := h
  · rw [hamDec_hamEnc, decide_eq_false (not_not.mpr rfl)]
  · rw [hamDec_one_flip v k hk, decide_eq_true (byte_flip_ne _ hk)]

/-! ## Expansions with flipped bits -/

theorem fecExpand_even (m : List Byte) : (fecExpand m).length % 2 = 0 := by
  rw [fecExpand_length, Nat.mul_mod_right]

theorem exists_hamEnc_of_mem_fecExpand {m : List Byte} {x : Byte} (h : x ∈ fecExpand m) : ∃ v, x = hamEnc v := by
  obtain ⟨b, -, hb⟩ := List.mem_flatMap.mp h
  obtain rfl | rfl := List.mem_pair.mp hb
  · exact ⟨_, rfl⟩
  · exact ⟨_, rfl⟩

/-- R129: with at most one flipped bit per byte the loop gives the input back, and corrects when some bit is flipped. -/
theorem fecCompressPairs_of_oneFlipPerByte {m w : List Byte} (h : oneFlipPerByte (fecExpand m) w) :
    fecCompressPairs w = .ok (m, decide (w ≠ fecExpand m)) := by
  induction m generalizing w with
  | nil =>
    obtain rfl := List.forall₂_nil_left_iff.mp h
    rfl
  | cons b m ih =>
    rw [fecExpand_cons] at h
    obtain ⟨x, w', hx, h', rfl⟩ := List.forall₂_cons_left_iff.mp h
    obtain ⟨y, rest, hy, hrest, rfl⟩ := List.forall₂_cons_left_iff.mp h'
    rw [fecCompressPairs_cons, hamDec_of_oneFlip hx, hamDec_of_oneFlip hy, joinPair_decodable, ih hrest, fecExpand_cons]
    simp only [Except.map, joinNibbles_low_high, ne_eq, List.cons.injEq, not_and_or, Bool.decide_or, Bool.or_assoc]

theorem fecCompress_of_oneFlipPerByte {m w : List Byte} (h : oneFlipPerByte (fecExpand m) w) :
    fecCompress w = .ok (m, decide (w ≠ fecExpand m)) := by
  have hlen : w.length % 2 = 0 := h.length_eq ▸ fecExpand_even m
  rw [fecCompress_of_even hlen, fecCompressPairs_of_oneFlipPerByte h]

/-- R129: compression undoes expansion. -/
theorem fecCompress_fecExpand (m : List Byte) : fecCompress (fecExpand m) = .ok (m, false) := by
  have hsame : oneFlipPerByte (fecExpand m) (fecExpand m) := List.forall₂_same.mpr fun _ _ => .inl rfl
  rw [fecCompress_of_oneFlipPerByte hsame, decide_eq_false (not_not.mpr rfl)]

/-- R129: two flipped bits in one byte fail the whole. -/
theorem fecCompress_of_two_flips {m w : List Byte} {j b c : Nat} {x : Byte} (hlen : w.length = (fecExpand m).length)
    (hb : b < 8) (hc : c < 8) (hbc : b ≠ c) (hx : (fecExpand m)[j]? = some x)
    (hw : w[j]? = some (x ^^^ (1#8 <<< b) ^^^ (1#8 <<< c))) : fecCompress w = .error .hammingError := by
  have heven : w.length % 2 = 0 := hlen ▸ fecExpand_even m
  obtain ⟨v, rfl⟩ := exists_hamEnc_of_mem_fecExpand (List.mem_of_getElem? hx)
  rw [fecCompress_of_even heven]
  exact fecCompressPairs_of_undecodable heven ⟨_, List.mem_of_getElem? hw, hamDec_two_flips v b hb c hc hbc⟩

/-- Only the zero byte expands to two zero bytes. -/
theorem eq_zero_of_hamEnc_eq_zero {b : Byte} (hlow : hamEnc (lowNibble b) = 0x00)
    (hhigh : hamEnc (highNibble b) = 0x00) : b = 0x00 := by
  have hzero : ∀ v : Nibble, hamEnc v = 0x00 → v = 0 := by decide +kernel
  rw [← joinNibbles_low_high b, hzero _ hlow, hzero _ hhigh]
  rfl

/-! ## Frames as wire bytes -/

theorem cobsMaxlen_mono {m n : Nat} (h : m ≤ n) : cobsMaxlen m ≤ cobsMaxlen n := by
  unfold cobsMaxlen
  split_ifs <;> omega

theorem framePlain_length (p : Params) (m : List Byte) : (framePlain p m).length = m.length + crcBytes := by
  rw [framePlain, List.length_append, crcTrailer_length]

/-- R142: a frame is as long as the encoding of its plain bytes, times the expansion. -/
theorem frameEncode_length (p : Params) (m : List Byte) :
    (frameEncode p m).length = (cobsEncode (framePlain p m)).length * p.fecExpansion := by
  simp only [frameEncode, Params.fecExpansion]
  split_ifs
  · rw [fecExpand_length, Nat.mul_comm]
  · exact (Nat.mul_one _).symm

theorem frameEncode_plain {p : Params} (hf : p.fecEn = false) (m : List Byte) :
    frameEncode p m = cobsEncode (framePlain p m) := by
  simp only [frameEncode, hf, Bool.false_eq_true, if_false]

theorem frameEncode_fec {p : Params} (hf : p.fecEn = true) (m : List Byte) :
    frameEncode p m = fecExpand (cobsEncode (framePlain p m)) := by
  simp only [frameEncode, hf, if_true]

theorem fecExpand_append (m n : List Byte) : fecExpand (m ++ n) = fecExpand m ++ fecExpand n := List.flatMap_append

/-- R144: in the expansion of a zero-free body and its terminator no aligned pair before the last is `00 00`. -/
theorem fecExpand_aligned_pair_ne_zero {body : List Byte} (hzero : 0x00 ∉ body) {k : Nat} (hk : k < body.length) :
    ¬ ((fecExpand (body ++ [0x00]))[2 * k]? = some 0x00 ∧ (fecExpand (body ++ [0x00]))[2 * k + 1]? = some 0x00) := by
  obtain ⟨hlow, hhigh⟩ := fecExpand_getElem? (body ++ [0x00]) k
  rw [hlow, hhigh, List.getElem?_append_left hk, List.getElem?_eq_getElem hk]
  rintro ⟨h0, h1⟩
  have hbyte := eq_zero_of_hamEnc_eq_zero (Option.some.inj h0) (Option.some.inj h1)
  exact hzero (hbyte ▸ List.getElem_mem hk)

/-! ## Frames and the check -/

/-- R146: plain bytes that end in a trailer pass when the trailer stores their CRC. -/
theorem frameCheck_cobsEncode_trailer (p : Params) (m : List Byte) (c : Word32) :
    frameCheck p (cobsEncode (m ++ crcTrailer p.trailerOrder c)) =
      if c = crc32 p m then .ok m else .error .crcError := by
  rw [frameCheck_of_trailer p (cobsDecode_cobsEncode _) (crcTrailer_length _ _), storedCrc_crcTrailer]
  simp only [Option.some.injEq]

theorem frameCheck_framePlain (p : Params) (m : List Byte) : frameCheck p (cobsEncode (framePlain p m)) = .ok m := by
  rw [framePlain, frameCheck_cobsEncode_trailer, if_pos rfl]

/-- R148: a frame decodes to its payload, uncorrected. -/
theorem frameDecode_frameEncode (p : Params) (m : List Byte) : frameDecode p (frameEncode p m) = .ok (m, false) := by
  cases hf : p.fecEn with
  | false =>
    rw [frameEncode_plain hf, frameDecode_plain _ hf, frameCheck_framePlain]
    rfl
  | true =>
    rw [frameEncode_fec hf, frameDecode_of_fecCompress_ok hf (fecCompress_fecExpand _), frameCheck_framePlain]
    rfl

/-- R151: the CRC of a flipped payload is not the one in the trailer. -/
theorem frameCheck_flipBit {p : Params} (hpoly : p.crcPoly.getLsbD 0 = true) {m : List Byte} {j k : Nat}
    (hj : j < m.length) (hk : k < 8) :
    frameCheck p (cobsEncode (flipBit m j k ++ crcTrailer p.trailerOrder (crc32 p m))) = .error .crcError := by
  rw [frameCheck_cobsEncode_trailer, if_neg (crc32_flipBit_ne hpoly hj hk).symm]

/-- R106, R146: bytes that do not end in the terminator fail the COBS stage. -/
theorem frameCheck_of_last_ne_zero (p : Params) {e : List Byte} (h : e.getLast? ≠ some 0x00) :
    frameCheck p e = .error .decodeError := by
  cases hdec : cobsDecode e with
  | error st =>
    obtain rfl := cobsDecode_error hdec
    exact frameCheck_of_cobsDecode_error p hdec
  | ok plain =>
    obtain ⟨body, -, rfl⟩ := exists_body_of_cobsDecode_ok hdec
    exact absurd List.getLast?_concat h

/-- R149: under the invariant the bytes of the frame are read, and judged when no Hamming failure is latched. -/
theorem exec_frameChk_of_inv_read {s : State} (hi : s.Inv) (hh : s.frameHammingError = false) :
    ∃ e, e.length = s.frameLen ∧ (∀ k (h : k < e.length), s.buf.read k = some e[k]) ∧
      exec .frameChk s = .next (s.deliver (correctedResult
        (withCorrected (s.params.fecEn && s.frameCorrected) (frameCheck s.params e)))) := by
  obtain ⟨e, he⟩ := memReadRange_frame_of_inv hi
  have hread : memReadRange s 0 s.frameLen = .ok e := he s.requests
  obtain ⟨hlen, hbytes⟩ := memReadRange_ok.mp hread
  have hlatch : readFrameHammingError s = false := by rw [readFrameHammingError, hh, Bool.and_false]
  refine ⟨e, hlen, fun k hk => ?_, exec_frameChk_of_read hlatch hread⟩
  simpa using (hbytes k hk).2

/-- R149: after a latched Hamming failure no byte is read. -/
theorem exec_frameChk_of_hammingError {s : State} (hf : s.params.fecEn = true) (hh : s.frameHammingError = true) :
    exec .frameChk s = .next (s.deliver (.failed .hammingError)) :=
  if_pos (by rw [readFrameHammingError, hf, hh]; rfl)

/-! ## The obligations -/

/-- Settles O33: one lemma for at most one flipped bit per byte, the unflipped expansion included, and one for two. -/
theorem fecRoundTripAndCorrection : Obligations.FecRoundTripAndCorrection := by
  unfold Obligations.FecRoundTripAndCorrection
  refine ⟨fecCompress_fecExpand, fun m w h hne => ?_, ?_⟩
  · rw [fecCompress_of_oneFlipPerByte h, decide_eq_true hne]
  · rintro m w j b c hlen hb hc hbc ⟨x, hx, hw⟩
    exact fecCompress_of_two_flips hlen hb hc hbc hx hw

/-- Settles O39: the frame decodes to its payload, and both operations deliver. -/
theorem frameRoundTrip : Obligations.FrameRoundTrip := by
  unfold Obligations.FrameRoundTrip
  refine fun s p hp => ⟨_, exec_frameEnc_of_le hp, ?_⟩
  rw [exec_frameDec, frameDecode_frameEncode]
  rfl

/-- Settles O30: no, one and two flips over all code words; odd parity by the syndrome. -/
theorem hammingCorrectsOneDetectsTwo : Obligations.HammingCorrectsOneDetectsTwo := by
  unfold Obligations.HammingCorrectsOneDetectsTwo
  refine ⟨fun s v => ?_, fun s v b hb => ?_, fun s v b c hb hc hbc => ?_, fun h => exists_hamDec_of_odd,
    by decide +kernel, by decide +kernel⟩
  · rw [exec_hamDec, hamDec_hamEnc]
    rfl
  · rw [exec_hamDec, hamDec_one_flip v b hb]
    rfl
  · rw [exec_hamDec, hamDec_two_flips v b hb c hc hbc]
    rfl

/-- Settles O35: the length of the encoding by its bound, and exactly when it is short. -/
theorem frameFitsCommandBuffer : Obligations.FrameFitsCommandBuffer := by
  unfold Obligations.FrameFitsCommandBuffer
  intro p m hm
  have hplain : (framePlain p m).length = m.length + 4 := framePlain_length p m
  refine ⟨frameEncode_length p m, ?_, rfl, ?_, fun hshort => ?_⟩
  · rw [frameEncode_length, ← hplain]
    exact Nat.mul_le_mul_right _ (cobsEncode_length_le _)
  · exact Nat.mul_le_mul_right _ (cobsMaxlen_mono (Nat.add_le_add_right hm _))
  · rw [frameEncode_length, cobsEncode_length_of_short (hplain.trans_lt hshort), hplain]

/-- Settles O36: the zero-free body of the encoding, and byte by byte its expansion; the unaligned pair lies between the
bytes `01` and `10`. -/
theorem frameDelimiterIsUnique : Obligations.FrameDelimiterIsUnique := by
  unfold Obligations.FrameDelimiterIsUnique
  refine ⟨fun p m hf => ?_, fun p m hf => ?_, [0x01, 0x10], 1, by decide +kernel⟩
  · obtain ⟨body, henc, hzero, -⟩ := cobsEncode_eq_body (framePlain p m)
    exact ⟨body, (frameEncode_plain hf m).trans henc, hzero⟩
  · obtain ⟨body, henc, hzero, -⟩ := cobsEncode_eq_body (framePlain p m)
    rw [frameEncode_fec hf, henc]
    refine ⟨fecExpand_even _, fun x => exists_hamEnc_of_mem_fecExpand, ⟨fecExpand body, fecExpand_append body [0x00]⟩,
      fun k hk => fecExpand_aligned_pair_ne_zero hzero ?_⟩
    rw [fecExpand_length, List.length_append, List.length_singleton] at hk
    omega

/-- Settles O40: the latched failure, the judged bytes, and the two kinds of frame without a last terminator. -/
theorem frameChkChecksTheHandedOffFrame : Obligations.FrameChkChecksTheHandedOffFrame := by
  unfold Obligations.FrameChkChecksTheHandedOffFrame
  refine ⟨fun s => exec_frameChk_of_hammingError, fun s hi hh => ?_, fun s hh hl => ?_, fun s hi hh hpos hlast => ?_⟩
  · obtain ⟨e, hlen, hread, hx⟩ := exec_frameChk_of_inv_read hi hh
    refine ⟨e, hlen, hread, fun p hp => ?_, fun st hst => ?_⟩
    · rw [hx, hp]
      rfl
    · rw [hx, hst]
      rfl
  · exact exec_frameChk_of_empty (by rw [readFrameHammingError, hh, Bool.and_false]) hl
  · obtain ⟨e, hlen, hread, hx⟩ := exec_frameChk_of_inv_read hi hh
    have hk : s.frameLen - 1 < e.length := by omega
    have hend : e.getLast? ≠ some 0x00 := by
      rwa [List.getLast?_eq_getElem?, hlen, List.getElem?_eq_getElem hk, ← hread _ hk]
    rw [hx, frameCheck_of_last_ne_zero _ hend]
    rfl

/-- Settles O41: the CRC of the flipped payload against the trailer, and the operation without FEC. -/
theorem tamperedPayloadIsRejected : Obligations.TamperedPayloadIsRejected := by
  unfold Obligations.TamperedPayloadIsRejected
  intro p m j k hpoly hj hk e
  have hcheck : frameCheck p e = .error .crcError := frameCheck_flipBit hpoly hj hk
  refine ⟨hcheck, ?_⟩
  rintro s rfl hf
  rw [exec_frameDec, frameDecode_plain e hf, hcheck]
  rfl

/-- Settles O42: a leading zero changes neither the CRC nor the trailer. -/
theorem leadingZeroPassesTheCheck : Obligations.LeadingZeroPassesTheCheck := by
  unfold Obligations.LeadingZeroPassesTheCheck
  intro p m hinit
  exact (frameCheck_cobsEncode_trailer p (0x00 :: m) _).trans (if_pos (crc32_zero_cons hinit m).symm)

/-- Settles O29: one lemma for each value of parity and syndrome, and the data bits by the layout. -/
theorem hamDecFollowsSyndrome : Obligations.HamDecFollowsSyndrome := by
  unfold Obligations.HamDecFollowsSyndrome
  refine ⟨fun s h => ⟨hamDec h, exec_hamDec h s, ?_⟩, fun h => ?_, by decide +kernel⟩
  · exact ⟨hamDec_of_even_clean, hamDec_of_odd_clean, hamDec_of_odd_syndrome, hamDec_of_even_syndrome⟩
  · simp only [codeWordData_getLsbD]
    exact ⟨rfl, rfl, rfl, rfl⟩

end Sys2Proof.Machine
end

section
/-! The time reference over operations and runs (45_time_reference.md R188, R190; 10_state.md R37): the laws of the virtual
time, and the premise on the tick counts along the pending operations. -/

namespace Sys2Proof.Machine

open Sys2Proof

/-! ## The virtual time -/

/-- R189: a `TREF.GET` that completes with a time has met neither fault, and the time is the sum. -/
theorem toNat_of_exec_trefGet {s t : State} {n r : Word64} (h : exec (.trefGet n) s = .next t)
    (hr : t.result = .time r) :
    s.rtcReference.toNat ≤ n.toNat ∧
      r.toNat = s.utcReference.toNat + (n.toNat - s.rtcReference.toNat) / 1000 := by
  have hle : s.rtcReference.toNat ≤ n.toNat := by
    by_contra hlt
    cases (exec_trefGet_of_lt (Nat.lt_of_not_le hlt)).symm.trans h
  refine ⟨hle, ?_⟩
  by_cases hsum : 2 ^ 64 ≤ s.utcReference.toNat + elapsedSeconds n s.rtcReference
  · cases (exec_trefGet_of_overflow hle hsum).symm.trans h
  · obtain rfl := Host.Outcome.next.inj ((exec_trefGet_of_sum_lt hle (Nat.lt_of_not_le hsum)).symm.trans h)
    obtain rfl := Result.time.inj hr
    exact (BitVec.toNat_ofNat _ _).trans (Nat.mod_eq_of_lt (Nat.lt_of_not_le hsum))

/-- R192: the overflow is that of the sum. -/
theorem sum_of_timeOverflow {s : State} {n u : Word64} {q : Nat} (h : exec (.trefGet n) s = .fault (.timeOverflow u q)) :
    2 ^ 64 ≤ s.utcReference.toNat + (n.toNat - s.rtcReference.toNat) / 1000 := by
  by_cases hle : s.rtcReference.toNat ≤ n.toNat
  · by_contra hsum
    cases (exec_trefGet_of_sum_lt hle (Nat.lt_of_not_le hsum)).symm.trans h
  · cases (exec_trefGet_of_lt (Nat.lt_of_not_le hle)).symm.trans h

/-! ## The tick counts of the pending operations -/

theorem pendingTicks_cons (r : Request) (q : List Request) :
    pendingTicks (r :: q) = pendingTicks [r] ++ pendingTicks q :=
  List.filterMap_append (l := [r])

/-- The tick count of a request is that of its operation, if it carries one. -/
theorem pendingTicks_singleton {r : Request} {i : Instr} (h : decode r = .operation i) :
    pendingTicks [r] = (i.tick?.map (·.toNat)).toList := by
  simp only [pendingTicks, List.filterMap_cons, h, List.filterMap_nil]
  cases i.tick? <;> rfl

/-- R37: the premise, seen from the next request. -/
theorem ticksMonotonic_cons_iff {s : State} {r : Request} {rest : List Request} (hq : s.requests = r :: rest) :
    s.TicksMonotonic ↔ (s.rtcReference.toNat :: (pendingTicks [r] ++ pendingTicks rest)).Pairwise (· ≤ ·) := by
  rw [State.TicksMonotonic, hq, pendingTicks_cons]

/-- R37: without its next request the premise still holds. -/
theorem ticksMonotonic_tail {s t : State} {r : Request} {rest : List Request} (hm : s.TicksMonotonic)
    (hq : s.requests = r :: rest) (ht : t.requests = rest) (hrtc : t.rtcReference = s.rtcReference) :
    t.TicksMonotonic := by
  rw [State.TicksMonotonic, ht, hrtc]
  exact ((ticksMonotonic_cons_iff hq).mp hm).sublist ((List.sublist_append_right _ _).cons_cons _)

/-- R187: a rebase takes its own tick count as the reference, and the premise holds from there. -/
theorem ticksMonotonic_rebase {s t : State} {r : Request} {rest : List Request} {u n : Word64} (hm : s.TicksMonotonic)
    (hq : s.requests = r :: rest) (hd : decode r = .operation (.trefRebase u n)) (ht : t.requests = rest)
    (hrtc : t.rtcReference = n) : t.TicksMonotonic := by
  have hticks := (ticksMonotonic_cons_iff hq).mp hm
  rw [pendingTicks_singleton hd] at hticks
  rw [State.TicksMonotonic, ht, hrtc]
  exact (List.pairwise_cons.mp hticks).2

/-- R191: under the premise the next request does not underflow. -/
theorem tick_le_of_ticksMonotonic {s : State} {r : Request} {rest : List Request} {n : Word64} (hm : s.TicksMonotonic)
    (hq : s.requests = r :: rest) (hd : decode r = .operation (.trefGet n)) : s.rtcReference.toNat ≤ n.toNat := by
  have hticks := (ticksMonotonic_cons_iff hq).mp hm
  rw [pendingTicks_singleton hd] at hticks
  exact (List.pairwise_cons.mp hticks).1 _ List.mem_cons_self

/-! ## Underflow -/

theorem memRead_error {a : Nat} {s : State} {f : Fault} (h : memRead a s = .error f) : f.isRaised = false := by
  unfold memRead at h
  split_ifs at h
  · obtain rfl := Except.error.inj h
    rfl
  · split at h
    · cases h
    · obtain rfl := Except.error.inj h
      rfl

theorem memReadRange_error {s : State} {a n : Nat} {f : Fault} (h : memReadRange s a n = .error f) :
    f.isRaised = false := by
  induction n generalizing a with
  | zero => cases h
  | succ n ih =>
    rw [memReadRange] at h
    split at h
    · obtain rfl := Except.error.inj h
      exact memRead_error ‹_›
    · split at h
      · obtain rfl := Except.error.inj h
        exact ih ‹_›
      · cases h

/-- R204: an operation faults by a row of the table, or by a stop of the model's own (logs 11 and 12). -/
theorem raises_of_exec_fault {i : Instr} {s : State} {f : Fault} (h : exec i s = .fault f) :
    Raises s f i ∨ f.isRaised = false := by
  cases i with
  | crcUpdate b =>
    cases hv : s.crcValid with
    | false => exact .inl ⟨hv, (Host.Outcome.fault.inj ((exec_crcUpdate_of_not_valid hv b).symm.trans h)).symm⟩
    | true => cases (exec_crcUpdate_of_valid hv b).symm.trans h
  | crcFinal =>
    cases hv : s.crcValid with
    | false => exact .inl ⟨hv, (Host.Outcome.fault.inj ((exec_crcFinal_of_not_valid hv).symm.trans h)).symm⟩
    | true => cases (exec_crcFinal_of_valid hv).symm.trans h
  | frameEnc p =>
    rcases Nat.lt_or_ge s.params.payloadMax p.length with hp | hp
    · exact .inl ⟨hp, (Host.Outcome.fault.inj ((exec_frameEnc_of_lt hp).symm.trans h)).symm⟩
    · cases (exec_frameEnc_of_le hp).symm.trans h
  | frameChk =>
    simp only [exec, execFrameChk] at h
    split_ifs at h
    split at h
    · obtain rfl := Host.Outcome.fault.inj h
      exact .inr (memReadRange_error ‹_›)
    · cases h
  | aggPush b =>
    rw [exec_aggPush_eq] at h
    split_ifs at h
    obtain rfl := Host.Outcome.fault.inj h
    exact .inr rfl
  | aggRdbuf idx =>
    simp only [exec, execAggRdbuf] at h
    split_ifs at h with hcap hw
    · exact .inl (.inl ⟨hcap, (Host.Outcome.fault.inj h).symm⟩)
    · exact .inl (.inr ⟨Nat.lt_of_not_le hcap, hw, (Host.Outcome.fault.inj h).symm⟩)
    · split at h
      · obtain rfl := Host.Outcome.fault.inj h
        exact .inr (memRead_error ‹_›)
      · cases h
  | trefGet n =>
    rcases Nat.lt_or_ge n.toNat s.rtcReference.toNat with hn | hn
    · exact .inl (.inl ⟨hn, (Host.Outcome.fault.inj ((exec_trefGet_of_lt hn).symm.trans h)).symm⟩)
    · rw [exec_trefGet_of_le hn] at h
      split_ifs at h with hsum
      exact .inl (.inr ⟨hn, hsum, (Host.Outcome.fault.inj h).symm⟩)
  | crcInit | crcBlock | cobsEnc | cobsDec | hamEnc | hamDec | fecExpand | fecCompress | frameDec | aggTake |
      trefRebase | trefIsset => cases h

/-- R203: a fault of R204 is recorded, so it never ends a step. -/
theorem isRaised_false_of_step_fault {s : State} {f : Fault} (h : step s = .fault f) : f.isRaised = false := by
  cases hq : s.requests with
  | nil => cases (step_idle hq).symm.trans h
  | cons r rest =>
    have hend {a : Agent} {before : State} {o : Host.Outcome State Fault Refusal}
        (ho : endOperation a before o = .fault f) : f.isRaised = false := by
      cases o with
      | next t => cases ho
      | refused x => cases ho
      | fault g =>
        rw [endOperation] at ho
        split_ifs at ho with hg
        obtain rfl := Host.Outcome.fault.inj ho
        exact Bool.eq_false_iff.mpr hg
    exact hend ((step_cons hq).symm.trans h)

/-- R37, R191: under the premise no fault that an operation of the next request raises is an underflow. -/
theorem not_timeUnderflow_of_ticksMonotonic {s : State} {r : Request} {rest : List Request} {i : Instr} {n m : Word64}
    (hm : s.TicksMonotonic) (hq : s.requests = r :: rest) (hd : decode r = .operation i) :
    exec i { s with requests := rest } ≠ .fault (.timeUnderflow n m) := by
  intro hx
  obtain hr | hstop := raises_of_exec_fault hx
  · cases i with
    | trefGet n' =>
      obtain ⟨hlt, -⟩ | ⟨-, -, hf⟩ := hr
      · exact absurd (tick_le_of_ticksMonotonic hm hq hd) (Nat.not_le.mpr hlt)
      · cases hf
    | crcUpdate | crcFinal | frameEnc => cases hr.2
    | aggRdbuf =>
      obtain ⟨-, hf⟩ | ⟨-, -, hf⟩ := hr
      · cases hf
      · cases hf
    | _ => exact hr.elim
  · cases hstop

/-- R37, R191: what a step leaves of the premise and of the record of faults. -/
theorem step_ticksMonotonic {s t : State} (hm : s.TicksMonotonic) (h : step s = .next t) :
    t.TicksMonotonic ∧ ∀ n m, t.faults ≠ s.faults ++ [.timeUnderflow n m] := by
  obtain ⟨-, rfl⟩ | ⟨r, rest, hq, ⟨i, u, hd, hx, rfl⟩ | ⟨i, f, hd, hx, -, rfl⟩ | ⟨op, -, rfl⟩⟩ := step_next h
  · exact ⟨hm, by simp⟩
  · obtain ⟨hreq, -, hfaults⟩ := exec_bookkeeping hx
    refine ⟨?_, fun n m => by simp [hfaults]⟩
    by_cases hrebase : ∃ v n, i = .trefRebase v n
    · obtain ⟨v, n, rfl⟩ := hrebase
      obtain rfl := Host.Outcome.next.inj hx
      exact ticksMonotonic_rebase hm hq hd rfl rfl
    · have hrtc : u.rtcReference = s.rtcReference := not_not.mp (not_or.mp (mt (exec_reference_writers hx) hrebase)).2
      exact ticksMonotonic_tail hm hq hreq hrtc
  · refine ⟨ticksMonotonic_tail hm hq rfl rfl, fun n m hf => ?_⟩
    obtain rfl : f = .timeUnderflow n m := by simpa using hf
    exact not_timeUnderflow_of_ticksMonotonic hm hq hd hx
  · exact ⟨ticksMonotonic_tail hm hq rfl rfl, by simp⟩

/-! ## The obligations -/

/-- Settles O58: the premise from the next request on, and the faults that a step can record. -/
theorem monotonicTicksNeverUnderflow : Obligations.MonotonicTicksNeverUnderflow := by
  unfold Obligations.MonotonicTicksNeverUnderflow
  refine fun s hm => ⟨fun n m h => ?_, fun t => step_ticksMonotonic hm⟩
  cases isRaised_false_of_step_fault h

/-- Settles O54: the registers that a rebase writes, and the operations on the state it leaves. -/
theorem rebaseCornerCases : Obligations.RebaseCornerCases := by
  unfold Obligations.RebaseCornerCases
  refine ⟨fun s u n h => ?_, fun s u v t n n' h h' => ?_, fun s u t n n' h hle hsum => ?_⟩
  · obtain rfl := Host.Outcome.next.inj h
    refine ⟨rfl, ?_⟩
    rw [exec_trefIsset, timeIsSet_of_zero rfl]
    rfl
  · obtain rfl := Host.Outcome.next.inj h
    obtain rfl := Host.Outcome.next.inj h'
    rfl
  · obtain rfl := Host.Outcome.next.inj h
    exact exec_trefGet_of_sum_lt hle hsum

/-- Settles O56: the two times as sums with the whole seconds, and the largest tick count. -/
theorem virtualTimeLaws : Obligations.VirtualTimeLaws := by
  unfold Obligations.VirtualTimeLaws
  refine ⟨fun s t t' n n' r r' h hr h' hr' => ?_, fun s n => ?_⟩
  · obtain ⟨-, hsum⟩ := toNat_of_exec_trefGet h hr
    obtain ⟨-, hsum'⟩ := toNat_of_exec_trefGet h' hr'
    refine ⟨fun hd => ?_, fun hlo hhi => ?_, ?_, fun hle => ?_⟩
    · exact BitVec.eq_of_toNat_eq (by omega)
    · omega
    · rw [← BitVec.toNat_inj, hsum, hsum']
      exact Nat.add_left_cancel_iff
    · rw [hsum, hsum']
      exact Nat.add_le_add_left (Nat.div_le_div_right (Nat.sub_le_sub_right hle _)) _
  · have hn : n.toNat < 2 ^ 64 := n.isLt
    have hq : (n.toNat - s.rtcReference.toNat) / 1000 ≤ 18446744073709551 := by omega
    refine ⟨hq, ?_⟩
    rintro ⟨u, q, h⟩
    have hsum := sum_of_timeOverflow h
    omega

end Sys2Proof.Machine
end

section
/-! The receive path over runs (44_frame_aggregator.md R171, R178): wire bytes as what they carry, byte by byte; the run of
pushes that stores decoded bytes without a hand-off; and the two ways in which a frame ends. -/

namespace Sys2Proof.Machine

open Sys2Proof

/-! ## Wire bytes and what they carry -/

/-- The wire bytes of one decoded byte, without FEC or with it, and whether a code word among them is corrected. -/
inductive Carries : Bool → List Byte → Byte → Bool → Prop
  | plain (b : Byte) : Carries false [b] b false
  | pair {x y : Byte} {lo hi : HamDecoded} (hx : hamDec x = some lo) (hy : hamDec y = some hi) :
    Carries true [x, y] (joinNibbles lo.v hi.v) (lo.corrected || hi.corrected)

/-- The wire bytes of a sequence of decoded bytes. -/
inductive Wire (fec : Bool) : List Byte → List Byte → Bool → Prop
  | nil : Wire fec [] [] false
  | cons {w w' e : List Byte} {v : Byte} {c c' : Bool} (hv : Carries fec w v c) (he : Wire fec w' e c') :
    Wire fec (w ++ w') (v :: e) (c || c')

/-- R163: without FEC wire bytes carry themselves. -/
theorem wire_plain (w : List Byte) : Wire false w w false := by
  induction w with
  | nil => exact .nil
  | cons b w ih => exact .cons (.plain b) ih

/-- R128, R165: with FEC wire bytes carry what the compressor gives for them. -/
theorem wire_of_fecCompress {w e : List Byte} {c : Bool} (h : fecCompress w = .ok (e, c)) : Wire true w e c := by
  have hw : w.length % 2 = 0 := by
    by_contra hodd
    cases (fecCompress_of_odd (by omega)).symm.trans h
  rw [fecCompress_of_even hw] at h
  induction w, hw using pairs_induction generalizing e c with
  | nil =>
    cases h
    exact .nil
  | pair x y rest _ _ ih =>
    obtain ⟨lo, hi, e', c', hlo, hhi, hrest, rfl, rfl⟩ := fecCompressPairs_cons_ok h
    exact .cons (.pair hlo hhi) (ih hrest)

/-- The wire bytes of the last decoded byte stand last. -/
theorem Wire.split_last {fec c : Bool} {w body : List Byte} {z : Byte} (h : Wire fec w (body ++ [z]) c) :
    ∃ w₁ w₂ c₁ c₂, w = w₁ ++ w₂ ∧ Wire fec w₁ body c₁ ∧ Carries fec w₂ z c₂ ∧ c = (c₁ || c₂) := by
  induction body generalizing w c with
  | nil =>
    cases h with
    | cons hv he =>
      cases he
      exact ⟨[], _, false, _, List.append_nil _, .nil, hv, Bool.or_false _⟩
  | cons v body ih =>
    cases h with
    | cons hv he =>
      obtain ⟨w₁, w₂, c₁, c₂, rfl, hbody, hz, rfl⟩ := ih he
      exact ⟨_ ++ w₁, w₂, _ || c₁, c₂, (List.append_assoc _ _ _).symm, .cons hv hbody, hz, (Bool.or_assoc _ _ _).symm⟩

/-! ## Runs without a hand-off -/

theorem sameLatch_refl (s : State) : sameLatch s s := ⟨rfl, rfl, rfl, rfl, rfl⟩

theorem sameLatch_trans {s t u : State} (hst : sameLatch s t) (htu : sameLatch t u) : sameLatch s u := by
  obtain ⟨h1, h2, h3, h4, h5⟩ := hst
  obtain ⟨h1', h2', h3', h4', h5'⟩ := htu
  exact ⟨h1'.trans h1, h2'.trans h2, h3'.trans h3, h4'.trans h4, h5'.trans h5⟩

/-- Every run of fewer than `n` steps from `s` completes and leaves the latch alone. -/
def LatchKeptBefore (n : Nat) (s : State) : Prop := ∀ k < n, ∃ u, runSteps k s = .next u ∧ sameLatch s u

/-- A run of `n` steps from `s` to `t` that leaves the latch alone all the way. -/
def QuietRun (n : Nat) (s t : State) : Prop := runSteps n s = .next t ∧ LatchKeptBefore (n + 1) s

theorem QuietRun.sameLatch {n : Nat} {s t : State} (h : QuietRun n s t) : sameLatch s t := by
  obtain ⟨u, hu, hlatch⟩ := h.2 n (Nat.lt_succ_self n)
  exact Host.Outcome.next.inj (hu.symm.trans h.1) ▸ hlatch

theorem quietRun_zero (s : State) : QuietRun 0 s s :=
  ⟨rfl, fun k hk => ⟨s, by rw [Nat.lt_one_iff.mp hk]; rfl, sameLatch_refl s⟩⟩

theorem QuietRun.latchKeptBefore {n m : Nat} {s t : State} (h : QuietRun n s t) (ht : LatchKeptBefore m t) :
    LatchKeptBefore (n + m) s := by
  intro k hk
  rcases Nat.lt_or_ge k (n + 1) with hlt | hge
  · exact h.2 k hlt
  · obtain ⟨j, rfl⟩ := Nat.exists_eq_add_of_le (Nat.le_of_succ_le hge)
    obtain ⟨u, hu, hlatch⟩ := ht j (by omega)
    exact ⟨u, (runSteps_add h.1).trans hu, sameLatch_trans h.sameLatch hlatch⟩

theorem QuietRun.trans {n m : Nat} {s t u : State} (hst : QuietRun n s t) (htu : QuietRun m t u) :
    QuietRun (n + m) s u :=
  ⟨(runSteps_add hst.1).trans htu.1, hst.latchKeptBefore htu.2⟩

theorem quietRun_step {s t : State} (h : step s = .next t) (hlatch : sameLatch s t) : QuietRun 1 s t := by
  refine ⟨runSteps_one h, fun k hk => ?_⟩
  obtain rfl | rfl : k = 0 ∨ k = 1 := by omega
  · exact ⟨s, rfl, sameLatch_refl s⟩
  · exact ⟨t, runSteps_one h, hlatch⟩

/-! ## The steps of a push -/

theorem pushSeq_append (w w' : List Byte) : pushSeq (w ++ w') = pushSeq w ++ pushSeq w' := List.map_append

/-- A push that completes, as a step: nothing is returned, and nothing recorded. -/
theorem step_pushedState {b : Byte} {s : State} {rest : List Request}
    (hq : s.requests = encode .byteSource (.aggPush b) :: rest)
    (hi : (pushStores b s).isSome = true → s.aggIndex < s.params.cap) :
    step s = .next { pushedState b s with requests := rest, result := .none } := by
  have hx : exec (.aggPush b) { s with requests := rest } =
      .next ((pushedState b { s with requests := rest }).deliver .none) :=
    (exec_aggPush_eq b { s with requests := rest }).trans (if_pos hi)
  exact (step_quiet hq hx rfl).1

/-- The first byte of a pair is held, with `rest` still to do. -/
def holding (x : Byte) (rest : List Request) (s : State) : State :=
  { s with aggHalf := x, aggHalfValid := true, requests := rest, result := .none }

/-- R165: the step of a first byte. -/
theorem step_firstOfPair {x : Byte} {s : State} {rest : List Request} (hf : s.params.fecEn = true)
    (hv : s.aggHalfValid = false) (hq : s.requests = encode .byteSource (.aggPush x) :: rest) :
    step s = .next (holding x rest s) := by
  have hst := pushStores_firstOfPair (b := x) hf hv
  rw [step_pushedState hq (by simp [hst])]
  simp [holding, pushedState, pushCount, pushCorrected, hf, hv, hst, pushHandsOff_firstOfPair hf hv]

/-- In `u` the push of `b` comes next and stores `v`, with the correction `c` of its wire bytes; otherwise the aggregator
is that of `s`. -/
structure AboutToStore (v : Byte) (c : Bool) (rest : List Request) (s : State) (b : Byte) (u : State) : Prop where
  requests : u.requests = encode .byteSource (.aggPush b) :: rest
  params : u.params = s.params
  index : u.aggIndex = s.aggIndex
  buf : u.buf = s.buf
  stores : pushStores b u = some (u.aggIndex, v)
  phase : (u.params.fecEn ^^ u.aggHalfValid) = false
  corrected : pushCorrected b u = (s.aggCorrected || c)

/-- R163, R165: the wire bytes of a decoded byte lead to the push that stores it. -/
theorem exists_aboutToStore {w : List Byte} {v : Byte} {c : Bool} {s : State} {rest : List Request}
    (hw : Carries s.params.fecEn w v c) (hv : s.aggHalfValid = false) (hq : s.requests = pushSeq w ++ rest) :
    ∃ n b u, w.length = n + 1 ∧ QuietRun n s u ∧ AboutToStore v c rest s b u := by
  generalize hf : s.params.fecEn = fec at hw
  cases hw with
  | plain b =>
    exact ⟨0, _, s, rfl, quietRun_zero s, hq, rfl, rfl, rfl, pushStores_plain hf, by rw [hf, hv]; rfl,
      by simp [pushCorrected, hf]⟩
  | @pair x y lo hi hx hy =>
    have hst (q : List Request) :
        pushStores y (holding x q s) = some ((holding x q s).aggIndex, joinNibbles lo.v hi.v) :=
      pushStores_decodedPair hf rfl hx hy
    refine ⟨1, y, _, rfl, quietRun_step (step_firstOfPair hf hv hq) ⟨rfl, rfl, rfl, rfl, rfl⟩, rfl, rfl, rfl, rfl, hst _,
      congrArg (· ^^ true) hf, ?_⟩
    rw [pushCorrected, hst]
    simp [holding, hf, hx, hy]

/-! ## Bytes received without a hand-off -/

/-- From `s` to `t` the bytes `e` have been stored from the current index on, with the correction `c` of their wire bytes;
`rest` is still to do. -/
structure Received (e : List Byte) (c : Bool) (rest : List Request) (s t : State) : Prop where
  requests : t.requests = rest
  params : t.params = s.params
  index : t.aggIndex = s.aggIndex + e.length
  half : t.aggHalfValid = false
  corrected : t.aggCorrected = (s.aggCorrected || c)
  stored : ∀ k (h : k < e.length), t.buf.read (s.aggIndex + k) = some e[k]
  kept : ∀ a, a < s.aggIndex ∨ s.aggIndex + e.length ≤ a → t.buf.read a = s.buf.read a

theorem Received.nil {s : State} {rest : List Request} (hq : s.requests = rest) (hv : s.aggHalfValid = false) :
    Received [] false rest s s where
  requests := hq
  params := rfl
  index := rfl
  half := hv
  corrected := (Bool.or_false _).symm
  stored := nofun
  kept := fun _ _ => rfl

theorem Received.cons {v : Byte} {e : List Byte} {c c' : Bool} {mid rest : List Request} {s t u : State}
    (hv : Received [v] c mid s t) (he : Received e c' rest t u) : Received (v :: e) (c || c') rest s u where
  requests := he.requests
  params := he.params.trans hv.params
  index := by
    rw [he.index, hv.index, List.length_singleton, List.length_cons]
    omega
  half := he.half
  corrected := by rw [he.corrected, hv.corrected, Bool.or_assoc]
  stored := fun k hk => by
    have hidx := hv.index
    rw [List.length_singleton] at hidx
    cases k with
    | zero =>
      rw [he.kept _ (.inl (by omega))]
      exact hv.stored 0 Nat.one_pos
    | succ k =>
      have hnext := he.stored k (Nat.lt_of_succ_lt_succ hk)
      rwa [hidx, Nat.add_assoc, Nat.add_comm 1 k] at hnext
  kept := fun a ha => by
    have hidx := hv.index
    rw [List.length_singleton] at hidx
    rw [List.length_cons] at ha
    rw [he.kept a (by omega), hv.kept a (by rw [List.length_singleton]; omega)]

/-- R163, R165: a byte that is no terminator and does not fill the buffer is received. -/
theorem AboutToStore.received {v b : Byte} {c : Bool} {rest : List Request} {s u : State}
    (h : AboutToStore v c rest s b u) (hzero : v ≠ 0x00) (hcap : s.aggIndex + 1 < s.params.cap) :
    ∃ t, QuietRun 1 u t ∧ Received [v] c rest s t := by
  have hoff : pushHandsOff b u = false := by
    rw [pushHandsOff_of_some h.stores, ← Bool.not_eq_true, frameComplete_iff, h.index, h.params]
    exact not_or.mpr ⟨hzero, hcap.ne⟩
  have hidx : (pushStores b u).isSome = true → u.aggIndex < u.params.cap := fun _ => by
    rw [h.index, h.params]
    omega
  have hbuf : (pushedState b u).buf = s.buf.write s.aggIndex v := by
    simp [pushedState, h.stores, h.buf, h.index]
  refine ⟨_, quietRun_step (step_pushedState h.requests hidx) ?_, rfl, h.params, ?_, h.phase, ?_, fun k hk => ?_,
    fun a ha => ?_⟩
  · simp [sameLatch, pushedState, hoff]
  · simp [pushedState, pushCount, hoff, h.stores, h.index]
  · simp [pushedState, hoff, h.corrected]
  · obtain rfl : k = 0 := Nat.lt_one_iff.mp hk
    exact (congrArg (Memory.read · s.aggIndex) hbuf).trans (memory_read_write_same _ _ _)
  · have hne : a ≠ s.aggIndex := by
      rw [List.length_singleton] at ha
      omega
    exact (congrArg (Memory.read · a) hbuf).trans (memory_read_write_other _ _ _ _ hne)

/-- R171: wire bytes whose decoded bytes have no terminator and do not fill the buffer are received without a hand-off. -/
theorem exists_received {w e : List Byte} {c : Bool} {s : State} {rest : List Request} {fec : Bool}
    (hf : s.params.fecEn = fec) (hw : Wire fec w e c) (hv : s.aggHalfValid = false) (hzero : 0x00 ∉ e)
    (hcap : s.aggIndex + e.length < s.params.cap) (hq : s.requests = pushSeq w ++ rest) :
    ∃ t, QuietRun w.length s t ∧ Received e c rest s t := by
  induction hw generalizing s with
  | nil => exact ⟨s, quietRun_zero s, Received.nil hq hv⟩
  | @cons w w' e v c c' hcar _ ih =>
    rw [pushSeq_append, List.append_assoc] at hq
    rw [List.length_cons] at hcap
    obtain ⟨n, b, u, hlen, hrun, hstore⟩ := exists_aboutToStore (hf ▸ hcar) hv hq
    obtain ⟨t, hlast, hrec⟩ :=
      hstore.received (fun h => hzero (h ▸ List.mem_cons_self)) (by omega)
    have hidx := hrec.index
    rw [List.length_singleton] at hidx
    obtain ⟨t', hrest, hrec'⟩ := ih ((congrArg _ hrec.params).trans hf) hrec.half (List.not_mem_of_not_mem_cons hzero)
      (by rw [hidx, hrec.params]; omega) hrec.requests
    refine ⟨t', ?_, hrec.cons hrec'⟩
    rw [List.length_append, hlen]
    exact (hrun.trans hlast).trans hrest

/-! ## The end of a frame -/

/-- In `t` the terminator, the last byte of a frame, has been stored at the index of `s` and the frame handed off, with the
correction `c` of the terminator's wire bytes; `rest` is still to do. -/
structure Terminated (c : Bool) (rest : List Request) (s t : State) : Prop where
  requests : t.requests = rest
  params : t.params = s.params
  ready : t.frameReady = true
  len : t.frameLen = s.aggIndex + 1
  index : t.aggIndex = 0
  hammingError : t.frameHammingError = false
  overrun : t.frameOverrun = (s.frameReady || s.frameOverrun)
  corrected : t.frameCorrected = (s.params.fecEn && (s.aggCorrected || c))
  buf : t.buf = s.buf.write s.aggIndex 0x00

/-- R163, R165, R168: the push that stores the terminator hands off. -/
theorem AboutToStore.terminated {b : Byte} {c : Bool} {rest : List Request} {s u : State}
    (h : AboutToStore 0x00 c rest s b u) (hlatch : sameLatch s u) (hcap : s.aggIndex < s.params.cap) :
    ∃ t, step u = .next t ∧ Terminated c rest s t := by
  have hoff : pushHandsOff b u = true := by
    rw [pushHandsOff_of_some h.stores, frameComplete_iff]
    exact .inl rfl
  have hidx : (pushStores b u).isSome = true → u.aggIndex < u.params.cap := fun _ => by rwa [h.index, h.params]
  obtain ⟨hready, -, -, -, hover⟩ := hlatch
  refine ⟨_, step_pushedState h.requests hidx, rfl, h.params, ?_, ?_, ?_, ?_, ?_, ?_, ?_⟩
  · simp [pushedState, hoff]
  · simp [pushedState, pushCount, hoff, h.stores, h.index]
  · simp [pushedState, hoff]
  · simp [pushedState, hoff, h.stores]
  · simp [pushedState, hoff, hready, hover]
  · simp [pushedState, hoff, h.corrected, h.params]
  · simp [pushedState, h.stores, h.buf, h.index]

/-- R178: wire bytes whose decoded bytes end in their only terminator and fit the buffer are handed off by the last. -/
theorem exists_terminated {w body : List Byte} {c : Bool} {s : State} {rest : List Request}
    (hw : Wire s.params.fecEn w (body ++ [0x00]) c) (hv : s.aggHalfValid = false) (hzero : 0x00 ∉ body)
    (hcap : s.aggIndex + body.length < s.params.cap) (hq : s.requests = pushSeq w ++ rest) :
    ∃ m t c₁ c₂ mid, c = (c₁ || c₂) ∧ LatchKeptBefore w.length s ∧ runSteps w.length s = .next t ∧
      sameLatch s m ∧ Received body c₁ mid s m ∧ Terminated c₂ rest m t := by
  obtain ⟨w₁, w₂, c₁, c₂, rfl, hbody, hlast, rfl⟩ := hw.split_last
  rw [pushSeq_append, List.append_assoc] at hq
  obtain ⟨m, hrun, hrec⟩ := exists_received rfl hbody hv hzero hcap hq
  obtain ⟨n, b, u, hlen, hrun', hstore⟩ := exists_aboutToStore (hrec.params ▸ hlast) hrec.half hrec.requests
  obtain ⟨t, hstep, hterm⟩ := hstore.terminated hrun'.sameLatch (by rwa [hrec.index, hrec.params])
  have hall := hrun.trans hrun'
  refine ⟨m, t, c₁, c₂, _, rfl, ?_, ?_, hrun.sameLatch, hrec, hterm⟩
  · rw [List.length_append, hlen]
    exact hall.2
  · rw [List.length_append, hlen]
    exact (runSteps_add hall.1).trans (runSteps_one hstep)

/-- R178: the bytes of the frame that was handed off are its decoded bytes. -/
theorem Terminated.read_frame {body : List Byte} {c₁ c₂ : Bool} {mid rest : List Request} {s m t : State}
    (hidx : s.aggIndex = 0) (hrec : Received body c₁ mid s m) (hterm : Terminated c₂ rest m t)
    (hcap : body.length < s.params.cap) (q : List Request) :
    memReadRange { t with requests := q } 0 t.frameLen = .ok (body ++ [0x00]) := by
  have hlen : m.aggIndex = body.length := by rw [hrec.index, hidx, Nat.zero_add]
  refine memReadRange_ok.mpr ⟨by rw [hterm.len, hlen, List.length_append, List.length_singleton], fun k hk => ?_⟩
  have hk' : k < body.length + 1 := by simpa using hk
  rw [Nat.zero_add]
  refine ⟨?_, ?_⟩
  · change k < t.params.cap
    rw [hterm.params, hrec.params]
    omega
  · change t.buf.read k = _
    rw [hterm.buf, hlen]
    rcases Nat.lt_succ_iff_lt_or_eq.mp hk' with hlt | rfl
    · rw [memory_read_write_other _ _ _ _ hlt.ne, List.getElem_append_left hlt]
      simpa [hidx] using hrec.stored k hlt
    · simp

/-! ## The obligations -/

/-- Settles O51: the run of pushes stores the decoded bytes and hands nothing off. -/
theorem newBytesOverwriteThePendingFrame : Obligations.NewBytesOverwriteThePendingFrame := by
  unfold Obligations.NewBytesOverwriteThePendingFrame
  intro s w e c rest hi hidx hwire hzero hcap hq
  obtain ⟨c, hv, hw⟩ : ∃ c, s.aggHalfValid = false ∧ Wire s.params.fecEn w e c := by
    obtain ⟨hf, rfl⟩ | ⟨hf, hv, hfec⟩ := hwire
    · exact ⟨false, (hi.fecOnly hf).2.1, hf ▸ wire_plain e⟩
    · exact ⟨c, hv, hf ▸ wire_of_fecCompress hfec⟩
  obtain ⟨t, hrun, hrec⟩ := exists_received rfl hw hv hzero (by omega) hq
  refine ⟨t, hrun.1, hrec.requests, ?_, hrec.half.trans hv.symm, fun k hk => ?_, fun a ha => hrec.kept a ?_, hrun.sameLatch⟩
  · rw [hrec.index, hidx, Nat.zero_add]
  · simpa [hidx] using hrec.stored k hk
  · omega

/-- R178: with FEC or without, the decoded bytes of a frame are what the frame decoder checks. -/
theorem frameDecode_of_wire {p : Params} {w e : List Byte} {c : Bool}
    (h : (p.fecEn = false ∧ e = w ∧ c = false) ∨ (p.fecEn = true ∧ fecCompress w = .ok (e, c))) :
    Wire p.fecEn w e c ∧ (p.fecEn && c) = c ∧ frameDecode p w = withCorrected c (frameCheck p e) := by
  obtain ⟨hf, rfl, rfl⟩ | ⟨hf, hfec⟩ := h
  · exact ⟨hf ▸ wire_plain e, Bool.and_false _, frameDecode_plain e hf⟩
  · exact ⟨hf ▸ wire_of_fecCompress hfec, by rw [hf, Bool.true_and], frameDecode_of_fecCompress_ok hf hfec⟩

/-- R178, first half: the frame is handed off by its last byte, and `FRAME.CHK` agrees with `FRAME.DEC`. -/
theorem receivePaths_terminated {s : State} {w body : List Byte} {c : Bool} {rest : List Request} (hidle : s.Idle)
    (hwire : (s.params.fecEn = false ∧ body ++ [0x00] = w ∧ c = false) ∨
      (s.params.fecEn = true ∧ fecCompress w = .ok (body ++ [0x00], c)))
    (hcap : body.length < s.params.cap) (hzero : 0x00 ∉ body)
    (hq : s.requests = pushSeq w ++ encode .client .frameChk :: rest) :
    LatchKeptBefore w.length s ∧
    (∃ u, runSteps w.length s = .next u ∧ u.frameReady = true ∧ u.frameLen = body.length + 1 ∧ u.aggIndex = 0 ∧
      u.frameHammingError = false ∧ u.frameOverrun = (s.frameReady || s.frameOverrun)) ∧
    ∃ t, runSteps (w.length + 1) s = .next t ∧ t.requests = rest ∧
      exec (.frameDec w) s = .next (s.deliver t.result) := by
  obtain ⟨hidx, hv, hcor⟩ := hidle
  obtain ⟨hw, hfec, hdec⟩ := frameDecode_of_wire hwire
  obtain ⟨m, u, c₁, c₂, mid, rfl, hkept, hrun, hlatch, hrec, hterm⟩ :=
    exists_terminated hw hv hzero (by rwa [hidx, Nat.zero_add]) hq
  obtain ⟨hready, -, -, -, hover⟩ := hlatch
  have hread := hterm.read_frame hidx hrec hcap
  have hparams : u.params = s.params := hterm.params.trans hrec.params
  have hham : readFrameHammingError { u with requests := rest } = false := by
    simp [readFrameHammingError, hterm.hammingError]
  have hflag : readFrameCorrected { u with requests := rest } = (c₁ || c₂) := by
    simpa [readFrameCorrected, hterm.corrected, hrec.corrected, hcor, hparams, hrec.params] using hfec
  have hchk := step_completes hterm.requests (exec_frameChk_of_read hham (hread rest))
  refine ⟨hkept, ⟨u, hrun, hterm.ready, ?_, hterm.index, hterm.hammingError, ?_⟩, _,
    (runSteps_add hrun).trans (runSteps_one hchk), rfl, ?_⟩
  · rw [hterm.len, hrec.index, hidx, Nat.zero_add]
  · rw [hterm.overrun, hready, hover]
  · rw [exec_frameDec, hdec, noteReturn_result, deliver_result, hflag]
    exact congrArg (fun p => Host.Outcome.next (s.deliver (correctedResult (withCorrected _ (frameCheck p _))))) hparams.symm

/-- R166, R178, second half: an undecodable pair ends the frame with what was received before it. -/
theorem receivePaths_undecodable {s : State} {pre e : List Byte} {x y : Byte} {c : Bool} {rest : List Request}
    (hidle : s.Idle) (hf : s.params.fecEn = true) (hpre : fecCompress pre = .ok (e, c))
    (hxy : hamDec x = none ∨ hamDec y = none) (hzero : 0x00 ∉ e) (hcap : e.length < s.params.cap)
    (hq : s.requests = pushSeq (pre ++ [x, y]) ++ rest) :
    LatchKeptBefore (pre.length + 2) s ∧
    ∃ u, runSteps (pre.length + 2) s = .next u ∧ u.params = s.params ∧ u.frameReady = true ∧ u.frameLen = e.length ∧
      u.frameHammingError = true := by
  obtain ⟨hidx, hv, -⟩ := hidle
  rw [pushSeq_append, List.append_assoc] at hq
  obtain ⟨m, hrun, hrec⟩ := exists_received hf (wire_of_fecCompress hpre) hv hzero (by rwa [hidx, Nat.zero_add]) hq
  have hmf : m.params.fecEn = true := (congrArg _ hrec.params).trans hf
  have hhold := quietRun_step (step_firstOfPair hmf hrec.half hrec.requests) ⟨rfl, rfl, rfl, rfl, rfl⟩
  have hall := hrun.trans hhold
  have hst (q : List Request) : pushStores y (holding x q m) = none := pushStores_undecodablePair hmf rfl hxy
  have hoff (q : List Request) : pushHandsOff y (holding x q m) = true := pushHandsOff_undecodablePair hmf rfl hxy
  have hlen (q : List Request) : (holding x q m).aggIndex = e.length := hrec.index.trans (by rw [hidx, Nat.zero_add])
  have hlast := step_pushedState (b := y) (s := holding x (encode .byteSource (.aggPush y) :: rest) m) rfl
    (by simp [hst])
  refine ⟨hall.2, _, (runSteps_add hall.1).trans (runSteps_one hlast), hrec.params, ?_, ?_, ?_⟩
  · simp [pushedState, hoff]
  · simp [pushedState, pushCount, hoff, hst, hlen]
  · simp [pushedState, hoff, hst]

/-- R178: `FRAME.DEC` fails on the whole, whatever follows the undecodable pair. -/
theorem frameDecode_of_undecodable_pair {p : Params} {pre e post : List Byte} {x y : Byte} {c : Bool}
    (hf : p.fecEn = true) (hpre : fecCompress pre = .ok (e, c)) (hxy : hamDec x = none ∨ hamDec y = none)
    (hpost : post.length % 2 = 0) : frameDecode p (pre ++ [x, y] ++ post) = .error .hammingError := by
  have heven : pre.length % 2 = 0 := by
    by_contra hodd
    cases (fecCompress_of_odd (by omega)).symm.trans hpre
  have hlen : (pre ++ [x, y] ++ post).length % 2 = 0 := by
    simp only [List.length_append, List.length_cons, List.length_nil]
    omega
  have hbad : ∃ z ∈ pre ++ [x, y] ++ post, hamDec z = none := by
    obtain hx | hy := hxy
    · exact ⟨x, by simp, hx⟩
    · exact ⟨y, by simp, hy⟩
  exact frameDecode_of_fecCompress_error hf
    ((fecCompress_of_even hlen).trans (fecCompressPairs_of_undecodable hlen hbad))

/-- Settles O52: the two ways a frame ends, each with what the decoder makes of the wire bytes. -/
theorem receivePathsAgree : Obligations.ReceivePathsAgree := by
  unfold Obligations.ReceivePathsAgree
  refine ⟨?_, fun s pre e x y post c rest _ hidle hf hpre hxy hzero hcap hpost hq => ?_⟩
  · rintro s w _ body c rest _ hidle hwire hcap rfl hzero hq
    rw [List.length_append, List.length_singleton] at hcap ⊢
    exact receivePaths_terminated hidle hwire hcap hzero hq
  · obtain ⟨hkept, u, hrun, hparams, hready, hlen, hham⟩ := receivePaths_undecodable hidle hf hpre hxy hzero hcap hq
    refine ⟨hkept, ⟨u, hrun, hready, hlen, hham, fun v hvp hvh => ?_⟩, ?_⟩
    · exact exec_frameChk_of_hammingError (by rw [hvp, hparams, hf]) (hvh.trans hham)
    · rw [exec_frameDec, frameDecode_of_undecodable_pair hf hpre hxy hpost]
      rfl

end Sys2Proof.Machine
end
